-- ==== Sys2Proof/Word.lean ====
section
/-! DEFINITION. The word types of the block: the bus word (R61), the 16-bit word of `BUF` and of the
compare registers (R31, R39), the 8-bit field and the 24-bit colour (R101). Widths are `uN` of R11. -/

namespace Sys2Proof

/-- A bus word, `u32` (R21: every host-visible register is 32 bits wide). -/
abbrev Word := BitVec 32

/-- A `u16`: a compare or top value (R30, R31), an entry of `BUF` (R39), a transmit FIFO word (R46). -/
abbrev Half := BitVec 16

/-- A `u8`: a divider half (R141), a colour channel (R101), a result code number (R25). -/
abbrev Byte := BitVec 8

/-- An RGBColor, `u24` (R101). -/
abbrev Colour := BitVec 24

end Sys2Proof
end

