-- ==== Sys2Proof/Config.lean ====
section
/-! DEFINITION. What an instance of the block fixes (R42): the parameters of R7 and R8 as the fields of `Config`,
each with the default the spec gives, and the constraints of R9 on them; the parameters the spec leaves OPEN, as
constants without a body (log entries 2 and 14); and the free values: what a cell holds that nothing has written
since reset (U1, U2; log entries 5 and 6) and the compare value of a percentage that does not fit 16 bits (U3;
log entry 7). -/

namespace Sys2Proof

/-- The two slices of a PWM channel (R28). -/
inductive Slice where
  | a
  | b
deriving DecidableEq, Repr

/-! ### FLOAT_FORMAT (R8) -/

/-- The rounding directions of IEEE 754 (log entry 16). -/
inductive Rounding where
  | nearestEven
  | nearestAway
  | towardZero
  | upward
  | downward
deriving DecidableEq, Repr

/-- A binary floating-point format with the layout of IEEE 754: one sign bit, `expWidth` bits of biased exponent,
`fracWidth` bits of fraction; and the direction in which its arithmetic rounds (log entry 16). -/
structure FloatFormat where
  expWidth : Nat
  fracWidth : Nat
  rounding : Rounding
deriving DecidableEq, Repr

/-- The default of `FLOAT_FORMAT` (R8): binary32, round to nearest even. -/
def FloatFormat.binary32 : FloatFormat := ⟨8, 23, .nearestEven⟩

/-! ### The widest instance R9 allows -/

namespace Config

/-- R9: `N_PINS <= 31`. -/
abbrev maxPins : Nat := 31

/-- R9: `N_CHANNELS <= 16`. -/
abbrev maxChannels : Nat := 16

/-- R9: `N_SPI <= 16`. -/
abbrev maxSpi : Nat := 16

/-- R9: `COL_CAP <= 1024`. -/
abbrev maxCol : Nat := 1024

/-- R9: `BUF_CAP <= 32768`. -/
abbrev maxBuf : Nat := 32768

end Config

/-- A LogicalPin (R7). An instance has those below its `N_PINS`. -/
abbrev Pin := Fin Config.maxPins

/-- A PWM channel number (R28). An instance has those below its `N_CHANNELS`. -/
abbrev Chan := Fin Config.maxChannels

/-- An SPI instance number (R20). An instance of the block has those below its `N_SPI`. -/
abbrev SpiIx := Fin Config.maxSpi

/-- A pin's entry in the default `BINDING`: channel `pin div 2`, slice A if the pin is even, B if it is odd
(R8, R121). -/
def defaultBinding (p : Pin) : Chan × Slice :=
  (⟨p.val / 2, by have h := p.isLt; unfold Config.maxPins at h; unfold Config.maxChannels; omega⟩, if p.val % 2 = 0 then .a else .b)

/-- The parameters of an instance (R7, R8), with the spec's defaults (log entry 1). -/
structure Config where
  /-- `N_PINS`: LogicalPin is 0..30 (R7). -/
  nPins : Nat := 31
  /-- `PWM_TOP` (R7). -/
  pwmTop : Half := 0x8000#16
  /-- `LOGIC_0` (R7), as an entry of `BUF` holds it (R39). -/
  logic0 : Half := 0x00E0#16
  /-- `LOGIC_1` (R7). -/
  logic1 : Half := 0x00FC#16
  /-- `BITS_PER_COLOR` (R7). No rule depends on it: every formula of the spec writes the literal 24 (R180). -/
  bitsPerColor : Nat := 24
  /-- `RESET_SYMBOLS` (R7). No rule depends on it: every formula of the spec writes the literal 2 (R180). -/
  resetSymbols : Nat := 2
  /-- `LED_TARGET_BAUD`: an operand value software passes to SPI.SOLVE, not a state of the block (R7, C8). -/
  ledTargetBaud : Nat := 8500000
  /-- `N_CHANNELS` (R8, conflict C1). -/
  nChannels : Nat := 16
  /-- `BINDING` (R8, R120, R121): a table by pin; only the entries of the instance's pins mean anything. -/
  binding : Vector (Chan × Slice) Config.maxPins := Vector.ofFn defaultBinding
  /-- `N_SPI` (R8). -/
  nSpi : Nat := 2
  /-- `FIFO_DEPTH` (R8). -/
  fifoDepth : Nat := 8
  /-- `COL_CAP` (R8). -/
  colCap : Nat := 64
  /-- `BUF_CAP` (R8). -/
  bufCap : Nat := 1538
  /-- `RESET_SYMBOL`: its default is `LOGIC_0`, not a low period (R8, R184, conflict C3). -/
  resetSymbol : Half := logic0
  /-- `SYMBOL_BITS` (R8). -/
  symbolBits : Nat := 8
  /-- `FLOAT_FORMAT` (R8). -/
  floatFormat : FloatFormat := .binary32
deriving DecidableEq, Repr

namespace Config

/-- The instance with every parameter at the spec's default (R7, R8). -/
def default : Config := {}

/-- `BINDING(pin)` (R120). -/
def bind (c : Config) (p : Pin) : Chan × Slice := c.binding[p.val]'p.isLt

/-- What an instance must meet (R9; for `BINDING` the four conditions of R120, of which totality is that the
table has an entry for every pin, on a channel the instance has). The last three say that `FLOAT_FORMAT` has
finite fractions and that its values fit in `ARG0` (R93). -/
structure Legal (c : Config) : Prop where
  pins : 1 ≤ c.nPins ∧ c.nPins ≤ maxPins ∧ c.nPins ≤ 2 * c.nChannels
  channels : c.nChannels ≤ maxChannels
  bind_channel : ∀ p : Pin, p.val < c.nPins → (c.bind p).1.val < c.nChannels
  bind_slice : ∀ p : Pin, p.val < c.nPins → ((c.bind p).2 = .a ↔ p.val % 2 = 0)
  bind_pairs : ∀ p q : Pin, p.val < c.nPins → q.val < c.nPins → p.val / 2 = q.val / 2 → (c.bind p).1 = (c.bind q).1
  bind_injective : ∀ p q : Pin, p.val < c.nPins → q.val < c.nPins → c.bind p = c.bind q → p = q
  spi : 1 ≤ c.nSpi ∧ c.nSpi ≤ maxSpi
  fifo : 1 ≤ c.fifoDepth
  buffers : c.colCap ≤ maxCol ∧ c.bufCap ≤ maxBuf
  symbols : c.logic0.toNat < 2 ^ c.symbolBits ∧ c.logic1.toNat < 2 ^ c.symbolBits ∧
    c.resetSymbol.toNat < 2 ^ c.symbolBits
  symbol_width : 3 ≤ c.symbolBits ∧ c.symbolBits ≤ 15
  float_exponent : 2 ≤ c.floatFormat.expWidth
  float_fraction : 1 ≤ c.floatFormat.fracWidth
  float_width : c.floatFormat.expWidth + c.floatFormat.fracWidth ≤ 31

/-! ### Parameters the spec leaves OPEN (R8): no value, so no proof can rest on one -/

/-- `BASE / 4`: D2 makes `BASE` a multiple of 4 and gives no value. -/
opaque baseWords : Nat

/-- `BASE`, the bus address of register offset 0. The machine names an access by its offset from here. -/
def base : Nat := 4 * baseWords

/-- `F_PERI`, the frequency of the peripheral clock; no rule depends on it (R8, D21). -/
opaque fPeri : Nat

/-- One less than the bit period `BITCLK(CPSDVSR, SCR)`. -/
opaque bitClkPred : Nat → Nat → Nat

/-- `BITCLK(CPSDVSR, SCR)` in peripheral-clock cycles: open, but a positive number of cycles (R150, U4). -/
def bitClk (cpsdvsr scr : Nat) : Nat := bitClkPred cpsdvsr scr + 1

/-! ### Free values -/

/-- What `PWM_TOP[c]` holds after reset number `epoch` (R30, R232, U1): some `u16`, not said which. -/
opaque powerUpTop (epoch c : Nat) : Half

/-- What `PWM_CMPA[c]` holds after reset number `epoch` (R31, R232, U1). -/
opaque powerUpCmpA (epoch c : Nat) : Half

/-- What `PWM_CMPB[c]` holds after reset number `epoch` (R31, R232, U1). -/
opaque powerUpCmpB (epoch c : Nat) : Half

/-- What a host read of a never written `COL[k]` returns (R40, U2): one draw per entry and per reset. -/
opaque powerUpCol (epoch k : Nat) : Colour

/-- What a host read of a never written `BUF[j]` returns (R40, U2): one draw per entry and per reset. -/
opaque powerUpBuf (epoch j : Nat) : Half

/-- The compare value the `n`-th out-of-range PWM.SETP writes (R127, U3): some `u16`, neither a saturating
nor a wrapping cast. -/
opaque freeCompare (n : Nat) : Half

end Config

end Sys2Proof
end

