-- ==== Sys2Proof/Machine/Float.lean ====
section
/-! DEFINITION. Floats in a binary format of IEEE 754 (`FLOAT_FORMAT`, default binary32 with rounding to nearest even:
R8, R93, R111; the formats themselves are G5, log entry 16). A finite value is held exactly, as a sign and a whole
number of units, a unit being the smallest positive value of the format, so that an operation is: compute exactly,
then round once. NaN payloads are not kept: nothing in the block reads one. -/

namespace Sys2Proof.Machine

/-- A Float. `fin neg mag` is `(-1)^neg * mag` units; both zeros exist. -/
inductive Flt where
  | nan
  | inf (neg : Bool)
  | fin (neg : Bool) (mag : Nat)
deriving DecidableEq, Repr

namespace Flt

/-- The exponent bias; the exponents of the finite values go from `1 - bias` to `bias`. -/
def bias (f : FloatFormat) : Nat := 2 ^ (f.expWidth - 1) - 1

/-- One, as a number of units: 2^149 in binary32. -/
def unit (f : FloatFormat) : Nat := 2 ^ (bias f - 1 + f.fracWidth)

/-- The first magnitude too large for the format: 2^128 in binary32. -/
def overflow (f : FloatFormat) : Nat := unit f * 2 ^ (bias f + 1)

/-- The largest finite magnitude. -/
def largest (f : FloatFormat) : Nat := overflow f - unit f * 2 ^ bias f / 2 ^ f.fracWidth

/-- The value of a bit pattern: sign, biased exponent, fraction, from the top (R93; `[31]`, `[30:23]`, `[22:0]` in
binary32). -/
def ofBits (f : FloatFormat) (b : Word) : Flt :=
  let neg := b.getLsbD (f.expWidth + f.fracWidth)
  let e := b.toNat / 2 ^ f.fracWidth % 2 ^ f.expWidth
  let m := b.toNat % 2 ^ f.fracWidth
  if e = 2 ^ f.expWidth - 1 then (if m = 0 then inf neg else nan)
  else if e = 0 then fin neg m
  else fin neg ((2 ^ f.fracWidth + m) * 2 ^ (e - 1))

/-- A bit pattern of a value; a NaN becomes the quiet NaN with no other fraction bit (`0x7FC00000` in binary32, G5). -/
def toBits (f : FloatFormat) (x : Flt) : Word :=
  let sign : Bool → Nat := fun neg => neg.toNat * 2 ^ (f.expWidth + f.fracWidth)
  match x with
  | nan => BitVec.ofNat 32 ((2 ^ f.expWidth - 1) * 2 ^ f.fracWidth + 2 ^ (f.fracWidth - 1))
  | inf neg => BitVec.ofNat 32 (sign neg + (2 ^ f.expWidth - 1) * 2 ^ f.fracWidth)
  | fin neg mag =>
    if mag < 2 ^ f.fracWidth then BitVec.ofNat 32 (sign neg + mag)
    else
      let e := mag.log2 - f.fracWidth
      BitVec.ofNat 32 (sign neg + e * 2 ^ f.fracWidth + mag / 2 ^ e)

/-- Whether a magnitude that lies between two neighbours of the format goes to the upper one, `rest / d` of the way
up, from a lower neighbour that is odd or even. -/
def roundsUp (r : Rounding) (neg odd : Bool) (rest d : Nat) : Bool :=
  match r with
  | .nearestEven => decide (d < 2 * rest) || (decide (2 * rest = d) && odd)
  | .nearestAway => decide (d ≤ 2 * rest)
  | .towardZero => false
  | .upward => !neg && decide (0 < rest)
  | .downward => neg && decide (0 < rest)

/-- The magnitude of the format that `num / den` units round to, if the format had no largest value. Below
2^(fracWidth + 1) units the spacing is one unit; above, it is the power of two that leaves fracWidth + 1
significant bits. -/
def roundMag (f : FloatFormat) (neg : Bool) (num den : Nat) : Nat :=
  let e := (num / den).log2 - f.fracWidth
  let d := den * 2 ^ e
  let m := num / d
  (if roundsUp f.rounding neg (decide (m % 2 = 1)) (num % d) d then m + 1 else m) * 2 ^ e

/-- What a magnitude too large for the format becomes: infinity, or the largest finite value when the direction
of rounding does not lead outward. -/
def overflowed (f : FloatFormat) (neg : Bool) : Flt :=
  match f.rounding with
  | .nearestEven | .nearestAway => inf neg
  | .towardZero => fin neg (largest f)
  | .upward => if neg then fin neg (largest f) else inf neg
  | .downward => if neg then inf neg else fin neg (largest f)

/-- Rounds `(-1)^neg * num / den` units to the format. -/
def round (f : FloatFormat) (neg : Bool) (num den : Nat) : Flt :=
  if overflow f ≤ num / den then overflowed f neg
  else if overflow f ≤ roundMag f neg num den then overflowed f neg
  else fin neg (roundMag f neg num den)

/-- The value of a natural number, rounded to the format. -/
def ofNat (f : FloatFormat) (n : Nat) : Flt := round f false (n * unit f) 1

/-- The whole number of units of a finite value with its sign. -/
def signed (neg : Bool) (mag : Nat) : Int := if neg then -(mag : Int) else mag

def neg : Flt → Flt
  | nan => nan
  | inf s => inf !s
  | fin s m => fin (!s) m

def abs : Flt → Flt
  | nan => nan
  | inf _ => inf false
  | fin _ m => fin false m

/-- The sign of an exact zero sum of operands with signs `a` and `b`. -/
def zeroSign (r : Rounding) (a b : Bool) : Bool :=
  match r with
  | .downward => a || b
  | .nearestEven | .nearestAway | .towardZero | .upward => a && b

def add (f : FloatFormat) : Flt → Flt → Flt
  | nan, _ => nan
  | _, nan => nan
  | inf a, inf b => if a = b then inf a else nan
  | inf a, fin _ _ => inf a
  | fin _ _, inf b => inf b
  | fin a m, fin b n =>
    let z := signed a m + signed b n
    if z = 0 then fin (zeroSign f.rounding a b) 0 else round f (decide (z < 0)) z.natAbs 1

def sub (f : FloatFormat) (x y : Flt) : Flt := add f x (neg y)

def mul (f : FloatFormat) : Flt → Flt → Flt
  | nan, _ => nan
  | _, nan => nan
  | inf a, inf b => inf (xor a b)
  | inf a, fin b n => if n = 0 then nan else inf (xor a b)
  | fin a m, inf b => if m = 0 then nan else inf (xor a b)
  | fin a m, fin b n => round f (xor a b) (m * n) (unit f)

def div (f : FloatFormat) : Flt → Flt → Flt
  | nan, _ => nan
  | _, nan => nan
  | inf _, inf _ => nan
  | inf a, fin b _ => inf (xor a b)
  | fin a _, inf b => fin (xor a b) 0
  | fin a m, fin b n =>
    if n = 0 then (if m = 0 then nan else inf (xor a b)) else round f (xor a b) (m * unit f) n

/-- `<=`, false as soon as one side is NaN (R15: comparisons are mathematical). -/
def le : Flt → Flt → Bool
  | nan, _ => false
  | _, nan => false
  | inf a, inf b => a || !b
  | inf a, fin _ _ => a
  | fin _ _, inf b => !b
  | fin a m, fin b n => decide (signed a m ≤ signed b n)

/-- `==`: the two zeros are equal, NaN equals nothing. -/
def eq (x y : Flt) : Bool := le x y && le y x

/-- `<`. -/
def lt (x y : Flt) : Bool := le x y && !le y x

/-- `trunc` (R15): the integer part, rounding toward zero; none for NaN and the infinities. -/
def trunc (f : FloatFormat) : Flt → Option Int
  | nan => none
  | inf _ => none
  | fin neg mag => some (signed neg (mag / unit f))

/-- `fmod2(r) = r - 2 × floor(r / 2)` for `r >= 0`, both zeros included (R15); the remainder is a value of the
format, so nothing is rounded. R106 calls it for a finite non-negative value only. -/
def fmod2 (f : FloatFormat) : Flt → Flt
  | nan => nan
  | inf _ => nan
  | fin neg mag => if neg && decide (mag ≠ 0) then nan else fin false (mag % (2 * unit f))

end Flt

end Sys2Proof.Machine
end

