-- ==== Sys2Proof/Machine/State.lean ====
section
/-! DEFINITION. The state of the block (10_state.md), as plain data, and the state after reset (R231). Besides
the block's own state it holds what the model needs to be one deterministic machine, listed at the end of
`State`: the parameters of the instance, the host's accesses still to come, the order in which the agents move, the bus's answer, and two
counters that index free values (log entries 1, 3, 5, 7, 9). -/

namespace Sys2Proof.Machine

/-- The result codes (R201). Their numbers are `ResultCode.code` in Flags.lean. -/
inductive ResultCode where
  | ok
  | illegalCommand
  | badPin
  | badSelector
  | badFrameSize
  | badDivider
  | unreachableBaudRate
  | bufferSize
  /-- Raised by the reference function `rescale` only, by no command (R215). -/
  | divisionByZero
deriving DecidableEq, Repr

/-- A top or compare register (R30, R31): its value and the mark that it was written since reset (R40). -/
structure PwmReg where
  value : Half
  written : Bool
deriving DecidableEq, Repr

/-- One PWM channel (R28 to R32): `PWM_CSR.EN`, `PWM_TOP`, `PWM_CMPA`, `PWM_CMPB` and the hidden counter. -/
structure Channel where
  en : Bool
  top : PwmReg
  cmpA : PwmReg
  cmpB : PwmReg
  ctr : Half
deriving DecidableEq, Repr

/-- `PINCTRL.FUNCSEL` (R33); code 3 is reserved, is never written and has no name here. -/
inductive FuncSel where
  /-- 0 NONE: the pin is connected to no function. -/
  | unconnected
  /-- 1 IO. -/
  | io
  /-- 2 PWM. -/
  | pwm
deriving DecidableEq, Repr

/-- `PINCTRL.OEOVER` (R33); codes 1 and 2 are reserved. -/
inductive OeOver where
  | func
  | enable
deriving DecidableEq, Repr

/-- `PINCTRL.OUTOVER` (R33); code 1 is reserved. -/
inductive OutOver where
  | func
  | low
  | high
deriving DecidableEq, Repr

/-- `PINCTRL[p]` (R33). -/
structure PinCtrl where
  funcsel : FuncSel
  oeover : OeOver
  outover : OutOver
deriving DecidableEq, Repr

/-- A completed serial frame of `TXLOG[i]` (R45): how many bits were sent and their value, the first-sent
bit most significant. -/
structure Frame where
  nbits : Nat
  value : Half
deriving DecidableEq, Repr

/-- `SH[i]` (R44): the word being sent, its frame size, and how many of its bits have been driven. -/
inductive Shifter where
  | empty
  | holding (w : Half) (nbits sent : Nat)
deriving DecidableEq, Repr

/-- One SPI instance (R34 to R37, R44 to R46): the fields of `SPI_CR` and `SPI_CPSR`, the transmit FIFO with
its oldest word first, the shifter, the level of `SDO[i]` (true is H) and `TXLOG[i]`, oldest frame first.
`SPI_SR` is not stored: it is computed (R36). -/
structure SpiPort where
  dss : BitVec 4
  scr : Byte
  mstr : Bool
  sse : Bool
  cpsdvsr : Byte
  fifo : List Half
  sh : Shifter
  sdo : Bool
  txlog : List Frame
deriving DecidableEq, Repr

/-- The two phases of the send loop (R43). -/
inductive Phase where
  | push
  | wait
deriving DecidableEq, Repr

/-- The sequencer state `SEQ` (R43). -/
inductive Seq where
  | idle
  | sending (i : SpiIx) (n idx : Nat) (phase : Phase)
deriving DecidableEq, Repr

/-- A buffer of entries of `w` bits, `COL` or `BUF` (R38, R39): the entries written since reset, by index.
An index that is not listed was never written (R40). Its canonical form is `Buffer.wf` in Ops.lean. -/
abbrev Buffer (w : Nat) := List (Nat × BitVec w)

/-- A host bus access (R13, R61): the offset from `BASE` in bytes, the size in bytes, and for a write the
value on the bus. -/
inductive Access where
  | read (offset size : Nat)
  | write (offset size : Nat) (value : Word)
deriving DecidableEq, Repr

/-- Why the bus refused an access (R62, R63). -/
inductive BusError where
  /-- The access is not 32 bits wide (R62). -/
  | badSize
  /-- The offset is no multiple of 4 (R62). -/
  | misaligned
  /-- The offset is not in the register map, or its index is out of range (R63 (a)). -/
  | unmapped
  /-- A write to an `RO` register (R63 (b)). -/
  | readOnly
  /-- A read of the `WO` register `CMD` (R63 (c)). -/
  | writeOnly
deriving DecidableEq, Repr

/-- What the bus has answered to the host's latest access (log entry 9). -/
inductive Reply where
  /-- No access was issued since reset. -/
  | none
  /-- A write to `CMD` has not completed yet (R66). -/
  | pending
  /-- A write has completed. -/
  | done
  /-- A read has returned a value. -/
  | data (v : Word)
  /-- An error response: the access was refused (R62, R63). -/
  | error (why : BusError)
deriving DecidableEq, Repr

/-- An agent's turn to move (R20, R73), or the reset input being asserted (R48, R230). -/
inductive Turn where
  | host
  | sequencer
  | shifter (i : SpiIx)
  | counter (c : Chan)
  | reset
deriving DecidableEq, Repr

/-- The state of the machine. -/
structure State where
  /-- `ARG0` (R22). -/
  arg0 : Word
  /-- `ARG1` (R22). -/
  arg1 : Word
  /-- `RET0` (R22, R94). -/
  ret0 : Word
  /-- `RESULT.CODE` (R25). -/
  result : ResultCode
  /-- `STATUS.FAULT` (R26). -/
  statusFault : Bool
  /-- `STATUS.FIRSTERR`, `ok` standing for its value 0 (R26). -/
  firstErr : ResultCode
  /-- `ENC_LEN.LEN` (R27). -/
  encLen : Half
  /-- The PWM channels (R28), as many as the widest instance has; those from `N_CHANNELS` on are absent, and
  nothing names them or moves them. -/
  pwm : Vector Channel Config.maxChannels
  /-- `PINCTRL[p]` (R33); those from `N_PINS` on are absent. -/
  pins : Vector PinCtrl Config.maxPins
  /-- The SPI instances (R34 to R37, R44 to R46); those from `N_SPI` on are absent. -/
  spi : Vector SpiPort Config.maxSpi
  /-- `SEQ` (R43). -/
  seq : Seq
  /-- `COL` (R38). -/
  col : Buffer 24
  /-- `BUF` (R39). -/
  buf : Buffer 16
  /-- The model's own: the parameters of the instance (R42). No step changes them (log entry 1). -/
  cfg : Config
  /-- The model's own: the accesses the host still has to issue, in its program order (R71). -/
  host : List Access
  /-- The model's own: which agent moves at each coming step; any list is allowed (R73). -/
  turns : List Turn
  /-- The model's own: the bus's answer to the latest access. -/
  reply : Reply
  /-- The model's own: how many resets there were, which indexes the power-up draws (R232). -/
  epoch : Nat
  /-- The model's own: how many free compare values were drawn (U3). -/
  draws : Nat
deriving DecidableEq, Repr

/-- Faults of the model. Each is safe: the run is rejected, so no claim can rest on what follows. -/
inductive Fault where
  /-- LED.ENCODE read `COL[k]`, which nothing has written since reset (R193, U2). Safe. -/
  | unwrittenColour (k : Nat)
  /-- The sequencer was to push `BUF[j]` in SPI.SEND, which nothing has written since reset (R40, U2). Safe. -/
  | unwrittenWord (j : Nat)
  /-- The sequencer was to push a word into a full FIFO, where `fifo_push` is not defined (R46); no run
  reaches it (R152). Safe. -/
  | fifoPushFull
deriving DecidableEq, Repr

/-- Refusals of the model. -/
inductive Refusal where
  /-- Raised by an arm of `exec` that has no meaning yet, with its mnemonic; there is none. Safe. -/
  | notModelled (mnemonic : String)
deriving DecidableEq, Repr

/-- The three outcomes of a step on this machine. -/
abbrev Result := Host.Outcome State Fault Refusal

/-- A channel after reset number `epoch` (R231): disabled, its counter 0, its top and compare registers
holding whatever they power up with (U1) and marked as not written. -/
def Channel.atReset (epoch : Nat) (c : Chan) : Channel where
  en := false
  top := ⟨Config.powerUpTop epoch c.val, false⟩
  cmpA := ⟨Config.powerUpCmpA epoch c.val, false⟩
  cmpB := ⟨Config.powerUpCmpB epoch c.val, false⟩
  ctr := 0#16

/-- `PINCTRL[p]` after reset, `0x000` (R231). -/
def PinCtrl.atReset : PinCtrl := ⟨.unconnected, .func, .func⟩

/-- An SPI instance after reset (R231). -/
def SpiPort.atReset : SpiPort where
  dss := 0#4
  scr := 0#8
  mstr := false
  sse := false
  cpsdvsr := 0#8
  fifo := []
  sh := .empty
  sdo := false
  txlog := []

/-- An instance of the block after reset number `epoch` (R231), with a host that issues nothing and no turn
scheduled. -/
def State.atReset (cfg : Config) (epoch : Nat) : State where
  arg0 := 0#32
  arg1 := 0#32
  ret0 := 0#32
  result := .ok
  statusFault := false
  firstErr := .ok
  encLen := 0#16
  pwm := Vector.ofFn (Channel.atReset epoch)
  pins := Vector.replicate Config.maxPins PinCtrl.atReset
  spi := Vector.replicate Config.maxSpi SpiPort.atReset
  seq := .idle
  col := []
  buf := []
  cfg := cfg
  host := []
  turns := []
  reply := .none
  epoch := epoch
  draws := 0

/-- The machine right after reset (R231), of the instance with the spec's defaults (R7, R8). -/
def State.reset : State := State.atReset Config.default 0

end Sys2Proof.Machine
end

