-- ==== Sys2Proof/Machine/ColorModel.lean ====
section
/-! DEFINITION. The colour model (41_color_model.md): reference functions that read and write no state and have
no command (R100). `rescale` is used inside PWM.SETP (R112); the RGBColor layout is what LED.ENCODE consumes. -/

namespace Sys2Proof.Machine

/-! ### RGBColor (R101 to R104) -/

def Colour.red (c : Colour) : Byte := c.extractLsb' 16 8
def Colour.green (c : Colour) : Byte := c.extractLsb' 8 8
def Colour.blue (c : Colour) : Byte := c.extractLsb' 0 8

/-- `rgb_to_channels` (R102). -/
def rgbToChannels (c : Colour) : Byte × Byte × Byte := (Colour.red c, Colour.green c, Colour.blue c)

/-- `channels_to_rgb` (R103). -/
def channelsToRgb (r g b : Byte) : Colour := r ++ g ++ b

/-! ### rescale (R108, R109) -/

/-- `rescale` on integers: exact product, then division truncated toward zero (R108, R109). -/
def rescaleInt (value inLo inHi outLo outHi : Int) : Except ResultCode Int :=
  if inHi = inLo then .error .divisionByZero
  else .ok (outLo + ((value - inLo) * (outHi - outLo)).tdiv (inHi - inLo))

/-- `rescale` on Floats: each operation is one of the format, and nothing is truncated inside (R108). -/
def rescaleFlt (f : FloatFormat) (value inLo inHi outLo outHi : Flt) : Except ResultCode Flt :=
  if Flt.eq inHi inLo then .error .divisionByZero
  else .ok (outLo.add f (((value.sub f inLo).mul f (outHi.sub f outLo)).div f (inHi.sub f inLo)))

/-! ### hsl_to_rgb (R105 to R107, R110) -/

/-- The six sextants of `hue'` (R106). -/
inductive Sextant where
  | s1
  | s2
  | s3
  | s4
  | s5
  | s6
deriving DecidableEq, Repr

/-- The sextant of `hp`, by the tests of R106 in their order; none of them gives none. -/
def sextantOf (f : FloatFormat) (hp : Flt) : Option Sextant :=
  if Flt.le (.ofNat f 0) hp && Flt.le hp (.ofNat f 1) then some .s1
  else if Flt.le (.ofNat f 1) hp && Flt.le hp (.ofNat f 2) then some .s2
  else if Flt.lt (.ofNat f 2) hp && Flt.le hp (.ofNat f 3) then some .s3
  else if Flt.lt (.ofNat f 3) hp && Flt.le hp (.ofNat f 4) then some .s4
  else if Flt.lt (.ofNat f 4) hp && Flt.le hp (.ofNat f 5) then some .s5
  else if Flt.lt (.ofNat f 5) hp && Flt.le hp (.ofNat f 6) then some .s6
  else none

/-- The tuple `(r1, g1, b1)` of a sextant, from the chroma `c`, the intermediate value `x` and zero (R106, G1). -/
def Sextant.tuple (c x zero : Flt) : Sextant → Flt × Flt × Flt
  | .s1 => (c, x, zero)
  | .s2 => (x, c, zero)
  | .s3 => (zero, c, x)
  | .s4 => (zero, x, c)
  | .s5 => (x, zero, c)
  | .s6 => (c, zero, x)

/-- A channel from a value already scaled by 255: truncated toward zero; none outside `[0, 255]`, where the
conversion is unspecified (R105, R110, U5). -/
def channelOf (f : FloatFormat) (x : Flt) : Option Byte :=
  match x.trunc f with
  | some z => if 0 ≤ z ∧ z ≤ 255 then some (BitVec.ofNat 8 z.toNat) else none
  | none => none

/-- The Float is in `[0, 1]`, the domain of saturation and lightness (R105). -/
def inUnit (f : FloatFormat) (x : Flt) : Bool := Flt.le (.ofNat f 0) x && Flt.le x (.ofNat f 1)

/-- `chroma` (R105). -/
def chromaOf (f : FloatFormat) (saturation lightness : Flt) : Flt :=
  ((Flt.ofNat f 1).sub f (((Flt.ofNat f 2).mul f lightness).sub f (.ofNat f 1)).abs).mul f saturation

/-- `hsl_to_rgb` (R105) in the format `f`. Any hue is covered; saturation or lightness outside `[0, 1]` is given no
meaning (R110, U5; log entry 17). The sextant is chosen before `x` is computed (R106). -/
def hslToRgb (f : FloatFormat) (hue saturation lightness : Flt) : Option Colour :=
  if !(inUnit f saturation && inUnit f lightness) then none
  else if Flt.eq saturation (.ofNat f 0) then
    (channelOf f (lightness.mul f (.ofNat f 255))).map fun v => channelsToRgb v v v
  else
    let hp := hue.div f (.ofNat f 60)
    match sextantOf f hp with
    | none => some 0x000000#24
    | some sx =>
      let c := chromaOf f saturation lightness
      let x := c.mul f ((Flt.ofNat f 1).sub f ((hp.fmod2 f).sub f (.ofNat f 1)).abs)
      let m := lightness.sub f (c.div f (.ofNat f 2))
      let (r1, g1, b1) := sx.tuple c x (.ofNat f 0)
      match channelOf f ((r1.add f m).mul f (.ofNat f 255)), channelOf f ((g1.add f m).mul f (.ofNat f 255)),
        channelOf f ((b1.add f m).mul f (.ofNat f 255)) with
      | some r, some g, some b => some (channelsToRgb r g b)
      | _, _, _ => none

end Sys2Proof.Machine
end

