-- ==== Sys2Proof/Machine/Flags.lean ====
section
/-! DEFINITION. The computed flags: result code numbers (R201), what a completing command makes of `RESULT` and
`STATUS` (R203), and the status bits of an SPI instance, which are functions of its FIFO and shifter (R36). -/

namespace Sys2Proof.Machine

/-- The number of a result code (R201). -/
def ResultCode.code : ResultCode → Byte
  | .ok => 0x00#8
  | .illegalCommand => 0x01#8
  | .badPin => 0x02#8
  | .badSelector => 0x03#8
  | .badFrameSize => 0x04#8
  | .badDivider => 0x05#8
  | .unreachableBaudRate => 0x10#8
  | .bufferSize => 0x11#8
  | .divisionByZero => 0x12#8

/-- `STATUS.FAULT` after a command completes with code `k`: sticky (R203). -/
def nextFault (s : State) (k : ResultCode) : Bool := s.statusFault || decide (k ≠ .ok)

/-- `STATUS.FIRSTERR` after a command completes with code `k`: the first non-zero code stays (R203). -/
def nextFirstErr (s : State) (k : ResultCode) : ResultCode :=
  if k ≠ .ok ∧ s.statusFault = false then k else s.firstErr

/-- `fifo_count(i)` (R46). -/
def SpiPort.fifoCount (p : SpiPort) : Nat := p.fifo.length

/-- `SPI_SR[i].TNF` with FIFOs of `depth` words: the FIFO is not full (R36, R154). -/
def SpiPort.tnf (depth : Nat) (p : SpiPort) : Bool := decide (p.fifoCount < depth)

/-- `SPI_SR[i].BSY`: a word is queued or in the shifter (R36, R157). -/
def SpiPort.bsy (p : SpiPort) : Bool := decide (0 < p.fifoCount) || decide (p.sh ≠ .empty)

/-- The shifter's clock runs: port enabled, master mode, a prescale of at least 2 (R155). -/
def SpiPort.clocked (p : SpiPort) : Bool := p.sse && p.mstr && decide (2 ≤ p.cpsdvsr.toNat)

end Sys2Proof.Machine
end

