-- ==== Sys2Proof/Machine/Ops.lean ====
section
/-! DEFINITION. The named operations over buffers, registers and FIFOs, and the one operation with which every
command completes, successful or failing (R203): this block's only form of exception (R200). There is no
return from an exception (R208). -/

namespace Sys2Proof.Machine

/-! ### Buffers (R38 to R40) -/

/-- The canonical form of a buffer: indices strictly rising. An unlisted index has no value of its own, so
no listed entry can be redundant. -/
def Buffer.wf {w : Nat} : Buffer w → Bool
  | [] => true
  | [_] => true
  | (k, _) :: (k', v') :: rest => decide (k < k') && Buffer.wf ((k', v') :: rest)

/-- The entry at index `k`; `none` if nothing has written it since reset. -/
def Buffer.get {w : Nat} : Buffer w → Nat → Option (BitVec w)
  | [], _ => none
  | (k', v) :: rest, k => if k = k' then some v else Buffer.get rest k

/-- Writes one entry and keeps the canonical form. -/
def Buffer.put {w : Nat} : Buffer w → Nat → BitVec w → Buffer w
  | [], k, v => [(k, v)]
  | (k', v') :: rest, k, v =>
    if k < k' then (k, v) :: (k', v') :: rest
    else if k = k' then (k, v) :: rest
    else (k', v') :: Buffer.put rest k v

/-- Writes consecutive entries from index `k` on, lowest first. -/
def Buffer.putAll {w : Nat} (b : Buffer w) (k : Nat) : List (BitVec w) → Buffer w
  | [] => b
  | v :: vs => Buffer.putAll (Buffer.put b k v) (k + 1) vs

/-- The entries `k .. k+n-1`, or the first of those indices that was never written. -/
def Buffer.readRange {w : Nat} (b : Buffer w) (k : Nat) : Nat → Except Nat (List (BitVec w))
  | 0 => .ok []
  | n + 1 =>
    match b.get k with
    | none => .error k
    | some v =>
      match Buffer.readRange b (k + 1) n with
      | .error j => .error j
      | .ok vs => .ok (v :: vs)

/-! ### Registers -/

/-- PWM channel `c`. -/
def State.chan (s : State) (c : Chan) : Channel := s.pwm[c.val]'c.isLt

/-- Replaces PWM channel `c`. -/
def State.setChan (s : State) (c : Chan) (ch : Channel) : State := { s with pwm := s.pwm.set c.val ch c.isLt }

/-- `PINCTRL[p]`. -/
def State.pinCtrl (s : State) (p : Pin) : PinCtrl := s.pins[p.val]'p.isLt

/-- `PINCTRL[p] <- v`, one whole-register write (R173). -/
def State.setPinCtrl (s : State) (p : Pin) (v : PinCtrl) : State := { s with pins := s.pins.set p.val v p.isLt }

/-- SPI instance `i`. -/
def State.port (s : State) (i : SpiIx) : SpiPort := s.spi[i.val]'i.isLt

/-- Replaces SPI instance `i`. -/
def State.setPort (s : State) (i : SpiIx) (p : SpiPort) : State := { s with spi := s.spi.set i.val p i.isLt }

/-- `SEQ <- q`. -/
def State.setSeq (s : State) (q : Seq) : State := { s with seq := q }

/-- `ARG0 <- v`. -/
def State.setArg0 (s : State) (v : Word) : State := { s with arg0 := v }

/-- `ARG1 <- v`. -/
def State.setArg1 (s : State) (v : Word) : State := { s with arg1 := v }

/-- `RET0 <- v`. -/
def State.setRet0 (s : State) (v : Word) : State := { s with ret0 := v }

/-- `ENC_LEN.LEN <- v`. -/
def State.setEncLen (s : State) (v : Half) : State := { s with encLen := v }

/-- Replaces the colour buffer. -/
def State.setCol (s : State) (b : Buffer 24) : State := { s with col := b }

/-- Replaces the word buffer. -/
def State.setBuf (s : State) (b : Buffer 16) : State := { s with buf := b }

/-- The bus answers `r`. -/
def State.setReply (s : State) (r : Reply) : State := { s with reply := r }

/-- One more free compare value is drawn (U3). -/
def State.takeDraw (s : State) : State := { s with draws := s.draws + 1 }

/-- What every write to a top or compare register leaves there: the value, marked as written (R40). -/
def PwmReg.of (v : Half) : PwmReg := ⟨v, true⟩

/-- The compare register of slice `x` of a channel (R31). -/
def Channel.cmp (ch : Channel) : Slice → PwmReg
  | .a => ch.cmpA
  | .b => ch.cmpB

/-- Writes the compare register of slice `x` and no other field of the channel. -/
def Channel.setCmp (ch : Channel) (x : Slice) (v : Half) : Channel :=
  match x with
  | .a => { ch with cmpA := PwmReg.of v }
  | .b => { ch with cmpB := PwmReg.of v }

/-! ### Transmit FIFO (R46) -/

/-- `fifo_push(i, w)` where it is defined, with FIFOs of `depth` words: `none` if the FIFO is full. -/
def SpiPort.fifoPush (depth : Nat) (p : SpiPort) (w : Half) : Option SpiPort :=
  if p.fifoCount < depth then some { p with fifo := p.fifo ++ [w] } else none

/-- `fifo_pop(i)` where it is defined: the oldest word and the port without it. -/
def SpiPort.fifoPop (p : SpiPort) : Option (Half × SpiPort) :=
  match p.fifo with
  | [] => none
  | w :: rest => some (w, { p with fifo := rest })

/-! ### Completion (R200, R203) -/

/-- The current command completes with code `k`: `RESULT` and `STATUS` are recorded (R203) and the host's
write to `CMD` completes on the bus (R66). Nothing else changes, so `s.complete k` with a non-zero `k` is the
whole effect of a failing command (R204). -/
def State.complete (s : State) (k : ResultCode) : State :=
  { s with
    result := k
    statusFault := nextFault s k
    firstErr := nextFirstErr s k
    reply := .done }

end Sys2Proof.Machine
end

