-- ==== Sys2Proof/Machine/Operands.lean ====
section
/-! DEFINITION. Every operand form of a command: the fields of the word with their range checks (R87, R88,
R149), the pin's binding (R120 to R122), the mode's register value (R172), the Float in `ARG0` (R93) with its
conversion to a compare value (R126, R127), and the numbers in `ARG0` and `ARG1` (R142, R183). -/

namespace Sys2Proof.Machine

/-- The pin a field names, or none when `pin >= N_PINS` (R87). No instance has a pin 31 (R9). -/
def pinOf (c : Config) (f : BitVec 5) : Option Pin :=
  if h : f.toNat < Config.maxPins ∧ f.toNat < c.nPins then some ⟨f.toNat, h.1⟩ else none

/-- The SPI instance a field names, or none when `sel >= N_SPI` (R87). -/
def selOf (c : Config) (f : BitVec 4) : Option SpiIx :=
  if f.toNat < c.nSpi then some ⟨f.toNat, f.isLt⟩ else none

/-- `chan(pin)` (R122). -/
def State.chanOf (s : State) (p : Pin) : Chan := (s.cfg.bind p).1

/-- The slice bound to a pin (R120). -/
def State.sliceOf (s : State) (p : Pin) : Slice := (s.cfg.bind p).2

/-- `cmpreg(pin)`, read (R122). -/
def State.cmpreg (s : State) (p : Pin) : PwmReg := (s.chan (s.chanOf p)).cmp (s.sliceOf p)

/-- `cmpreg(pin) <- v` (R122). -/
def State.setCmpreg (s : State) (p : Pin) (v : Half) : State :=
  s.setChan (s.chanOf p) ((s.chan (s.chanOf p)).setCmp (s.sliceOf p) v)

/-- A frame size is legal from 3 on; 4 bits cannot exceed 15 (R87, R151). -/
def frameSizeOk (dss : BitVec 4) : Bool := decide (3 ≤ dss.toNat)

/-- A prescale is legal if it is even and at least 2 (R149). -/
def prescaleOk (prescale : Byte) : Bool := decide (2 ≤ prescale.toNat) && decide (prescale.toNat % 2 = 0)

/-- `pinval(mode)` (R172); none for mode 3 (R171). -/
def pinval (mode : BitVec 2) : Option PinCtrl :=
  match mode.toNat with
  | 0 => some ⟨.io, .enable, .low⟩
  | 1 => some ⟨.io, .enable, .high⟩
  | 2 => some ⟨.pwm, .func, .func⟩
  | _ => none

/-- The Float operand of PWM.SETP, the bit pattern in `ARG0` (R93). -/
def State.percent (s : State) : Flt := Flt.ofBits s.cfg.floatFormat s.arg0

/-- `rescale(percent, 0.0, 1.0, 0.0, float(PWM_TOP))` in Float (R126). -/
def scalePercent (c : Config) (percent : Flt) : Except ResultCode Flt :=
  rescaleFlt c.floatFormat percent (.ofNat c.floatFormat 0) (.ofNat c.floatFormat 1) (.ofNat c.floatFormat 0)
    (.ofNat c.floatFormat c.pwmTop.toNat)

/-- `to_u16(f)` (R127): truncation toward zero; none when the value is NaN, infinite, negative or above 65535
after truncation, where what is written is unspecified (U3). -/
def toU16 (c : Config) (f : Flt) : Option Half :=
  match f.trunc c.floatFormat with
  | some z => if 0 ≤ z ∧ z ≤ 65535 then some (BitVec.ofNat 16 z.toNat) else none
  | none => none

end Sys2Proof.Machine
end

