-- ==== Sys2Proof/Machine/Spi.lean ====
section
/-! DEFINITION. SPI.SOLVE, SPI.APPLY, SPI.SEND (43_spi_clock.md). SPI.SEND's own step writes the control fields
and enters the push-and-wait loop (R152); the loop's steps and the shifter's are in Agents.lean. -/

namespace Sys2Proof.Machine

/-! ### The solver (R142 to R147), in Nat, so that no product wraps (R147) -/

/-- The first scan from `q` on, over `fuel` even values ascending (R143). -/
def scanPrescale (clk baud : Nat) : Nat → Nat → Option Nat
  | 0, _ => none
  | fuel + 1, q => if clk < (q + 2) * 256 * baud then some q else scanPrescale clk baud fuel (q + 2)

/-- The first scan: the 127 even values 2, 4, ..., 254 (R143). -/
def solvePrescale (clk baud : Nat) : Option Nat := scanPrescale clk baud 127 2

/-- The second scan from `d` on, descending; at 0 the test is not evaluated and 0 is the answer (R144, R145). -/
def scanPostdiv (clk baud prescale : Nat) : Nat → Nat
  | 0 => 0
  | d + 1 => if clk / (prescale * (d + 1)) > baud then d + 1 else scanPostdiv clk baud prescale d

/-- The second scan: 255, 254, ..., 1, then 0 (R144, R145). -/
def solvePostdiv (clk baud prescale : Nat) : Nat := scanPostdiv clk baud prescale 255

/-- `{0x0000, prescale[7:0], postdiv[7:0]}` (R94). -/
def packDivider (prescale postdiv : Nat) : Word := 0#16 ++ BitVec.ofNat 8 prescale ++ BitVec.ofNat 8 postdiv

/-- SPI.SOLVE (R142). On failure `RET0` keeps its value: no sentinel (R146). -/
def execSpiSolve (s : State) : Result :=
  match solvePrescale s.arg0.toNat s.arg1.toNat with
  | none => .next (s.complete .unreachableBaudRate)
  | some q =>
    .next ((s.setRet0 (packDivider q (solvePostdiv s.arg0.toNat s.arg1.toNat q))).complete .ok)

/-- SPI.APPLY (R148): `CPSDVSR` and the field `SCR`; `DSS`, `MSTR` and `SSE` stay (R12). -/
def execSpiApply (sel : BitVec 4) (prescale postdiv : BitVec 8) (s : State) : Result :=
  match selOf s.cfg sel with
  | none => .next (s.complete .badSelector)
  | some i =>
    if prescaleOk prescale then
      .next ((s.setPort i { s.port i with cpsdvsr := prescale, scr := postdiv }).complete .ok)
    else .next (s.complete .badDivider)

/-- The control fields SPI.SEND writes: `DSS`, master mode, port enabled (R151). -/
def SpiPort.configure (p : SpiPort) (dss : BitVec 4) : SpiPort :=
  { p with dss := dss, mstr := true, sse := true }

/-- SPI.SEND's own step (R151, R152): the checks in the order of R205, the three field writes, and then the
first state of the loop, or completion in the same step when `count = 0`. -/
def execSpiSend (dss sel : BitVec 4) (count : BitVec 16) (s : State) : Result :=
  if frameSizeOk dss then
    match selOf s.cfg sel with
    | none => .next (s.complete .badSelector)
    | some i =>
      if s.cfg.bufCap < count.toNat then .next (s.complete .bufferSize)
      else
        let s' := s.setPort i ((s.port i).configure dss)
        if count.toNat = 0 then .next (s'.complete .ok)
        else .next (s'.setSeq (.sending i count.toNat 0 .push))
  else .next (s.complete .badFrameSize)

end Sys2Proof.Machine
end

