-- ==== Sys2Proof/Machine/Agents.lean ====
section
/-! DEFINITION. The agents that move beside the host (R20): the sequencer in the send loop (R152), the shifters
(R155, R156), the PWM counters (R129), and the reset input (R230). An agent whose turn comes when it has no
enabled step lets the turn pass (log entry 4). -/

namespace Sys2Proof.Machine

/-- The push of the send loop (R152): `fifo_push(i, BUF[idx])`, then wait. The push is not preceded by a test
of `TNF`; where it is not defined the model faults (R46). -/
def sendPush (i : SpiIx) (n idx : Nat) (s : State) : Result :=
  if idx < n then
    match s.buf.get idx with
    | none => .fault (.unwrittenWord idx)
    | some w =>
      match (s.port i).fifoPush s.cfg.fifoDepth w with
      | none => .fault .fifoPushFull
      | some p => .next ((s.setPort i p).setSeq (.sending i n (idx + 1) .wait))
  else .next s

/-- The wait of the send loop (R152): enabled only when `TNF = 1`; after the last word the command completes. -/
def sendWait (i : SpiIx) (n idx : Nat) (s : State) : Result :=
  if (s.port i).tnf s.cfg.fifoDepth then
    if idx < n then .next (s.setSeq (.sending i n idx .push))
    else .next ((s.setSeq .idle).complete .ok)
  else .next s

/-- The sequencer's turn: it moves only inside a send (R43). -/
def sequencerTurn (s : State) : Result :=
  match s.seq with
  | .idle => .next s
  | .sending i n idx .push => sendPush i n idx s
  | .sending i n idx .wait => sendWait i n idx s

/-- Bits `[n-1:0]` of a word (R153). -/
def lowBits (n : Nat) (w : Half) : Half := BitVec.ofNat 16 (w.toNat % 2 ^ n)

/-- The load step: pop a word, sample `DSS` now (R155). -/
def SpiPort.load (p : SpiPort) : SpiPort :=
  match p.fifoPop with
  | none => p
  | some (w, p') => { p' with sh := .holding w p.dss.toNat 0 }

/-- The shift and finish steps (R155): drive the next bit, most significant first (R156), or log the frame.
When the last frame finishes with nothing queued the line goes idle low (R156); otherwise it keeps its level
until the next bit (log entry 11). -/
def SpiPort.shift (p : SpiPort) (w : Half) (n sent : Nat) : SpiPort :=
  if sent < n then { p with sdo := w.getLsbD (n - 1 - sent), sh := .holding w n (sent + 1) }
  else if sent = n then
    { p with
      txlog := p.txlog ++ [⟨n, lowBits n w⟩]
      sh := .empty
      sdo := p.sdo && decide (0 < p.fifoCount) }
  else p

/-- One step of a shifter, or none when it is not enabled (R155). -/
def SpiPort.shifterStep (p : SpiPort) : SpiPort :=
  if p.clocked then
    match p.sh with
    | .empty => p.load
    | .holding w n sent => p.shift w n sent
  else p

/-- Shifter `i`'s turn. -/
def shifterTurn (i : SpiIx) (s : State) : Result := .next (s.setPort i (s.port i).shifterStep)

/-- One system-clock tick of a counter (R129). -/
def Channel.tick (ch : Channel) : Channel :=
  if ch.en then
    if ch.top.value.toNat ≤ ch.ctr.toNat then { ch with ctr := 0#16 } else { ch with ctr := ch.ctr + 1#16 }
  else ch

/-- Counter `c`'s turn. -/
def counterTurn (c : Chan) (s : State) : Result := .next (s.setChan c (s.chan c).tick)

/-- `rst` is asserted (R230): the block takes its reset state (R231), with new power-up draws (R232). The
host's remaining accesses and the schedule are outside the block and stay (log entry 13). -/
def resetTurn (s : State) : Result :=
  .next { State.atReset s.cfg (s.epoch + 1) with host := s.host, turns := s.turns, draws := s.draws }

end Sys2Proof.Machine
end

