-- ==== Sys2Proof/Syntax.lean ====
section
/-! DEFINITION. The eight commands (R83, R92), one constructor per row of the opcode table, with the fields
of its format (R82) as the unsigned numbers they are (R88). An operand outside the word (`ARG0`, `ARG1`,
`COL`, `BUF`) is no field: the command reads it from the state (R84). -/

namespace Sys2Proof

/-- A decoded command (R92). A field value out of its command's range is still a command: the range checks
belong to the command's rule and give a named failure (R87, R92). -/
inductive Instr where
  /-- PWM.START `pin, init` (R124), format P. -/
  | pwmStart (pin : BitVec 5) (init : BitVec 16)
  /-- PWM.SET `pin, raw` (R125), format P. -/
  | pwmSet (pin : BitVec 5) (raw : BitVec 16)
  /-- PWM.SETP `pin`, with `ARG0` = percent (R126), format F. -/
  | pwmSetp (pin : BitVec 5)
  /-- SPI.SOLVE, with `ARG0` = peripheral clock and `ARG1` = target baud (R142), format N. -/
  | spiSolve
  /-- SPI.APPLY `sel, prescale, postdiv` (R148), format A. -/
  | spiApply (sel : BitVec 4) (prescale postdiv : BitVec 8)
  /-- SPI.SEND `dss, sel, count`, data in `BUF` (R151), format T. -/
  | spiSend (dss sel : BitVec 4) (count : BitVec 16)
  /-- GPIO.SET `pin, mode` (R171), format M; mode 3 decodes and then fails (R87). -/
  | gpioSet (pin : BitVec 5) (mode : BitVec 2)
  /-- LED.ENCODE `count`, with `ARG0` = declared length (R183), format E. -/
  | ledEncode (count : BitVec 16)
deriving DecidableEq, Repr

end Sys2Proof
end

