-- ==== Sys2Proof/Decode.lean ====
section
/-! DEFINITION. From a 32-bit command word to a command and back (R80 to R92). The rows are the opcode map of
R83; decoding is total and answers `Illegal`, with the reason, for every word no row selects (R85, R86). -/

namespace Sys2Proof

/-- One row of the opcode map (R83). -/
structure Row where
  mnemonic : String
  pattern : Word
  mask : Word
deriving DecidableEq, Repr

/-- A word `w` selects the row with `w & mask == match` (R83). -/
def Row.selects (r : Row) (w : Word) : Bool := w &&& r.mask == r.pattern

def rowPwmStart : Row := ⟨"PWM.START", 0x21000000#32, 0xFFE00000#32⟩
def rowPwmSet : Row := ⟨"PWM.SET", 0x22000000#32, 0xFFE00000#32⟩
def rowPwmSetp : Row := ⟨"PWM.SETP", 0x23000000#32, 0xFFE0FFFF#32⟩
def rowSpiSolve : Row := ⟨"SPI.SOLVE", 0x31000000#32, 0xFFFFFFFF#32⟩
def rowSpiApply : Row := ⟨"SPI.APPLY", 0x32000000#32, 0xFFF00000#32⟩
def rowSpiSend : Row := ⟨"SPI.SEND", 0x33000000#32, 0xFF000000#32⟩
def rowGpioSet : Row := ⟨"GPIO.SET", 0x41000000#32, 0xFFE0FFFC#32⟩
def rowLedEncode : Row := ⟨"LED.ENCODE", 0x51000000#32, 0xFFFF0000#32⟩

/-- The opcode map (R83), in its order. -/
def opcodeMap : List Row :=
  [rowPwmStart, rowPwmSet, rowPwmSetp, rowSpiSolve, rowSpiApply, rowSpiSend, rowGpioSet, rowLedEncode]

/-- Bits `[31:24]` of a command word (R81). -/
def opcodeOf (w : Word) : Byte := w.extractLsb' 24 8

/-- Why a word is illegal. Either way the command fails with `IllegalCommand` (R85, R86). -/
inductive IllegalWord where
  /-- The opcode is in no row of the map (R86). -/
  | unknownOpcode (opcode : Byte)
  /-- The opcode is in the map and a reserved bit of its format is 1 (R85). -/
  | reservedBit (opcode : Byte)
deriving DecidableEq, Repr

/-- What decoding a word answers (R92). -/
inductive Decoded where
  | command (i : Instr)
  | illegal (why : IllegalWord)
deriving DecidableEq, Repr

/-- The reason a word that no row selects is illegal. -/
def illegalReason (w : Word) : IllegalWord :=
  if opcodeMap.any (fun r => opcodeOf r.pattern == opcodeOf w) then .reservedBit (opcodeOf w)
  else .unknownOpcode (opcodeOf w)

/-- Decoding (R92): find the row, then take the fields of its format (R82). `w.extractLsb' lo n` is
`w[lo+n-1 : lo]`. -/
def decode (w : Word) : Decoded :=
  if rowPwmStart.selects w then .command (.pwmStart (w.extractLsb' 16 5) (w.extractLsb' 0 16))
  else if rowPwmSet.selects w then .command (.pwmSet (w.extractLsb' 16 5) (w.extractLsb' 0 16))
  else if rowPwmSetp.selects w then .command (.pwmSetp (w.extractLsb' 16 5))
  else if rowSpiSolve.selects w then .command .spiSolve
  else if rowSpiApply.selects w then
    .command (.spiApply (w.extractLsb' 16 4) (w.extractLsb' 8 8) (w.extractLsb' 0 8))
  else if rowSpiSend.selects w then
    .command (.spiSend (w.extractLsb' 20 4) (w.extractLsb' 16 4) (w.extractLsb' 0 16))
  else if rowGpioSet.selects w then .command (.gpioSet (w.extractLsb' 16 5) (w.extractLsb' 0 2))
  else if rowLedEncode.selects w then .command (.ledEncode (w.extractLsb' 0 16))
  else .illegal (illegalReason w)

/-- The word of a command (R82, R83): the opcode, then the fields of the format, most significant first,
with the reserved bits 0. -/
def encode : Instr → Word
  | .pwmStart pin init => 0x21#8 ++ 0#3 ++ pin ++ init
  | .pwmSet pin raw => 0x22#8 ++ 0#3 ++ pin ++ raw
  | .pwmSetp pin => 0x23#8 ++ 0#3 ++ pin ++ 0#16
  | .spiSolve => 0x31#8 ++ 0#24
  | .spiApply sel prescale postdiv => 0x32#8 ++ 0#4 ++ sel ++ prescale ++ postdiv
  | .spiSend dss sel count => 0x33#8 ++ dss ++ sel ++ count
  | .gpioSet pin mode => 0x41#8 ++ 0#3 ++ pin ++ 0#14 ++ mode
  | .ledEncode count => 0x51#8 ++ 0#8 ++ count

/-- The command the decoder reads from a row's bits `w`, for the host's tick of the opcode table. Every
command is one 32-bit word (R80), so bits above `nbits` are 0 and a longer number is no word. -/
def decodeTableWord (nbits w : Nat) : Option Instr :=
  if nbits ≤ 32 ∧ w < 2 ^ nbits then
    match decode (BitVec.ofNat 32 w) with
    | .command i => some i
    | .illegal _ => none
  else none

end Sys2Proof
end

