-- ==== Sys2Proof/Machine/Bus.lean ====
section
/-! DEFINITION. The host bus (20_memory.md): the register map (R21, R69), what a read returns, what a write
stores (R65), which accesses are refused (R61 to R63), and the host's turn. A write to `CMD` is decoded here
and handed on as a command (R23, R92). -/

namespace Sys2Proof.Machine

/-- The host-visible registers of R21, of the widest instance R9 allows. -/
inductive Reg where
  | cmd
  | arg0
  | arg1
  | ret0
  | result
  | status
  | encLen
  | pwmCsr (c : Chan)
  | pwmTop (c : Chan)
  | pwmCmpA (c : Chan)
  | pwmCmpB (c : Chan)
  | pinCtrl (p : Pin)
  | spiCr (i : SpiIx)
  | spiCpsr (i : SpiIx)
  | spiSr (i : SpiIx)
  | col (k : Fin Config.maxCol)
  | buf (j : Fin Config.maxBuf)
deriving DecidableEq, Repr

/-- The offset of a register from `BASE` (R21). -/
def Reg.offset : Reg → Nat
  | .cmd => 0x0000
  | .arg0 => 0x0004
  | .arg1 => 0x0008
  | .ret0 => 0x000C
  | .result => 0x0010
  | .status => 0x0014
  | .encLen => 0x0018
  | .pwmCsr c => 0x0100 + 0x10 * c.val
  | .pwmTop c => 0x0104 + 0x10 * c.val
  | .pwmCmpA c => 0x0108 + 0x10 * c.val
  | .pwmCmpB c => 0x010C + 0x10 * c.val
  | .pinCtrl p => 0x0200 + 4 * p.val
  | .spiCr i => 0x0300 + 0x10 * i.val
  | .spiCpsr i => 0x0304 + 0x10 * i.val
  | .spiSr i => 0x0308 + 0x10 * i.val
  | .col k => 0x1000 + 4 * k.val
  | .buf j => 0x10000 + 4 * j.val

/-- The instance has the register: its index is in the range the parameters give it (R21, R69). -/
def Reg.present (c : Config) : Reg → Bool
  | .pwmCsr x | .pwmTop x | .pwmCmpA x | .pwmCmpB x => decide (x.val < c.nChannels)
  | .pinCtrl p => decide (p.val < c.nPins)
  | .spiCr i | .spiCpsr i | .spiSr i => decide (i.val < c.nSpi)
  | .col k => decide (k.val < c.colCap)
  | .buf j => decide (j.val < c.bufCap)
  | .cmd | .arg0 | .arg1 | .ret0 | .result | .status | .encLen => true

/-- The bus address of a register (R60). -/
def Reg.address (r : Reg) : Nat := Config.base + r.offset

/-- The register of channel `c` at byte `b` of its group of 16. -/
def pwmRegAt (c : Chan) (b : Nat) : Option Reg :=
  if b = 0 then some (.pwmCsr c)
  else if b = 4 then some (.pwmTop c)
  else if b = 8 then some (.pwmCmpA c)
  else if b = 12 then some (.pwmCmpB c)
  else none

/-- The register of SPI instance `i` at byte `b` of its group of 16; the fourth word is unmapped (R69). -/
def spiRegAt (i : SpiIx) (b : Nat) : Option Reg :=
  if b = 0 then some (.spiCr i)
  else if b = 4 then some (.spiCpsr i)
  else if b = 8 then some (.spiSr i)
  else none

/-- The control registers. -/
def controlRegAt (off : Nat) : Option Reg :=
  if off = 0x00 then some .cmd
  else if off = 0x04 then some .arg0
  else if off = 0x08 then some .arg1
  else if off = 0x0C then some .ret0
  else if off = 0x10 then some .result
  else if off = 0x14 then some .status
  else if off = 0x18 then some .encLen
  else none

/-- The register at an aligned offset on the widest instance, or none where nothing is mapped (R21, R69). -/
def mapAt (off : Nat) : Option Reg :=
  if off < 0x100 then controlRegAt off
  else if off < 0x200 then
    if h : (off - 0x100) / 16 < Config.maxChannels then pwmRegAt ⟨(off - 0x100) / 16, h⟩ ((off - 0x100) % 16) else none
  else if off < 0x300 then
    if h : (off - 0x200) / 4 < Config.maxPins then some (.pinCtrl ⟨(off - 0x200) / 4, h⟩) else none
  else if off < 0x400 then
    if h : (off - 0x300) / 16 < Config.maxSpi then spiRegAt ⟨(off - 0x300) / 16, h⟩ ((off - 0x300) % 16) else none
  else if off < 0x1000 then none
  else if h : off < 0x2000 then some (.col ⟨(off - 0x1000) / 4, by unfold Config.maxCol; omega⟩)
  else if off < 0x10000 then none
  else if h : (off - 0x10000) / 4 < Config.maxBuf then some (.buf ⟨(off - 0x10000) / 4, h⟩)
  else none

/-- The register at an aligned offset of the instance: indices beyond its parameters are unmapped (R63, R69). -/
def regAt (c : Config) (off : Nat) : Option Reg := (mapAt off).filter (Reg.present c)

/-- The register an access names, or why the bus refuses it (R61 to R63 (a)). -/
def decodeAddress (c : Config) (off size : Nat) : Except BusError Reg :=
  if size ≠ 4 then .error .badSize
  else if off % 4 ≠ 0 then .error .misaligned
  else
    match regAt c off with
    | none => .error .unmapped
    | some r => .ok r

/-! ### Register values as the host reads them (R21: bits outside a field read as 0) -/

/-- The codes of `FUNCSEL` (R33). -/
def FuncSel.code : FuncSel → BitVec 2
  | .unconnected => 0#2
  | .io => 1#2
  | .pwm => 2#2

/-- The codes of `OEOVER` (R33). -/
def OeOver.code : OeOver → BitVec 2
  | .func => 0#2
  | .enable => 3#2

/-- The codes of `OUTOVER` (R33). -/
def OutOver.code : OutOver → BitVec 2
  | .func => 0#2
  | .low => 2#2
  | .high => 3#2

/-- `PINCTRL[p]`: `[1:0]` FUNCSEL, `[5:4]` OEOVER, `[9:8]` OUTOVER (R33). -/
def PinCtrl.word (v : PinCtrl) : Word :=
  0#22 ++ v.outover.code ++ 0#2 ++ v.oeover.code ++ 0#2 ++ v.funcsel.code

/-- `SPI_CR[i]`: `[3:0]` DSS, `[15:8]` SCR, `[16]` MSTR, `[17]` SSE (R34). -/
def SpiPort.crWord (p : SpiPort) : Word :=
  0#14 ++ BitVec.ofBool p.sse ++ BitVec.ofBool p.mstr ++ p.scr ++ 0#4 ++ p.dss

/-- `SPI_SR[i]`: `[0]` TNF, `[1]` BSY (R36). -/
def SpiPort.srWord (depth : Nat) (p : SpiPort) : Word := 0#30 ++ BitVec.ofBool p.bsy ++ BitVec.ofBool (p.tnf depth)

/-- `STATUS`: `[0]` FAULT, `[15:8]` FIRSTERR (R26). -/
def State.statusWord (s : State) : Word :=
  0#16 ++ s.firstErr.code ++ 0#7 ++ BitVec.ofBool s.statusFault

/-- A `u16` on the 32-bit bus. -/
def halfWord (v : Half) : Word := v.setWidth 32

/-- What a host read of a register returns (R21). `CMD` is not storage and is never read (R23); an entry of a
buffer that nothing has written returns its draw (U2). -/
def readReg (s : State) : Reg → Option Word
  | .cmd => none
  | .arg0 => some s.arg0
  | .arg1 => some s.arg1
  | .ret0 => some s.ret0
  | .result => some (s.result.code.setWidth 32)
  | .status => some s.statusWord
  | .encLen => some (halfWord s.encLen)
  | .pwmCsr c => some ((BitVec.ofBool (s.chan c).en).setWidth 32)
  | .pwmTop c => some (halfWord (s.chan c).top.value)
  | .pwmCmpA c => some (halfWord (s.chan c).cmpA.value)
  | .pwmCmpB c => some (halfWord (s.chan c).cmpB.value)
  | .pinCtrl p => some (s.pinCtrl p).word
  | .spiCr i => some (s.port i).crWord
  | .spiCpsr i => some ((s.port i).cpsdvsr.setWidth 32)
  | .spiSr i => some ((s.port i).srWord s.cfg.fifoDepth)
  | .col k => some (((s.col.get k.val).getD (Config.powerUpCol s.epoch k.val)).setWidth 32)
  | .buf j => some (halfWord ((s.buf.get j.val).getD (Config.powerUpBuf s.epoch j.val)))

/-- What a host write stores (R65, R38, R39); none for a register that is not `RW`. -/
def writeReg (s : State) (v : Word) : Reg → Option State
  | .arg0 => some (s.setArg0 v)
  | .arg1 => some (s.setArg1 v)
  | .col k => some (s.setCol (s.col.put k.val (v.setWidth 24)))
  | .buf j => some (s.setBuf (s.buf.put j.val (v.setWidth 16)))
  | .cmd | .ret0 | .result | .status | .encLen => none
  | .pwmCsr _ | .pwmTop _ | .pwmCmpA _ | .pwmCmpB _ => none
  | .pinCtrl _ | .spiCr _ | .spiCpsr _ | .spiSr _ => none

/-- What the host's turn comes to: the state after it, or a command for the sequencer and the state it is
executed in. -/
inductive HostMove where
  | done (s : State)
  | run (i : Instr) (s : State)
deriving DecidableEq, Repr

/-- A write of `w` to `CMD` (R23, R92). An illegal word is a command that fails (R85, R86). Until the command
completes, so does the write (R66). -/
def issueCommand (w : Word) (s : State) : HostMove :=
  match decode w with
  | .command i => .run i (s.setReply .pending)
  | .illegal _ => .done (s.complete .illegalCommand)

/-- One bus access (R61 to R66). A refused access gets an error response and changes nothing in the block
(R62, R63, R211; log entry 8). -/
def issue (a : Access) (s : State) : HostMove :=
  match a with
  | .read off size =>
    match decodeAddress s.cfg off size with
    | .error e => .done (s.setReply (.error e))
    | .ok r =>
      match readReg s r with
      | none => .done (s.setReply (.error .writeOnly))
      | some v => .done (s.setReply (.data v))
  | .write off size v =>
    match decodeAddress s.cfg off size with
    | .error e => .done (s.setReply (.error e))
    | .ok .cmd => issueCommand v s
    | .ok r =>
      match writeReg s v r with
      | none => .done (s.setReply (.error .readOnly))
      | some s' => .done (s'.setReply .done)

/-- The host's turn: it is held while a command runs (R66); otherwise it issues its next access, if any. -/
def hostMove (s : State) : HostMove :=
  match s.seq with
  | .sending _ _ _ _ => .done s
  | .idle =>
    match s.host with
    | [] => .done s
    | a :: rest => issue a { s with host := rest }

/-- The access with which the host hands over a command (R13, R23). -/
def commandAccess (w : Word) : Access := .write Reg.cmd.offset 4 w

end Sys2Proof.Machine
end

