-- ==== Sys2Proof/Machine/Gpio.lean ====
section
/-! DEFINITION. GPIO.SET (44_gpio_function.md). -/

namespace Sys2Proof.Machine

/-- GPIO.SET (R171): the pin is checked before the mode (R205), then one whole-register write (R173). -/
def execGpioSet (pin : BitVec 5) (mode : BitVec 2) (s : State) : Result :=
  match pinOf s.cfg pin with
  | none => .next (s.complete .badPin)
  | some p =>
    match pinval mode with
    | none => .next (s.complete .illegalCommand)
    | some v => .next ((s.setPinCtrl p v).complete .ok)

end Sys2Proof.Machine
end

