-- ==== Sys2Proof/Machine/Led.lean ====
section
/-! DEFINITION. LED.ENCODE (45_led_encoder.md). -/

namespace Sys2Proof.Machine

/-- `sym(bit)` (R181), zero-extended to an entry of `BUF` (R39). -/
def sym (c : Config) (bit : Bool) : Half := if bit then c.logic1 else c.logic0

/-- The 24 protocol bits of a colour with the first transmitted one on top: green, red, blue (R182). -/
def bitOrder (c : Colour) : BitVec 24 := Colour.green c ++ Colour.red c ++ Colour.blue c

/-- `expand24(c)` (R182), each symbol as a `BUF` entry. -/
def expand24 (c : Config) (x : Colour) : List Half :=
  (List.range 24).map fun b => sym c ((bitOrder x).getLsbD (23 - b))

/-- The whole bitstream of a frame (R190): two reset symbols, then the colours in array order (R189). -/
def encodeFrame (c : Config) (colours : List Colour) : List Half :=
  [c.resetSymbol, c.resetSymbol] ++ (colours.map (expand24 c)).flatten

/-- `need`, the exact length in symbols (R183, R186). -/
def encodedLength (count : Nat) : Nat := 2 + 24 * count

/-- LED.ENCODE (R183). A colour nothing has written since reset is a fault of the model (R193, U2). -/
def execLedEncode (count : BitVec 16) (s : State) : Result :=
  let need := encodedLength count.toNat
  if s.cfg.colCap < count.toNat then .next (s.complete .bufferSize)
  else if s.arg0.toNat ≠ need then .next (s.complete .bufferSize)
  else if s.cfg.bufCap < need then .next (s.complete .bufferSize)
  else
    match s.col.readRange 0 count.toNat with
    | .error k => .fault (.unwrittenColour k)
    | .ok colours =>
      .next (((s.setBuf (s.buf.putAll 0 (encodeFrame s.cfg colours))).setEncLen (BitVec.ofNat 16 need)).complete .ok)

end Sys2Proof.Machine
end

