-- ==== Sys2Proof/Machine/Pwm.lean ====
section
/-! DEFINITION. PWM.START, PWM.SET, PWM.SETP (42_pwm.md). Each is one atomic step of plain register writes and
keeps nothing outside the registers (R133). -/

namespace Sys2Proof.Machine

/-- `PWM_TOP[c].TOP <- v`. -/
def State.setTop (s : State) (c : Chan) (v : Half) : State :=
  s.setChan c { s.chan c with top := PwmReg.of v }

/-- `PWM_CSR[c].EN <- 1`. Nothing but reset takes it back (R29, R123). -/
def State.enableChan (s : State) (c : Chan) : State := s.setChan c { s.chan c with en := true }

/-- PWM.START (R124): the constant top, the initial compare value, then the enable, in that order (R72). -/
def execPwmStart (pin : BitVec 5) (init : BitVec 16) (s : State) : Result :=
  match pinOf s.cfg pin with
  | none => .next (s.complete .badPin)
  | some p =>
    .next ((((s.setTop (s.chanOf p) s.cfg.pwmTop).setCmpreg p init).enableChan (s.chanOf p)).complete .ok)

/-- PWM.SET (R125): the value is stored as given, even above `top` (R131), whatever `EN` is. -/
def execPwmSet (pin : BitVec 5) (raw : BitVec 16) (s : State) : Result :=
  match pinOf s.cfg pin with
  | none => .next (s.complete .badPin)
  | some p => .next ((s.setCmpreg p raw).complete .ok)

/-- PWM.SETP (R126). A scaled value that does not fit 16 bits still completes the command and writes a free
value (R127, U3). `DivisionByZero` cannot occur, since `in_hi - in_lo = 1` (R126, R215). -/
def execPwmSetp (pin : BitVec 5) (s : State) : Result :=
  match pinOf s.cfg pin with
  | none => .next (s.complete .badPin)
  | some p =>
    match scalePercent s.cfg s.percent with
    | .error k => .next (s.complete k)
    | .ok f =>
      match toU16 s.cfg f with
      | some raw => .next ((s.setCmpreg p raw).complete .ok)
      | none => .next ((s.takeDraw.setCmpreg p (Config.freeCompare s.draws)).complete .ok)

end Sys2Proof.Machine
end

