-- ==== Sys2Proof/Machine/Dispatch.lean ====
section
/-! DEFINITION. One arm per command (R83): its meaning. -/

namespace Sys2Proof.Machine

def exec (i : Instr) (s : State) : Host.Outcome State Fault Refusal :=
  match i with
  | .pwmStart pin init => Sys2Proof.Machine.execPwmStart pin init s
  | .pwmSet pin raw => Sys2Proof.Machine.execPwmSet pin raw s
  | .pwmSetp pin => Sys2Proof.Machine.execPwmSetp pin s
  | .spiSolve => Sys2Proof.Machine.execSpiSolve s
  | .spiApply sel prescale postdiv => Sys2Proof.Machine.execSpiApply sel prescale postdiv s
  | .spiSend dss sel count => Sys2Proof.Machine.execSpiSend dss sel count s
  | .gpioSet pin mode => Sys2Proof.Machine.execGpioSet pin mode s
  | .ledEncode count => Sys2Proof.Machine.execLedEncode count s

end Sys2Proof.Machine
end

