-- ==== Sys2Proof/Machine/Step.lean ====
section
/-! DEFINITION. One step of the machine: the agent whose turn it is moves (R20, R73). The block fetches no
instructions (R24): a command comes from the host's write to `CMD` (R23). -/

namespace Sys2Proof.Machine

/-- A command the host issues is executed in the same step (R66). -/
def HostMove.outcome : HostMove → Result
  | .done s => .next s
  | .run i s => exec i s

/-- The host's turn. -/
def hostTurn (s : State) : Result := (hostMove s).outcome

/-- The agent `t` moves. -/
def turnOf (t : Turn) (s : State) : Result :=
  match t with
  | .host => hostTurn s
  | .sequencer => sequencerTurn s
  | .shifter i => shifterTurn i s
  | .counter c => counterTurn c s
  | .reset => resetTurn s

/-- One step: the first turn of the schedule is taken. With no turn scheduled nothing moves (log entry 3). -/
def step (s : State) : Host.Outcome State Fault Refusal :=
  match s.turns with
  | [] => .next s
  | t :: rest => turnOf t { s with turns := rest }

/-- The state in which the very next step is the host's write of the word `w` to `CMD`: the sequencer is idle,
so that the host may move (R66), that write is the host's next access, and the host has the next turn. A
command has one length, 32 bits, whatever `nbits` (R80). -/
def State.withFetchWord (s : State) (_nbits w : Nat) : State :=
  { s with
    seq := .idle
    host := commandAccess (BitVec.ofNat 32 w) :: s.host
    turns := .host :: s.turns }

end Sys2Proof.Machine
end

