-- ==== Sys2Proof/Machine/Pins.lean ====
section
/-! DEFINITION. The outputs of the block (R47) that are functions of the state: the PWM slice outputs and their
duty (R130), and the pins (R174). `SDO[i]` is the field `sdo` of an instance. -/

namespace Sys2Proof.Machine

/-- `PWMOUT(c, x)` of R130: high iff the channel is enabled and its counter is below the slice's compare
register. -/
def Channel.out (ch : Channel) (x : Slice) : Bool := ch.en && decide (ch.ctr.toNat < (ch.cmp x).value.toNat)

/-- The high ticks of one full period: `min(CMP, TOP + 1)` of an enabled channel, else 0 (R130). -/
def Channel.highTicks (ch : Channel) (x : Slice) : Nat :=
  if ch.en then min (ch.cmp x).value.toNat (ch.top.value.toNat + 1) else 0

/-- The ticks of one full period (R129). -/
def Channel.period (ch : Channel) : Nat := ch.top.value.toNat + 1

/-- `DUTY(c, x)`, a rational number (R130). -/
def Channel.duty (ch : Channel) (x : Slice) : Rat := (ch.highTicks x : Rat) / (ch.period : Rat)

/-- What a pin shows (R47). -/
inductive PinOut where
  /-- `Z`: not driven. -/
  | z
  /-- `L`. -/
  | low
  /-- `H`. -/
  | high
  /-- The waveform of the bound slice, with its level now. -/
  | pwm (level : Bool)
deriving DecidableEq, Repr

/-- `PIN[p]` (R174). A `PINCTRL` value that no command writes is given no output (R174; log entry 18). -/
def State.pinOut (s : State) (p : Pin) : Option PinOut :=
  match s.pinCtrl p with
  | ⟨.unconnected, .func, .func⟩ => some .z
  | ⟨.io, .enable, .low⟩ => some .low
  | ⟨.io, .enable, .high⟩ => some .high
  | ⟨.pwm, .func, .func⟩ => some (.pwm ((s.chan (s.chanOf p)).out (s.sliceOf p)))
  | _ => none

end Sys2Proof.Machine
end

