-- ==== Sys2Proof/Safety.lean ====
section
/-! DEFINITION. The terms claims use: how a run goes on, when it hangs (R210), when it has ended (R252), what it
means that no command failed (R209), the table of R21 with its numbers, and the invariants of the machine. Each invariant is meant to hold at
reset and to be kept by every step; OBLIGATIONS.json states that it does. -/

namespace Sys2Proof.Machine

/-- The run of a list of turns from `s`: one step per turn, stopping at a fault. -/
def runTurns (ts : List Turn) (s : State) : Result :=
  Host.Core.run Sys2Proof.core ts.length { s with turns := ts }

/-- A hang (R210): the sequencer waits for room in the FIFO of an instance whose shifter has no clock. -/
def State.Hung (s : State) : Prop :=
  ∃ i n idx, s.seq = .sending i n idx .wait ∧ (s.port i).tnf s.cfg.fifoDepth = false ∧ (s.port i).clocked = false

/-- The run has ended (R252). -/
def State.Ended (s : State) : Prop :=
  s.host = [] ∧ s.seq = .idle ∧ ∀ i, (s.port i).bsy = false ∨ (s.port i).clocked = false

/-- What a pin shows at the end of a run (R252): a level, or the duty of its slice in place of a waveform. -/
inductive PinShown where
  | z
  | low
  | high
  | duty (d : Rat)
deriving DecidableEq, Repr

/-- `PIN[p]` as a run's result shows it; none where `pinOut` gives none (R174). -/
def State.pinShown (s : State) (p : Pin) : Option PinShown :=
  (s.pinOut p).map fun o =>
    match o with
    | .z => .z
    | .low => .low
    | .high => .high
    | .pwm _ => .duty ((s.chan (s.chanOf p)).duty (s.sliceOf p))

/-- Two ended runs of one instance have the same observable result (R252): every host-readable register and buffer entry, every
`TXLOG[i]` and every pin agree. `STATUS` is among the registers. -/
def SameResult (s t : State) : Prop :=
  (∀ r : Reg, r.present s.cfg = true → readReg s r = readReg t r) ∧ (∀ i, (s.port i).txlog = (t.port i).txlog) ∧
    ∀ p, s.pinShown p = t.pinShown p

/-- The table of R21, row by row: the register at each offset from `BASE` of an instance, with the numbers of the
table. An offset without a row is unmapped. -/
inductive MapRow (c : Config) : Nat → Reg → Prop where
  | cmd : MapRow c 0x0000 .cmd
  | arg0 : MapRow c 0x0004 .arg0
  | arg1 : MapRow c 0x0008 .arg1
  | ret0 : MapRow c 0x000C .ret0
  | result : MapRow c 0x0010 .result
  | status : MapRow c 0x0014 .status
  | encLen : MapRow c 0x0018 .encLen
  | pwmCsr (x : Chan) : x.val < c.nChannels → MapRow c (0x0100 + 0x10 * x.val) (.pwmCsr x)
  | pwmTop (x : Chan) : x.val < c.nChannels → MapRow c (0x0104 + 0x10 * x.val) (.pwmTop x)
  | pwmCmpA (x : Chan) : x.val < c.nChannels → MapRow c (0x0108 + 0x10 * x.val) (.pwmCmpA x)
  | pwmCmpB (x : Chan) : x.val < c.nChannels → MapRow c (0x010C + 0x10 * x.val) (.pwmCmpB x)
  | pinCtrl (p : Pin) : p.val < c.nPins → MapRow c (0x0200 + 4 * p.val) (.pinCtrl p)
  | spiCr (i : SpiIx) : i.val < c.nSpi → MapRow c (0x0300 + 0x10 * i.val) (.spiCr i)
  | spiCpsr (i : SpiIx) : i.val < c.nSpi → MapRow c (0x0304 + 0x10 * i.val) (.spiCpsr i)
  | spiSr (i : SpiIx) : i.val < c.nSpi → MapRow c (0x0308 + 0x10 * i.val) (.spiSr i)
  | col (k : Fin Config.maxCol) : k.val < c.colCap → MapRow c (0x1000 + 4 * k.val) (.col k)
  | buf (j : Fin Config.maxBuf) : j.val < c.bufCap → MapRow c (0x10000 + 4 * j.val) (.buf j)

/-- No command failed since reset (R209). -/
def State.NoFailure (s : State) : Prop := s.statusFault = false

/-- `PINCTRL` holds one of the four values that can be in it (R33, R174). -/
def PinCtrl.Legal (v : PinCtrl) : Prop :=
  v = ⟨.unconnected, .func, .func⟩ ∨ v = ⟨.io, .enable, .low⟩ ∨ v = ⟨.io, .enable, .high⟩ ∨ v = ⟨.pwm, .func, .func⟩

/-- Every pin control register holds a legal value (R33), and those of pins the instance has not are untouched. -/
def State.PinsLegal (s : State) : Prop :=
  (∀ p, (s.pinCtrl p).Legal) ∧ ∀ p : Pin, s.cfg.nPins ≤ p.val → s.pinCtrl p = PinCtrl.atReset

/-- `RESULT` and `STATUS` agree (R25, R26, R203), and no command has raised `DivisionByZero` (R215). -/
structure State.RecordInv (s : State) : Prop where
  firstErr_iff : s.statusFault = false ↔ s.firstErr = .ok
  failed_is_recorded : s.result ≠ .ok → s.statusFault = true
  result_possible : s.result ≠ .divisionByZero
  firstErr_possible : s.firstErr ≠ .divisionByZero

/-- A channel runs with the one top value there is, or was never started (R29, R30, R32, R129). -/
structure Channel.Inv (top : Half) (ch : Channel) : Prop where
  running : ch.en = true → ch.top = PwmReg.of top ∧ ch.ctr.toNat ≤ top.toNat
  unconfigured : ch.en = false → ch.top.written = false ∧ ch.ctr = 0#16

/-- Every PWM channel is in order, and those the instance has not are untouched. -/
def State.PwmInv (s : State) : Prop :=
  (∀ c, (s.chan c).Inv s.cfg.pwmTop) ∧ ∀ c : Chan, s.cfg.nChannels ≤ c.val → s.chan c = Channel.atReset s.epoch c

/-- A buffer is in canonical form and every entry has an index below `cap`. -/
def Buffer.Inv {w : Nat} (cap : Nat) (b : Buffer w) : Prop := b.wf = true ∧ ∀ e ∈ b, e.1 < cap

/-- Both buffers are in order (R38, R39). -/
def State.BuffersInv (s : State) : Prop := Buffer.Inv s.cfg.colCap s.col ∧ Buffer.Inv s.cfg.bufCap s.buf

/-- One SPI instance with a FIFO of `depth` words (R34, R35, R44 to R46, R149, R151, R155, R156). -/
structure SpiPort.Inv (depth : Nat) (p : SpiPort) : Prop where
  /-- The FIFO holds at most `FIFO_DEPTH` words (R46). -/
  fifo_le : p.fifo.length ≤ depth
  /-- The prescale is its reset value or a legal one (R35, R149). -/
  divider : p.cpsdvsr = 0#8 ∨ (2 ≤ p.cpsdvsr.toNat ∧ p.cpsdvsr.toNat % 2 = 0)
  /-- SPI.SEND configured the port, or nothing was ever sent on it (R34, R151). -/
  configured :
    (p.mstr = true ∧ p.sse = true ∧ 3 ≤ p.dss.toNat) ∨
      (p.mstr = false ∧ p.sse = false ∧ p.dss = 0#4 ∧ p.fifo = [] ∧ p.sh = .empty ∧ p.txlog = [])
  /-- The shifter holds a frame of a legal size and has driven at most all of it (R44, R151). -/
  holding : ∀ w n sent, p.sh = .holding w n sent → 3 ≤ n ∧ n ≤ 15 ∧ sent ≤ n
  /-- With the clock stopped nothing was ever loaded (R35, R155). -/
  stopped : p.cpsdvsr = 0#8 → p.sh = .empty ∧ p.txlog = [] ∧ p.sdo = false
  /-- The idle line is low (R156). -/
  idle_low : p.sh = .empty → p.fifo = [] → p.sdo = false
  /-- A logged frame has a legal size and a value of that many bits (R45, R153). -/
  logged : ∀ f ∈ p.txlog, 3 ≤ f.nbits ∧ f.nbits ≤ 15 ∧ f.value.toNat < 2 ^ f.nbits

/-- Room in the FIFOs (R152): all have room when the sequencer is idle; in a send only the FIFO being filled
may be full, and only in the wait; the send itself is in bounds. -/
def State.SeqInv (s : State) : Prop :=
  match s.seq with
  | .idle => ∀ j, (s.port j).fifo.length < s.cfg.fifoDepth
  | .sending i n idx ph =>
    i.val < s.cfg.nSpi ∧ 0 < n ∧ n ≤ s.cfg.bufCap ∧ idx ≤ n ∧ (ph = .push → idx < n) ∧ (s.port i).sse = true ∧
      ∀ j, (j ≠ i ∨ ph = .push) → (s.port j).fifo.length < s.cfg.fifoDepth

/-- The SPI unit and the sequencer are in order, and the SPI instances the block has not are untouched. -/
def State.SpiInv (s : State) : Prop :=
  (∀ i, (s.port i).Inv s.cfg.fifoDepth) ∧ s.SeqInv ∧ ∀ i : SpiIx, s.cfg.nSpi ≤ i.val → s.port i = SpiPort.atReset

/-- `RET0` holds 0 or a divider of the solver's range (R94, R160), `ENC_LEN` 0 or an encoding's length (R27). -/
def State.ResultsInv (s : State) : Prop :=
  (s.ret0 = 0#32 ∨
    ∃ q d, 2 ≤ q ∧ q ≤ 254 ∧ q % 2 = 0 ∧ d ≤ 255 ∧ s.ret0.toNat = q * 256 + d) ∧
  (s.encLen = 0#16 ∨ ∃ count, count ≤ s.cfg.colCap ∧ s.encLen.toNat = 2 + 24 * count)

end Sys2Proof.Machine
end

