-- ==== Sys2Proof/WellFormed.lean ====
section
/-! DEFINITION. When a command's fields lie in the ranges the spec gives them (R87, R149, R159). Every command
can be encoded and executed; one that is not well formed fails by name and changes nothing else. The checks
of R205 (3), `BufferSize` in LED.ENCODE and `UnreachableBaudRate`, are no part of this: they need the state. -/

namespace Sys2Proof

/-- Every field of the command is in its range on the instance `c`: `pin < N_PINS`, `sel < N_SPI`, `dss >= 3`, an even `prescale`
of at least 2, a `mode` that is not 3, and a `count` that `BUF` can hold in SPI.SEND: the checks of R205 (2). -/
def Instr.wellFormed (c : Config) : Instr → Bool
  | .pwmStart pin _ => decide (pin.toNat < c.nPins)
  | .pwmSet pin _ => decide (pin.toNat < c.nPins)
  | .pwmSetp pin => decide (pin.toNat < c.nPins)
  | .spiSolve => true
  | .spiApply sel prescale _ =>
    decide (sel.toNat < c.nSpi) && decide (2 ≤ prescale.toNat) && decide (prescale.toNat % 2 = 0)
  | .spiSend dss sel count =>
    decide (3 ≤ dss.toNat) && decide (sel.toNat < c.nSpi) && decide (count.toNat ≤ c.bufCap)
  | .gpioSet pin mode => decide (pin.toNat < c.nPins) && decide (mode.toNat ≠ 3)
  | .ledEncode _ => true

end Sys2Proof
end

