-- ==== Sys2Proof/Certificates/Slice0/Obligations.lean ====
section
/-! DEFINITION. The statements for the provers. The first part holds the words they are said in; each statement
cites the rules of the spec it formalises. In every success statement `t = succeeded { s with … }` is the
frame: no field of the state but those named differs, and what is said after it tells how those differ. -/

namespace Sys2Proof.Machine

/-! ### Words the statements use -/

/-- The host's next access is `a`, and the host has the next turn. -/
def offer (a : Access) (s : State) : State := { s with turns := .host :: s.turns, host := a :: s.host }

/-- The next turn is `t`. -/
def give (t : Turn) (s : State) : State := { s with turns := t :: s.turns }

/-- The record of a failed command and nothing else (R203, R204), written out from R203. -/
def failed (s : State) (k : ResultCode) : State :=
  { s with
    result := k
    statusFault := true
    firstErr := if s.statusFault then s.firstErr else k
    reply := .done }

/-- The record of a successful command and nothing else (R203). -/
def succeeded (s : State) : State := { s with result := .ok, reply := .done }

/-- Among the compare registers only that of pin `p` differs, holding `v`; no counter differs. -/
def OnlyCompare (s t : State) (p : Pin) (v : Half) : Prop :=
  t.cmpreg p = ⟨v, true⟩ ∧
  (∀ c x, (c, x) ≠ s.cfg.bind p → (t.chan c).cmp x = (s.chan c).cmp x) ∧
  ∀ c, (t.chan c).ctr = (s.chan c).ctr

/-- No channel's enable or top differs. -/
def SameEnableAndTop (s t : State) : Prop :=
  ∀ c, (t.chan c).en = (s.chan c).en ∧ (t.chan c).top = (s.chan c).top

/-- `trunc(percent × 0x8000)` of a binary32 bit pattern, if it is a `u16` (R126, R127), from the fields of R93: sign
bit 31, exponent `e` in bits 30..23 biased by 127, fraction `m` in bits 22..0. A normal number is
`(2^23 + m) × 2^(e - 150)`, a subnormal one `m × 2^(-149)`; exponent 255 is an infinity or NaN (G5; log entry 16). -/
def percentCompare (b : Word) : Option Half :=
  let e := (b.extractLsb' 23 8).toNat
  let m := (b.extractLsb' 0 23).toNat
  let t := (if e = 0 then 2 * m else (2 ^ 23 + m) * 2 ^ e) / 2 ^ 135
  if e = 255 ∨ 65535 < t ∨ (b.getLsbD 31 = true ∧ 0 < t) then none else some (BitVec.ofNat 16 t)

/-- The Float with sign `neg`, biased exponent `e` and fraction `m` in a format of IEEE 754, in units of the smallest
positive number of the format (R93, G5; log entry 16). -/
def fieldsValue (f : FloatFormat) (neg : Bool) (e m : Nat) : Flt :=
  if e = 2 ^ f.expWidth - 1 then (if m = 0 then .inf neg else .nan)
  else if e = 0 then .fin neg m
  else .fin neg ((2 ^ f.fracWidth + m) * 2 ^ (e - 1))

/-- A number that R127 can write to a compare register: an integer that is a `u16`. -/
def compareOf : Option Int → Option Half
  | some z => if 0 ≤ z ∧ z ≤ 65535 then some (BitVec.ofNat 16 z.toNat) else none
  | none => none

/-- `hsl_to_rgb` by exact rational arithmetic (R105, R106) where every value is a small binary fraction: hue' is
`n / 8`, the saturation `i / 4`, the lightness `j / 4`. Chroma, x and m are counted in 128ths. -/
def exactHsl (n i j : Nat) : Nat × Nat × Nat :=
  let chroma := 8 * ((4 - ((2 * j : Int) - 4).natAbs) * i)
  let x := chroma * (8 - ((n % 16 : Int) - 8).natAbs) / 8
  let m := 32 * j - chroma / 2
  let channel := fun v : Nat => (v + m) * 255 / 128
  if n ≤ 8 then (channel chroma, channel x, channel 0)
  else if n ≤ 16 then (channel x, channel chroma, channel 0)
  else if n ≤ 24 then (channel 0, channel chroma, channel x)
  else if n ≤ 32 then (channel 0, channel x, channel chroma)
  else if n ≤ 40 then (channel x, channel 0, channel chroma)
  else (channel chroma, channel 0, channel x)

/-- The protocol bit at position `b` of a colour's 24 (R182, its last sentence). -/
def colourBit (c : Colour) (b : Nat) : Bool :=
  if b < 8 then c.getLsbD (15 - b) else if b < 16 then c.getLsbD (31 - b) else c.getLsbD (23 - b)

/-- The frame a word gives at a frame size: its low `dss` bits (R153). -/
def wordFrame (dss : BitVec 4) (w : Half) : Frame := ⟨dss.toNat, BitVec.ofNat 16 (w.toNat % 2 ^ dss.toNat)⟩

/-- The frame in a shifter. -/
def heldFrames : Shifter → List Frame
  | .empty => []
  | .holding w n _ => [⟨n, BitVec.ofNat 16 (w.toNat % 2 ^ n)⟩]

/-- The words of the send in progress that are not yet pushed into FIFO `i`. -/
def unpushedWords (s : State) (i : SpiIx) : List Half :=
  match s.seq with
  | .sending j n idx _ => if j = i then (List.range (n - idx)).map fun k => (s.buf.get (idx + k)).getD 0#16 else []
  | .idle => []

/-- The frames instance `i` has logged, then those still to come, in order. -/
def allFrames (s : State) (i : SpiIx) : List Frame :=
  (s.port i).txlog ++ heldFrames (s.port i).sh ++
    ((s.port i).fifo ++ unpushedWords s i).map (wordFrame (s.port i).dss)

/-- The table of R231, and the unspecified cells marked as not written. -/
def IsResetBlock (t : State) : Prop :=
  t.arg0 = 0#32 ∧ t.arg1 = 0#32 ∧ t.ret0 = 0#32 ∧ t.result = .ok ∧ t.statusFault = false ∧ t.firstErr = .ok ∧
  t.encLen = 0#16 ∧
  (∀ c, (t.chan c).en = false ∧ (t.chan c).ctr = 0#16 ∧ (t.chan c).top.written = false ∧
    (t.chan c).cmpA.written = false ∧ (t.chan c).cmpB.written = false) ∧
  (∀ p, (t.pinCtrl p).word = 0#32 ∧ t.pinOut p = some .z) ∧
  (∀ i, (t.port i).crWord = 0#32 ∧ (t.port i).cpsdvsr = 0#8 ∧ (t.port i).fifo = [] ∧ (t.port i).srWord t.cfg.fifoDepth = 1#32 ∧
    (t.port i).sh = .empty ∧ (t.port i).sdo = false ∧ (t.port i).txlog = []) ∧
  t.col = [] ∧ t.buf = [] ∧ t.seq = .idle

/-- The non-zero codes R202 lets a command complete with. -/
def possibleCodes : Instr → List ResultCode
  | .pwmStart _ _ | .pwmSet _ _ | .pwmSetp _ => [.badPin]
  | .spiSolve => [.unreachableBaudRate]
  | .spiApply _ _ _ => [.badSelector, .badDivider]
  | .spiSend _ _ _ => [.badFrameSize, .badSelector, .bufferSize]
  | .gpioSet _ _ => [.badPin, .illegalCommand]
  | .ledEncode _ => [.bufferSize]

/-- An aligned 32-bit read and an aligned 32-bit write at `off` are refused as unmapped and change nothing but the
bus's answer. -/
def Unmapped (s : State) (off : Nat) (v : Word) : Prop :=
  step (offer (.read off 4) s) = .next { s with reply := .error .unmapped } ∧
  step (offer (.write off 4 v) s) = .next { s with reply := .error .unmapped }

/-- An access that only reads. -/
def Access.isRead : Access → Bool
  | .read _ _ => true
  | .write _ _ _ => false

end Sys2Proof.Machine

open Sys2Proof Sys2Proof.Machine

/-! ### Encoding -/

/-- Words of 95_test_vectors.md section 2.7 and of the examples of the commands decode as written there. -/
def Obligations.CommandWordsDecodeAsTheSpecWritesThem : Prop :=
  decode 0x21040000#32 = .command (.pwmStart 4#5 0#16) ∧
  decode 0x221E8000#32 = .command (.pwmSet 30#5 0x8000#16) ∧
  decode 0x23040000#32 = .command (.pwmSetp 4#5) ∧
  decode 0x31000000#32 = .command .spiSolve ∧
  decode 0x32000207#32 = .command (.spiApply 0#4 2#8 7#8) ∧
  decode 0x33800002#32 = .command (.spiSend 8#4 0#4 2#16) ∧
  decode 0x41040002#32 = .command (.gpioSet 4#5 2#2) ∧
  decode 0x51000001#32 = .command (.ledEncode 1#16) ∧
  decode 0x21240000#32 = .illegal (.reservedBit 0x21#8) ∧
  decode 0x00000000#32 = .illegal (.unknownOpcode 0x00#8)

/-- Every command, with every operand at every value, is what its word decodes to (R82, R83, R92). -/
def Obligations.EncodedCommandDecodesToItself : Prop :=
  ∀ i : Instr, decode (encode i) = .command i

/-- A word has at most one meaning: the word a command is decoded from is the command's encoding. -/
def Obligations.DecodedWordIsTheEncodingOfItsCommand : Prop :=
  ∀ (w : Word) (i : Instr), decode w = .command i → encode i = w

/-- R83: a word is selected by one row or by none, and it is a command exactly when one selects it. -/
def Obligations.OneRowOrNoneSelectsAWord : Prop :=
  ∀ w : Word,
    ((opcodeMap.filter fun r => r.selects w).length ≤ 1) ∧
    ((∃ i, decode w = .command i) ↔ ∃ r ∈ opcodeMap, w &&& r.mask = r.pattern)

/-- R87 and R205 (2): a command that is not well formed fails with a code of a field check that R202 lets it
complete with, and changes nothing but the record. -/
def Obligations.IllFormedCommandFailsAndChangesNothingElse : Prop :=
  ∀ (i : Instr) (s : State), i.wellFormed s.cfg = false →
    ∃ k ∈ [ResultCode.illegalCommand, .badPin, .badSelector, .badFrameSize, .badDivider, .bufferSize],
      k ∈ possibleCodes i ∧ exec i s = .next (failed s k)

/-! ### The step, the bus, the failing command -/

/-- R23, R66, R92: when the idle block's host writes a word to `CMD`, the step is the execution of the command
the word decodes to, in the state with the access taken from the host and not yet answered. -/
def Obligations.StepRunsTheDecodedCommand : Prop :=
  ∀ (s : State) (w : Word) (i : Instr), s.seq = .idle → decode w = .command i →
    step (offer (.write 0x0000 4 w) s) = exec i { s with reply := .pending }

/-- R85. -/
def Obligations.ReservedBitMakesTheCommandFail : Prop :=
  ∀ (s : State) (w : Word) (r : Row), s.seq = .idle → r ∈ opcodeMap →
    opcodeOf w = opcodeOf r.pattern → w &&& r.mask ≠ r.pattern →
    step (offer (.write 0x0000 4 w) s) = .next (failed s .illegalCommand)

/-- R86. -/
def Obligations.UnknownOpcodeMakesTheCommandFail : Prop :=
  ∀ (s : State) (w : Word), s.seq = .idle →
    w.extractLsb' 24 8 ∉ [0x21#8, 0x22#8, 0x23#8, 0x31#8, 0x32#8, 0x33#8, 0x41#8, 0x51#8] →
    step (offer (.write 0x0000 4 w) s) = .next (failed s .illegalCommand)

/-- R66: while a command runs the host's turn changes nothing and its next access stays to come. -/
def Obligations.HostIsHeldWhileACommandRuns : Prop :=
  ∀ s : State, s.seq ≠ .idle → step (give .host s) = .next s

/-- R64, and R62 and R63 with log entry 8: whatever is read, and whether or not the bus refuses it, only the bus's
answer differs afterwards. That a refused read is a step after which the run goes on is the model's choice. -/
def Obligations.ReadHasNoSideEffect : Prop :=
  ∀ (s : State) (off size : Nat), s.seq = .idle →
    ∃ r, step (offer (.read off size) s) = .next { s with reply := r }

/-- R21: an aligned 32-bit read at the offset of every readable row of the table is answered with the value of that
row's register. -/
def Obligations.ReadReturnsTheRegister : Prop :=
  ∀ (s : State) (off : Nat) (r : Reg), s.seq = .idle → MapRow s.cfg off r → r ≠ .cmd →
    ∃ v, readReg s r = some v ∧ step (offer (.read off 4) s) = .next { s with reply := .data v }

/-- R65, R38, R39: what a write to a storage register of the host stores, and that it does nothing else. -/
def Obligations.WriteStoresAndDoesNothingElse : Prop :=
  ∀ (s : State) (v : Word), s.seq = .idle → s.cfg.Legal →
    step (offer (.write 0x0004 4 v) s) = .next { s with arg0 := v, reply := .done } ∧
    step (offer (.write 0x0008 4 v) s) = .next { s with arg1 := v, reply := .done } ∧
    (∀ k, k < s.cfg.colCap →
      ∃ b : Buffer 24, step (offer (.write (0x1000 + 4 * k) 4 v) s) = .next { s with col := b, reply := .done } ∧
        b.get k = some (v.extractLsb' 0 24) ∧ ∀ k', k' ≠ k → b.get k' = s.col.get k') ∧
    (∀ j, j < s.cfg.bufCap →
      ∃ b : Buffer 16, step (offer (.write (0x10000 + 4 * j) 4 v) s) = .next { s with buf := b, reply := .done } ∧
        b.get j = some (v.extractLsb' 0 16) ∧ ∀ j', j' ≠ j → b.get j' = s.buf.get j')

/-- R63 with log entry 8: an aligned 32-bit access to an offset that has no row in the table of R21, a write to an `RO`
register and a read of `CMD` get an error response, and nothing in the block changes; an index from the instance's
parameter up to the end of its window has no row. That the access is a step after which the run goes on, and the
names of the reasons, are the model's choice. -/
def Obligations.RefusedAccessChangesNothing : Prop :=
  ∀ (s : State) (v : Word), s.seq = .idle →
    (∀ off, off % 4 = 0 → (∀ r, ¬ MapRow s.cfg off r) → Unmapped s off v) ∧
    (∀ c, s.cfg.nChannels ≤ c → c < 16 → ∀ o ∈ [0x0100, 0x0104, 0x0108, 0x010C], Unmapped s (o + 0x10 * c) v) ∧
    (∀ p, s.cfg.nPins ≤ p → p < 64 → Unmapped s (0x0200 + 4 * p) v) ∧
    (∀ i, s.cfg.nSpi ≤ i → i < 16 → ∀ o ∈ [0x0300, 0x0304, 0x0308], Unmapped s (o + 0x10 * i) v) ∧
    (∀ k, s.cfg.colCap ≤ k → 0x1000 + 4 * k < 0x10000 → Unmapped s (0x1000 + 4 * k) v) ∧
    (∀ j, s.cfg.bufCap ≤ j → Unmapped s (0x10000 + 4 * j) v) ∧
    (∀ off r, MapRow s.cfg off r → r ≠ .cmd → r ≠ .arg0 → r ≠ .arg1 → (∀ k, r ≠ .col k) → (∀ j, r ≠ .buf j) →
      step (offer (.write off 4 v) s) = .next { s with reply := .error .readOnly }) ∧
    step (offer (.read 0x0000 4) s) = .next { s with reply := .error .writeOnly }

/-- R61, R62 with log entry 8: an access of another size and a misaligned access get an error response (the
model's choice is that the run goes on), and nothing in the block changes. -/
def Obligations.NarrowOrMisalignedAccessChangesNothing : Prop :=
  ∀ (s : State) (v : Word) (off size : Nat), s.seq = .idle → (size ≠ 4 ∨ off % 4 ≠ 0) →
    ∃ e, step (offer (.read off size) s) = .next { s with reply := .error e } ∧
      step (offer (.write off size v) s) = .next { s with reply := .error e }

/-- R204: a command that fails changes nothing but the record. `t.seq = .idle` leaves out the SPI.SEND that
has only begun, whose `RESULT` is still that of an earlier command. -/
def Obligations.FailingCommandChangesOnlyTheRecord : Prop :=
  ∀ (i : Instr) (s t : State), s.seq = .idle → exec i s = .next t → t.seq = .idle → t.result ≠ .ok →
    t = failed s t.result

/-- R203, for every command that completes at once, for the end of a send and for a word that is no command. -/
def Obligations.CompletionRecordsTheCode : Prop :=
  (∀ (i : Instr) (s t : State), s.seq = .idle → exec i s = .next t → t.seq = .idle →
    ∃ k : ResultCode, t.result = k ∧
      (k ≠ .ok → (t.firstErr = if s.statusFault = false then k else s.firstErr) ∧ t.statusFault = true) ∧
      (k = .ok → t.firstErr = s.firstErr ∧ t.statusFault = s.statusFault)) ∧
  (∀ (s t : State), s.seq ≠ .idle → step (give .sequencer s) = .next t → t.seq = .idle →
    t.result = .ok ∧ t.firstErr = s.firstErr ∧ t.statusFault = s.statusFault) ∧
  ∀ (s : State) (w : Word), s.seq = .idle → (∀ i, decode w ≠ .command i) →
    step (offer (.write 0x0000 4 w) s) = .next (failed s .illegalCommand)

/-- R26, R209: whatever the step, unless it is a reset, a set `FAULT` stays and `FIRSTERR` with it. -/
def Obligations.FaultBitIsSticky : Prop :=
  ∀ (s t : State) (trn : Turn), trn ≠ .reset → step (give trn s) = .next t → s.statusFault = true →
    t.statusFault = true ∧ t.firstErr = s.firstErr

/-- R202: the non-zero codes each command can complete with. -/
def Obligations.CommandCompletesOnlyWithItsCodes : Prop :=
  ∀ (i : Instr) (s t : State), s.seq = .idle → exec i s = .next t → t.seq = .idle →
    t.result = .ok ∨ t.result ∈ possibleCodes i

/-- The `written by` column of R21 and R22: no command writes an operand register or `COL`, and each other
register is written only by the commands named for it. And R42: no step of any agent, a reset included, changes a
parameter of the instance. -/
def Obligations.RegisterIsWrittenOnlyByItsCommands : Prop :=
  (∀ (i : Instr) (s t : State), exec i s = .next t →
    t.arg0 = s.arg0 ∧ t.arg1 = s.arg1 ∧ t.col = s.col ∧
    (t.ret0 ≠ s.ret0 → i = .spiSolve) ∧
    (t.encLen ≠ s.encLen → ∃ c, i = .ledEncode c) ∧
    (t.buf ≠ s.buf → ∃ c, i = .ledEncode c) ∧
    (t.pins ≠ s.pins → ∃ p m, i = .gpioSet p m) ∧
    ((∃ c, (t.chan c).en ≠ (s.chan c).en ∨ (t.chan c).top ≠ (s.chan c).top) → ∃ p v, i = .pwmStart p v) ∧
    (t.pwm ≠ s.pwm → (∃ p v, i = .pwmStart p v) ∨ (∃ p v, i = .pwmSet p v) ∨ ∃ p, i = .pwmSetp p) ∧
    ((∃ j, (t.port j).cpsdvsr ≠ (s.port j).cpsdvsr ∨ (t.port j).scr ≠ (s.port j).scr) →
      ∃ x q d, i = .spiApply x q d) ∧
    ((∃ j, (t.port j).dss ≠ (s.port j).dss ∨ (t.port j).mstr ≠ (s.port j).mstr ∨ (t.port j).sse ≠ (s.port j).sse) →
      ∃ d x n, i = .spiSend d x n) ∧
    (∀ j, (t.port j).fifo = (s.port j).fifo ∧ (t.port j).sh = (s.port j).sh ∧ (t.port j).sdo = (s.port j).sdo ∧
      (t.port j).txlog = (s.port j).txlog) ∧
    t.host = s.host ∧ t.turns = s.turns ∧ t.epoch = s.epoch ∧ t.cfg = s.cfg) ∧
  ∀ s t : State, step s = .next t → t.cfg = s.cfg

/-- R21, R22, R26, R33, R34, R94, R201: what the host reads from each register, as a number: the fields stand where
the map puts them, and every other bit is 0; and the numbers of the result codes. `RET0` is read whole: its fields
are bits of the 32-bit register. -/
def Obligations.RegisterWordsHoldTheirFieldsInPlace : Prop :=
  (ResultCode.ok.code.toNat = 0x00 ∧ ResultCode.illegalCommand.code.toNat = 0x01 ∧
    ResultCode.badPin.code.toNat = 0x02 ∧ ResultCode.badSelector.code.toNat = 0x03 ∧
    ResultCode.badFrameSize.code.toNat = 0x04 ∧ ResultCode.badDivider.code.toNat = 0x05 ∧
    ResultCode.unreachableBaudRate.code.toNat = 0x10 ∧ ResultCode.bufferSize.code.toNat = 0x11 ∧
    ResultCode.divisionByZero.code.toNat = 0x12) ∧
  ∀ s : State,
    readReg s .arg0 = some s.arg0 ∧ readReg s .arg1 = some s.arg1 ∧
    (∃ v, readReg s .ret0 = some v ∧ v = s.ret0 ∧
      ∀ q d : Nat, q ≤ 255 → d ≤ 255 → s.ret0.toNat = q * 256 + d →
        (v.extractLsb' 8 8).toNat = q ∧ (v.extractLsb' 0 8).toNat = d ∧ (v.extractLsb' 16 16).toNat = 0) ∧
    (∃ v, readReg s .result = some v ∧ v.toNat = s.result.code.toNat) ∧
    (∃ v, readReg s .status = some v ∧ v.toNat = s.statusFault.toNat + 256 * s.firstErr.code.toNat) ∧
    (∃ v, readReg s .encLen = some v ∧ v.toNat = s.encLen.toNat) ∧
    (∀ c, ∃ e t a b, readReg s (.pwmCsr c) = some e ∧ e.toNat = (s.chan c).en.toNat ∧
      readReg s (.pwmTop c) = some t ∧ t.toNat = (s.chan c).top.value.toNat ∧
      readReg s (.pwmCmpA c) = some a ∧ a.toNat = (s.chan c).cmpA.value.toNat ∧
      readReg s (.pwmCmpB c) = some b ∧ b.toNat = (s.chan c).cmpB.value.toNat) ∧
    (∀ p, ∃ v, readReg s (.pinCtrl p) = some v ∧
      v.toNat = (s.pinCtrl p).funcsel.code.toNat + 16 * (s.pinCtrl p).oeover.code.toNat +
        256 * (s.pinCtrl p).outover.code.toNat) ∧
    (∀ i, ∃ v, readReg s (.spiCr i) = some v ∧
      v.toNat = (s.port i).dss.toNat + 256 * (s.port i).scr.toNat + 65536 * (s.port i).mstr.toNat +
        131072 * (s.port i).sse.toNat) ∧
    (∀ i, ∃ v, readReg s (.spiCpsr i) = some v ∧ v.toNat = (s.port i).cpsdvsr.toNat) ∧
    (∀ k x, s.col.get k.val = some x → ∃ v, readReg s (.col k) = some v ∧ v.toNat = x.toNat) ∧
    ∀ j x, s.buf.get j.val = some x → ∃ v, readReg s (.buf j) = some v ∧ v.toNat = x.toNat

/-! ### PWM -/

/-- R120 and R9: on every instance that meets the constraints the four conditions on `BINDING` hold; and the instance
with the defaults of R7 and R8, written out, meets them, with `BINDING` the table of R121. -/
def Obligations.BindingIsInjectiveAndPairsPins : Prop :=
  (∀ c : Config, c.Legal →
    (∀ p : Pin, p.val < c.nPins → (c.bind p).1.val < c.nChannels) ∧
    (∀ p : Pin, p.val < c.nPins → ((c.bind p).2 = .a ↔ p.val % 2 = 0)) ∧
    (∀ p q : Pin, p.val < c.nPins → q.val < c.nPins → p.val / 2 = q.val / 2 → (c.bind p).1 = (c.bind q).1) ∧
    ∀ p q : Pin, p.val < c.nPins → q.val < c.nPins → c.bind p = c.bind q → p = q) ∧
  Config.default.Legal ∧ State.reset.cfg = Config.default ∧
  Config.default.nPins = 31 ∧ Config.default.pwmTop = 0x8000#16 ∧ Config.default.logic0 = 0x00E0#16 ∧
  Config.default.logic1 = 0x00FC#16 ∧ Config.default.bitsPerColor = 24 ∧ Config.default.resetSymbols = 2 ∧
  Config.default.ledTargetBaud = 8500000 ∧ Config.default.nChannels = 16 ∧ Config.default.nSpi = 2 ∧
  Config.default.fifoDepth = 8 ∧ Config.default.colCap = 64 ∧ Config.default.bufCap = 1538 ∧
  Config.default.resetSymbol = 0x00E0#16 ∧ Config.default.symbolBits = 8 ∧
  Config.default.floatFormat = ⟨8, 23, .nearestEven⟩ ∧
  ∀ p : Pin, (Config.default.bind p).1.val = p.val / 2 ∧ ((Config.default.bind p).2 = .a ↔ p.val % 2 = 0)

/-- R124: PWM.START on every pin number. -/
def Obligations.PwmStartConfiguresAndEnables : Prop :=
  ∀ (pin : BitVec 5) (init : Half) (s : State),
    (s.cfg.nPins ≤ pin.toNat → exec (.pwmStart pin init) s = .next (failed s .badPin)) ∧
    ∀ p : Pin, p.val = pin.toNat → p.val < s.cfg.nPins → ∃ t, exec (.pwmStart pin init) s = .next t ∧
      t = succeeded { s with pwm := t.pwm } ∧
      OnlyCompare s t p init ∧
      (t.chan (s.cfg.bind p).1).en = true ∧
      (t.chan (s.cfg.bind p).1).top = ⟨s.cfg.pwmTop, true⟩ ∧
      ∀ c, c ≠ (s.cfg.bind p).1 →
        (t.chan c).en = (s.chan c).en ∧ (t.chan c).top = (s.chan c).top

/-- R125: PWM.SET on every pin number; no value is clamped or rejected. -/
def Obligations.PwmSetStoresTheValueAsGiven : Prop :=
  ∀ (pin : BitVec 5) (raw : Half) (s : State),
    (s.cfg.nPins ≤ pin.toNat → exec (.pwmSet pin raw) s = .next (failed s .badPin)) ∧
    ∀ p : Pin, p.val = pin.toNat → p.val < s.cfg.nPins → ∃ t, exec (.pwmSet pin raw) s = .next t ∧
      t = succeeded { s with pwm := t.pwm } ∧ OnlyCompare s t p raw ∧ SameEnableAndTop s t

/-- R126, R127, R93: PWM.SETP on every pin number and every bit pattern of `ARG0`. On an instance with the default
format and `PWM_TOP` the percentage is scaled and truncated exactly, from the fields of its bit pattern, as in the
examples of R93; on every instance it is the product in `FLOAT_FORMAT` that is truncated (R126 (c)), of the value
that sign, exponent and fraction give from the top of the pattern down, the exponent biased so that the bias stands
for 1. Where the result is no `u16` the command still succeeds and some value is written, which is drawn and not
said (U3; log entry 7). The reading of `ARG0` as an IEEE 754 value is general knowledge (G5; log entry 16). -/
def Obligations.PwmSetpWritesTheTruncatedPercentage : Prop :=
  (∀ (pin : BitVec 5) (s : State),
    (s.cfg.nPins ≤ pin.toNat → exec (.pwmSetp pin) s = .next (failed s .badPin)) ∧
    ∀ p : Pin, p.val = pin.toNat → p.val < s.cfg.nPins → ∀ c : Option Half,
      ((s.cfg.floatFormat = .binary32 ∧ s.cfg.pwmTop = 0x8000#16 ∧ c = percentCompare s.arg0) ∨
       (s.cfg.Legal ∧ c = compareOf
        (((Flt.ofBits s.cfg.floatFormat s.arg0).mul s.cfg.floatFormat
          (Flt.ofNat s.cfg.floatFormat s.cfg.pwmTop.toNat)).trunc s.cfg.floatFormat))) →
      (∀ raw, c = some raw → ∃ t, exec (.pwmSetp pin) s = .next t ∧
        t = succeeded { s with pwm := t.pwm } ∧ OnlyCompare s t p raw ∧ SameEnableAndTop s t) ∧
      (c = none → ∃ t v, exec (.pwmSetp pin) s = .next t ∧
        t = succeeded { s with pwm := t.pwm, draws := s.draws + 1 } ∧
        OnlyCompare s t p v ∧ SameEnableAndTop s t)) ∧
  (percentCompare 0x3F000000#32 = some 0x4000#16 ∧ percentCompare 0x3F800000#32 = some 0x8000#16 ∧
    percentCompare 0x00000000#32 = some 0x0000#16 ∧ percentCompare 0x3E800000#32 = some 0x2000#16 ∧
    percentCompare 0x3FC00000#32 = some 0xC000#16) ∧
  ∀ c : Config, c.Legal →
    (∀ (neg : Bool) (e m : Nat), e < 2 ^ c.floatFormat.expWidth → m < 2 ^ c.floatFormat.fracWidth →
      Flt.ofBits c.floatFormat
        (BitVec.ofNat 32 ((neg.toNat * 2 ^ c.floatFormat.expWidth + e) * 2 ^ c.floatFormat.fracWidth + m)) =
          fieldsValue c.floatFormat neg e m) ∧
    fieldsValue c.floatFormat false (2 ^ (c.floatFormat.expWidth - 1) - 1) 0 = Flt.ofNat c.floatFormat 1

/-- R29, R123: a set `EN` stays set whatever the step, unless it is a reset, and a step that sets it is the
host's write of a PWM.START for a pin bound to the channel. -/
def Obligations.EnableIsSetByStartAndClearedByResetOnly : Prop :=
  ∀ (s t : State) (trn : Turn) (c : Chan), trn ≠ .reset → step (give trn s) = .next t →
    ((s.chan c).en = true → (t.chan c).en = true) ∧
    ((s.chan c).en = false → (t.chan c).en = true →
      trn = .host ∧ ∃ w rest pin init, ∃ p : Pin, p.val = pin.toNat ∧ p.val < s.cfg.nPins ∧
        s.host = .write 0x0000 4 w :: rest ∧ decode w = .command (.pwmStart pin init) ∧
        (s.cfg.bind p).1 = c)

/-- R129: what a tick does to a counter, that it does nothing else, and that no command writes one. -/
def Obligations.CounterCountsToTopAndWraps : Prop :=
  (∀ (s : State) (c : Chan), ∃ t, step (give (.counter c) s) = .next t ∧
    t = { s with pwm := t.pwm } ∧ (∀ d, d ≠ c → t.chan d = s.chan d) ∧
    t.chan c = { s.chan c with ctr := (t.chan c).ctr } ∧
    ((s.chan c).en = false → (t.chan c).ctr = (s.chan c).ctr) ∧
    ((s.chan c).en = true → (s.chan c).ctr.toNat ≥ (s.chan c).top.value.toNat → (t.chan c).ctr = 0#16) ∧
    ((s.chan c).en = true → (s.chan c).ctr.toNat < (s.chan c).top.value.toNat →
      (t.chan c).ctr.toNat = (s.chan c).ctr.toNat + 1)) ∧
  ∀ (i : Instr) (s t : State) (c : Chan), exec i s = .next t → (t.chan c).ctr = (s.chan c).ctr

/-- R130: over one full period of an enabled channel a slice is high for `min(CMP, TOP + 1)` ticks, which is the
duty's share, and the channel is then back where it was; a disabled channel's output is low and its duty 0. -/
def Obligations.DutyIsTheShareOfHighTicks : Prop :=
  ∀ (ch : Channel) (x : Slice),
    (ch.en = true → ch.ctr.toNat ≤ ch.top.value.toNat →
      (List.range (ch.top.value.toNat + 1)).countP (fun k => (Channel.tick^[k] ch).out x) =
          min (ch.cmp x).value.toNat (ch.top.value.toNat + 1) ∧
      Channel.tick^[ch.top.value.toNat + 1] ch = ch ∧
      ch.duty x = (min (ch.cmp x).value.toNat (ch.top.value.toNat + 1) : Rat) / ((ch.top.value.toNat : Rat) + 1)) ∧
    (ch.en = false → ch.out x = false ∧ ch.duty x = 0)

/-- R131: a compare value above `TOP` keeps the output of a running channel high at every tick, at duty 1. -/
def Obligations.CompareAboveTopSaturates : Prop :=
  ∀ (ch : Channel) (x : Slice) (k : Nat), ch.en = true → ch.ctr.toNat ≤ ch.top.value.toNat →
    ch.top.value.toNat < (ch.cmp x).value.toNat → (Channel.tick^[k] ch).out x = true ∧ ch.duty x = 1

/-- R29, R30, R32: the PWM invariant is kept by every step of an instance that meets R9. -/
def Obligations.StepKeepsPwmInv : Prop :=
  ∀ s t : State, s.cfg.Legal → s.PwmInv → step s = .next t → t.PwmInv

/-! ### SPI -/

/-- R143, R146, R160: SPI.SOLVE on every pair of operands. -/
def Obligations.SolveFindsTheLeastPrescaleAndGreatestPostdiv : Prop :=
  ∀ s : State,
    (65536 * s.arg1.toNat ≤ s.arg0.toNat → exec .spiSolve s = .next (failed s .unreachableBaudRate)) ∧
    (s.arg0.toNat < 65536 * s.arg1.toNat → ∃ q d,
      exec .spiSolve s = .next (succeeded { s with ret0 := BitVec.ofNat 32 (q * 256 + d) }) ∧
      q % 2 = 0 ∧ 2 ≤ q ∧ q ≤ 254 ∧ d ≤ 255 ∧
      s.arg0.toNat < (q + 2) * 256 * s.arg1.toNat ∧
      (∀ q', q' % 2 = 0 → 2 ≤ q' → q' < q → (q' + 2) * 256 * s.arg1.toNat ≤ s.arg0.toNat) ∧
      (1 ≤ d → s.arg1.toNat < s.arg0.toNat / (q * d)) ∧
      (d < 255 → s.arg0.toNat / (q * (d + 1)) ≤ s.arg1.toNat) ∧
      1 ≤ s.arg1.toNat)

/-- R148, R149: SPI.APPLY on every selector and divider; the selector is checked first (R205). -/
def Obligations.ApplyWritesTheDivider : Prop :=
  ∀ (sel : BitVec 4) (prescale postdiv : Byte) (s : State),
    (s.cfg.nSpi ≤ sel.toNat → exec (.spiApply sel prescale postdiv) s = .next (failed s .badSelector)) ∧
    ∀ i : SpiIx, i.val = sel.toNat → i.val < s.cfg.nSpi →
      ((prescale.toNat < 2 ∨ prescale.toNat % 2 = 1) →
        exec (.spiApply sel prescale postdiv) s = .next (failed s .badDivider)) ∧
      (2 ≤ prescale.toNat → prescale.toNat % 2 = 0 → ∃ t, exec (.spiApply sel prescale postdiv) s = .next t ∧
        t = succeeded { s with spi := t.spi } ∧
        t.port i = { s.port i with cpsdvsr := prescale, scr := postdiv } ∧
        ∀ j, j ≠ i → t.port j = s.port j)

/-- R151, R152, R205: SPI.SEND's own step on every frame size, selector and count: the failures in their order,
and else the three control fields and the first state of the loop, or completion when there is no word. -/
def Obligations.SendConfiguresThePortAndEntersTheLoop : Prop :=
  ∀ (dss sel : BitVec 4) (count : Half) (s : State),
    (dss.toNat < 3 → exec (.spiSend dss sel count) s = .next (failed s .badFrameSize)) ∧
    (3 ≤ dss.toNat → s.cfg.nSpi ≤ sel.toNat → exec (.spiSend dss sel count) s = .next (failed s .badSelector)) ∧
    ∀ i : SpiIx, i.val = sel.toNat → i.val < s.cfg.nSpi → 3 ≤ dss.toNat →
      (s.cfg.bufCap < count.toNat → exec (.spiSend dss sel count) s = .next (failed s .bufferSize)) ∧
      (count.toNat ≤ s.cfg.bufCap → ∃ t, exec (.spiSend dss sel count) s = .next t ∧
        (count.toNat = 0 → t = succeeded { s with spi := t.spi }) ∧
        (0 < count.toNat →
          t = { s with spi := t.spi, seq := .sending i count.toNat 0 .push }) ∧
        t.port i = { s.port i with dss := dss, mstr := true, sse := true } ∧
        ∀ j, j ≠ i → t.port j = s.port j)

/-- R152 with R40, R151 (c) and U2: the sequencer's steps in a send, and what each leaves unchanged. That a word
nothing has written is a fault is log entry 6; that the turn passes while the FIFO is full is log entry 4. -/
def Obligations.SequencerPushesThenWaits : Prop :=
  ∀ (s : State) (i : SpiIx) (n idx : Nat),
    (s.seq = .sending i n idx .push → idx < n → (s.port i).fifo.length < s.cfg.fifoDepth →
      (∀ w, s.buf.get idx = some w → ∃ t, step (give .sequencer s) = .next t ∧
        t = { s with spi := t.spi, seq := .sending i n (idx + 1) .wait } ∧
        t.port i = { s.port i with fifo := (s.port i).fifo ++ [w] } ∧ ∀ j, j ≠ i → t.port j = s.port j) ∧
      (s.buf.get idx = none → step (give .sequencer s) = .fault (.unwrittenWord idx))) ∧
    (s.seq = .sending i n idx .wait →
      (s.cfg.fifoDepth ≤ (s.port i).fifo.length → step (give .sequencer s) = .next s) ∧
      ((s.port i).fifo.length < s.cfg.fifoDepth → idx < n →
        step (give .sequencer s) = .next { s with seq := .sending i n idx .push }) ∧
      ((s.port i).fifo.length < s.cfg.fifoDepth → n ≤ idx →
        step (give .sequencer s) = .next (succeeded { s with seq := .idle })))

/-- R155, R156: the steps of a shifter, most significant bit first, and that it touches nothing but its own
FIFO, shifter, line and log. The level of the line after a frame with words still queued is the model's choice
(log entry 11) and is not said here. -/
def Obligations.ShifterLoadsShiftsAndLogs : Prop :=
  ∀ (s : State) (i : SpiIx), ∃ t, step (give (.shifter i) s) = .next t ∧
    t = { s with spi := t.spi } ∧ (∀ j, j ≠ i → t.port j = s.port j) ∧
    t.port i = { s.port i with
      fifo := (t.port i).fifo, sh := (t.port i).sh, sdo := (t.port i).sdo, txlog := (t.port i).txlog } ∧
    (((s.port i).sse = false ∨ (s.port i).mstr = false ∨ (s.port i).cpsdvsr.toNat < 2) → t.port i = s.port i) ∧
    ((s.port i).sse = true → (s.port i).mstr = true → 2 ≤ (s.port i).cpsdvsr.toNat →
      (∀ w rest, (s.port i).sh = .empty → (s.port i).fifo = w :: rest →
        t.port i = { s.port i with fifo := rest, sh := .holding w (s.port i).dss.toNat 0 }) ∧
      ((s.port i).sh = .empty → (s.port i).fifo = [] → t.port i = s.port i) ∧
      (∀ w n sent, (s.port i).sh = .holding w n sent → sent < n →
        t.port i = { s.port i with sdo := w.getLsbD (n - 1 - sent), sh := .holding w n (sent + 1) }) ∧
      (∀ w n, (s.port i).sh = .holding w n n →
        (t.port i).sh = .empty ∧ (t.port i).fifo = (s.port i).fifo ∧
        (t.port i).txlog = (s.port i).txlog ++ [⟨n, BitVec.ofNat 16 (w.toNat % 2 ^ n)⟩] ∧
        ((s.port i).fifo = [] → (t.port i).sdo = false)))

/-- R36, R154, R157: the two status bits as the host reads them. -/
def Obligations.StatusBitsFollowFifoAndShifter : Prop :=
  ∀ (s : State) (i : SpiIx), ∃ v, readReg s (.spiSr i) = some v ∧
    (v.getLsbD 0 = true ↔ (s.port i).fifo.length < s.cfg.fifoDepth) ∧
    (v.getLsbD 1 = true ↔ (0 < (s.port i).fifo.length ∨ (s.port i).sh ≠ .empty)) ∧
    ∀ b, 2 ≤ b → v.getLsbD b = false

/-- R152 (its invariant), R149, R156, R46: the SPI invariant is kept by every step, and from it no push ever
meets a full FIFO. -/
def Obligations.StepKeepsSpiInv : Prop :=
  ∀ s : State, s.cfg.Legal → s.SpiInv → (∀ t, step s = .next t → t.SpiInv) ∧ step s ≠ .fault .fifoPushFull

/-- R161 and R239 step by step: no frame is lost, duplicated, reordered or changed by the sequencer, by a
shifter, by a counter or by a turn of a host that is held. -/
def Obligations.StepConservesFrames : Prop :=
  ∀ (s t : State) (trn : Turn) (i : SpiIx), trn ≠ .reset → (trn = .host → s.seq ≠ .idle) →
    step (give trn s) = .next t → allFrames t i = allFrames s i

/-- R161: a send on a drained instance, whatever the order in which the agents then move, has sent exactly its
words in order once the line is idle again. The host only reads meanwhile. -/
def Obligations.SendDeliversItsWordsInOrder : Prop :=
  ∀ (dss sel : BitVec 4) (count : Half) (s t₀ t : State) (ts : List Turn) (i : SpiIx),
    i.val = sel.toNat → i.val < s.cfg.nSpi →
    s.seq = .idle → (∀ a ∈ s.host, a.isRead = true) → 3 ≤ dss.toNat → count.toNat ≤ s.cfg.bufCap →
    (s.port i).fifo = [] → (s.port i).sh = .empty →
    exec (.spiSend dss sel count) s = .next t₀ → .reset ∉ ts → runTurns ts t₀ = .next t →
    t.seq = .idle → (t.port i).bsy = false →
    (t.port i).txlog = (s.port i).txlog ++
      (List.range count.toNat).map fun k => wordFrame dss ((s.buf.get k).getD 0#16)

/-- R158: a send on an instance whose clock was never started, with more words than the FIFO has room for,
never completes, however the agents move; `RESULT` and `STATUS` are not written and the host issues nothing. -/
def Obligations.SendWithoutClockHangs : Prop :=
  ∀ (dss sel : BitVec 4) (count : Half) (s t₀ t : State) (ts : List Turn) (i : SpiIx),
    i.val = sel.toNat → i.val < s.cfg.nSpi →
    3 ≤ dss.toNat → count.toNat ≤ s.cfg.bufCap → (s.port i).cpsdvsr = 0#8 →
    (s.port i).fifo.length < s.cfg.fifoDepth →
    s.cfg.fifoDepth ≤ (s.port i).fifo.length + count.toNat →
    exec (.spiSend dss sel count) s = .next t₀ → .reset ∉ ts → runTurns ts t₀ = .next t →
    t.seq ≠ .idle ∧ t.result = s.result ∧ t.statusFault = s.statusFault ∧ t.firstErr = s.firstErr ∧ t.host = s.host

/-- R158: with fewer words than the FIFO has room for, such a send returns under every schedule that gives the
sequencer two turns a word, whatever turns the shifters, the counters and the held host have in between: at some
point of the schedule the command has completed, its words are queued behind those before, nothing was sent, and
the host has issued nothing. And they stay queued: while the clock of the instance is stopped no turn but the
host's or a reset changes its FIFO, its shifter or its log. -/
def Obligations.SendWithoutClockThatFitsReturns : Prop :=
  (∀ (dss sel : BitVec 4) (count : Half) (s : State) (ts : List Turn) (i : SpiIx) (words : List Half),
    i.val = sel.toNat → i.val < s.cfg.nSpi →
    s.seq = .idle → 3 ≤ dss.toNat → count.toNat ≤ s.cfg.bufCap → (s.port i).cpsdvsr = 0#8 →
    words.length = count.toNat → (∀ k (hk : k < words.length), s.buf.get k = some words[k]) →
    (s.port i).fifo.length + count.toNat < s.cfg.fifoDepth →
    .reset ∉ ts → 2 * count.toNat ≤ ts.count .sequencer →
    ∃ t₀ ts₁ t, exec (.spiSend dss sel count) s = .next t₀ ∧ ts₁ <+: ts ∧ runTurns ts₁ t₀ = .next t ∧
      t.seq = .idle ∧ t.result = .ok ∧ t.host = s.host ∧
      (t.port i).fifo = (s.port i).fifo ++ words ∧ (t.port i).sh = (s.port i).sh ∧
      (t.port i).txlog = (s.port i).txlog) ∧
  ∀ (s t : State) (ts : List Turn) (i : SpiIx),
    (s.port i).cpsdvsr = 0#8 → s.seq = .idle → .reset ∉ ts → .host ∉ ts → runTurns ts s = .next t →
    t.port i = s.port i

/-- R158: with a prescale of at least 2 every send completes under a schedule that gives the sequencer and the
shifter their turns again and again, whatever the host has still to issue. A round is any list of turns with at
least one of each; the bound on the number of rounds is the model's reading of weak fairness (log entry 3). -/
def Obligations.SendCompletesUnderFairTurns : Prop :=
  ∀ (s : State) (i : SpiIx) (n idx : Nat) (ph : Phase) (rounds : List (List Turn)),
    s.cfg.Legal → s.SpiInv → s.seq = .sending i n idx ph → 2 ≤ (s.port i).cpsdvsr.toNat →
    (∀ j, idx ≤ j → j < n → s.buf.get j ≠ none) →
    (∀ r ∈ rounds, .sequencer ∈ r ∧ .shifter i ∈ r ∧ .reset ∉ r) → 20 * (n - idx + 10) ≤ rounds.length →
    ∃ ts t, ts <+: rounds.flatten ∧ runTurns ts s = .next t ∧ t.seq = .idle ∧ t.result = .ok ∧ t.host = s.host

/-- R210: a hang lasts through every step but a reset, which ends it; `RESULT`, `STATUS`, the host's accesses and
the bus's answer do not change in it. -/
def Obligations.OnlyResetEndsAHang : Prop :=
  ∀ s : State, s.Hung →
    (∀ trn, trn ≠ .reset → ∃ t, step (give trn s) = .next t ∧ t.Hung ∧ t.result = s.result ∧
      t.statusFault = s.statusFault ∧ t.firstErr = s.firstErr ∧ t.host = s.host ∧ t.reply = s.reply) ∧
    ∃ t, step (give .reset s) = .next t ∧ t.seq = .idle

/-! ### GPIO -/

/-- R171 to R174: GPIO.SET on every pin number and mode; the pin is checked before the mode (R205). -/
def Obligations.GpioSetWritesTheWholePinRegister : Prop :=
  ∀ (pin : BitVec 5) (mode : BitVec 2) (s : State),
    (s.cfg.nPins ≤ pin.toNat → exec (.gpioSet pin mode) s = .next (failed s .badPin)) ∧
    ∀ p : Pin, p.val = pin.toNat → p.val < s.cfg.nPins →
      (mode = 3#2 → exec (.gpioSet pin mode) s = .next (failed s .illegalCommand)) ∧
      (mode ≠ 3#2 → ∃ t, exec (.gpioSet pin mode) s = .next t ∧
        t = succeeded { s with pins := t.pins } ∧ (∀ q, q.val ≠ pin.toNat → t.pinCtrl q = s.pinCtrl q) ∧
        (mode = 0#2 → (t.pinCtrl p).word = 0x231#32 ∧ t.pinOut p = some .low) ∧
        (mode = 1#2 → (t.pinCtrl p).word = 0x331#32 ∧ t.pinOut p = some .high) ∧
        (mode = 2#2 → (t.pinCtrl p).word = 0x002#32 ∧
          t.pinOut p =
            some (.pwm ((t.chan (s.cfg.bind p).1).out (s.cfg.bind p).2))))

/-- R175: the same GPIO.SET twice leaves every pin control register as once. -/
def Obligations.GpioSetIsIdempotent : Prop :=
  ∀ (pin : BitVec 5) (mode : BitVec 2) (s t : State), exec (.gpioSet pin mode) s = .next t →
    ∃ t', exec (.gpioSet pin mode) t = .next t' ∧ t'.pins = t.pins

/-- R33, R174: every step keeps the pin control registers at their four values, and then every pin has an output,
not driven exactly when its register is 0. -/
def Obligations.StepKeepsPinsLegal : Prop :=
  ∀ s : State, s.PinsLegal → (∀ t, step s = .next t → t.PinsLegal) ∧
    ∀ p, ∃ o, s.pinOut p = some o ∧ (o = .z ↔ (s.pinCtrl p).word = 0#32)

/-! ### LED encoder -/

/-- R183 to R186, R190 with the positions of R182: what LED.ENCODE writes, where, and what it leaves. -/
def Obligations.EncodeWritesTheBitstream : Prop :=
  ∀ (count : Half) (s : State) (colour : Nat → Colour),
    count.toNat ≤ s.cfg.colCap → 2 + 24 * count.toNat ≤ s.cfg.bufCap → s.arg0.toNat = 2 + 24 * count.toNat →
    (∀ led, led < count.toNat → s.col.get led = some (colour led)) →
    ∃ t, exec (.ledEncode count) s = .next t ∧
      t = succeeded { s with buf := t.buf, encLen := BitVec.ofNat 16 (2 + 24 * count.toNat) } ∧
      t.buf.get 0 = some s.cfg.resetSymbol ∧ t.buf.get 1 = some s.cfg.resetSymbol ∧
      (∀ led b, led < count.toNat → b < 24 →
        t.buf.get (2 + 24 * led + b) = some (if colourBit (colour led) b then s.cfg.logic1 else s.cfg.logic0)) ∧
      ∀ j, 2 + 24 * count.toNat ≤ j → t.buf.get j = s.buf.get j

/-- R187: a count or a declared length that does not fit is rejected, in either direction. -/
def Obligations.EncodeRejectsAMismatchedLength : Prop :=
  ∀ (count : Half) (s : State),
    (s.cfg.colCap < count.toNat ∨ s.arg0.toNat ≠ 2 + 24 * count.toNat ∨ s.cfg.bufCap < 2 + 24 * count.toNat) →
    exec (.ledEncode count) s = .next (failed s .bufferSize)

/-- R193: the first colour of the frame that was never written stops the model, by its index. -/
def Obligations.EncodeFaultsOnAnUnwrittenColour : Prop :=
  ∀ (count : Half) (s : State) (k : Nat),
    count.toNat ≤ s.cfg.colCap → 2 + 24 * count.toNat ≤ s.cfg.bufCap → s.arg0.toNat = 2 + 24 * count.toNat → k < count.toNat →
    (∀ j, j < k → s.col.get j ≠ none) → s.col.get k = none →
    exec (.ledEncode count) s = .fault (.unwrittenColour k)

/-! ### Buffers, record and result registers -/

/-- R38 to R40 with the model's canonical form: both buffers keep it, with every index in range. -/
def Obligations.StepKeepsBuffersCanonical : Prop :=
  ∀ s t : State, s.BuffersInv → step s = .next t → t.BuffersInv

/-- R25, R26, R203, R215: `RESULT` and `STATUS` keep agreeing, and no command raises `DivisionByZero`. -/
def Obligations.StepKeepsRecordInv : Prop :=
  ∀ s t : State, s.RecordInv → step s = .next t → t.RecordInv

/-- R27, R94, R160, R186: `RET0` and `ENC_LEN` keep holding a divider and an encoding's length. -/
def Obligations.StepKeepsResultsInv : Prop :=
  ∀ s t : State, s.cfg.Legal → s.ResultsInv → step s = .next t → t.ResultsInv

/-! ### Reset -/

/-- R231, of the state after reset. -/
def Obligations.ResetStateIsTheTableOfReset : Prop := IsResetBlock State.reset

/-- R230: a reset turn brings every state to the table of R231. The host's accesses and the schedule, which are
the model's own (log entry 13), stay, and so do the instance's parameters. -/
def Obligations.ResetTurnBringsTheTableOfReset : Prop :=
  ∀ s : State, s.cfg.Legal →
    ∃ t, step (give .reset s) = .next t ∧ IsResetBlock t ∧ t.host = s.host ∧ t.turns = s.turns ∧ t.cfg = s.cfg

/-- All invariants hold after reset, on every instance that meets R9. -/
def Obligations.InvariantsHoldAfterReset : Prop :=
  ∀ c : Config, c.Legal → ∀ epoch : Nat,
    (State.atReset c epoch).PinsLegal ∧ (State.atReset c epoch).RecordInv ∧ (State.atReset c epoch).PwmInv ∧
    (State.atReset c epoch).BuffersInv ∧ (State.atReset c epoch).SpiInv ∧ (State.atReset c epoch).ResultsInv

/-- R233: a block whose sequencer is idle, whose channels are disabled and whose FIFOs and shifters are empty does
nothing, whichever of its own agents has the turn and whichever reset it comes from, until the host moves; every
state with the values of R231 is such a block, and drives no pin. -/
def Obligations.BlockIsIdleAfterReset : Prop :=
  (∀ s : State, s.seq = .idle → (∀ c, (s.chan c).en = false) →
    (∀ i, (s.port i).fifo = [] ∧ (s.port i).sh = .empty) →
    step (give .sequencer s) = .next s ∧ (∀ i, step (give (.shifter i) s) = .next s) ∧
    (∀ c, step (give (.counter c) s) = .next s) ∧ (s.host = [] → step (give .host s) = .next s)) ∧
  ∀ s : State, IsResetBlock s → s.seq = .idle ∧ (∀ c, (s.chan c).en = false) ∧
    (∀ i, (s.port i).fifo = [] ∧ (s.port i).sh = .empty) ∧ ∀ p, s.pinOut p = some .z

/-! ### Colour model and Float arithmetic -/

/-- R102 to R104. -/
def Obligations.ColourChannelsRoundTrip : Prop :=
  (∀ c : Colour, (rgbToChannels c).1 = c.extractLsb' 16 8 ∧ (rgbToChannels c).2.1 = c.extractLsb' 8 8 ∧
    (rgbToChannels c).2.2 = c.extractLsb' 0 8 ∧
    channelsToRgb (rgbToChannels c).1 (rgbToChannels c).2.1 (rgbToChannels c).2.2 = c) ∧
  ∀ r g b : Byte, rgbToChannels (channelsToRgb r g b) = (r, g, b) ∧
    (channelsToRgb r g b).toNat = r.toNat * 65536 + g.toNat * 256 + b.toNat

/-- R15, R105 to R107 and R113, in binary32 (log entry 16): at saturation zero every hue gives the same grey; at saturation 1 and
lightness one half every hue gives a colour, so each of its channels lies in 0..255; and where hue', saturation
and lightness are small binary fractions the colour is that of exact arithmetic on the formulas and the sextant
tuples (G1). A hue of minus zero is a hue of zero. -/
def Obligations.ZeroSaturationIsGreyAndFullSaturationInRange : Prop :=
  (∀ (hue lightness : Flt) (neg : Bool), inUnit .binary32 lightness = true →
    ∃ v : Byte, hslToRgb .binary32 hue (.fin neg 0) lightness = some (channelsToRgb v v v) ∧
      (lightness.mul .binary32 (.ofNat .binary32 255)).trunc .binary32 = some (v.toNat : Int)) ∧
  (∀ hue : Flt, ∃ c : Colour,
    hslToRgb .binary32 hue (.ofNat .binary32 1) ((Flt.ofNat .binary32 1).div .binary32 (.ofNat .binary32 2)) = some c) ∧
  (∀ saturation lightness : Flt,
    hslToRgb .binary32 (.fin true 0) saturation lightness = hslToRgb .binary32 (.fin false 0) saturation lightness) ∧
  ∀ n i j : Nat, n ≤ 48 → i ≤ 4 → j ≤ 4 →
    hslToRgb .binary32 (.fin false (60 * n * 2 ^ 146)) (.fin false (i * 2 ^ 147)) (.fin false (j * 2 ^ 147)) =
      some (BitVec.ofNat 24 ((exactHsl n i j).1 * 65536 + (exactHsl n i j).2.1 * 256 + (exactHsl n i j).2.2))

/-- R106, in binary32 (log entry 16): a hue whose sixtieth is below 0, above 6 or NaN gives black, at any saturation but zero. -/
def Obligations.HueOutsideAllSextantsIsBlack : Prop :=
  ∀ hue saturation lightness : Flt, inUnit .binary32 saturation = true → inUnit .binary32 lightness = true →
    Flt.eq saturation (.ofNat .binary32 0) = false →
    (Flt.le (.ofNat .binary32 0) (hue.div .binary32 (.ofNat .binary32 60)) = false ∨
      Flt.le (hue.div .binary32 (.ofNat .binary32 60)) (.ofNat .binary32 6) = false) →
    hslToRgb .binary32 hue saturation lightness = some 0x000000#24

/-- R108, R109: integer `rescale` fails exactly on an empty input range, hits both end points, and elsewhere
truncates the exact quotient toward zero. That the distance is taken from `out_lo` is the arrangement R108 calls this
spec's reading (D34). -/
def Obligations.IntegerRescaleTruncatesTowardZero : Prop :=
  ∀ v il ih ol oh : Int,
    (rescaleInt v il ih ol oh = .error .divisionByZero ↔ ih = il) ∧
    (ih ≠ il → rescaleInt il il ih ol oh = .ok ol ∧ rescaleInt ih il ih ol oh = .ok oh ∧
      ∃ r, rescaleInt v il ih ol oh = .ok r ∧
        ((r - ol) * (ih - il)).natAbs ≤ ((v - il) * (oh - ol)).natAbs ∧
        ((v - il) * (oh - ol)).natAbs < ((r - ol) * (ih - il)).natAbs + (ih - il).natAbs ∧
        0 ≤ (r - ol) * (ih - il) * ((v - il) * (oh - ol)))

/-- R111, D11: in a format that rounds to nearest even a magnitude is rounded to a number with no more significant
bits than the format has, none is nearer, and at equal distance from two of them the result has an even last
significant bit. The number may exceed the largest of the format; `Flt.round` then makes it infinite. That
`FLOAT_FORMAT` is a format of IEEE 754 is general knowledge (G5; log entry 16). -/
def Obligations.RoundingGivesANearestValue : Prop :=
  ∀ (f : FloatFormat) (neg : Bool) (num den : Nat), 0 < den → 1 ≤ f.fracWidth → f.rounding = .nearestEven →
    (∃ m e : Nat, m < 2 ^ (f.fracWidth + 1) ∧ Flt.roundMag f neg num den = m * 2 ^ e) ∧
    ∀ m e : Nat, m < 2 ^ (f.fracWidth + 1) →
      ((Flt.roundMag f neg num den * den : Int) - num).natAbs ≤ ((m * 2 ^ e * den : Int) - num).natAbs ∧
      (((m * 2 ^ e * den : Int) - num).natAbs = ((Flt.roundMag f neg num den * den : Int) - num).natAbs →
        m * 2 ^ e ≠ Flt.roundMag f neg num den →
        ∃ m' e' : Nat, 2 * m' < 2 ^ (f.fracWidth + 1) ∧ Flt.roundMag f neg num den = 2 * m' * 2 ^ e')
end

