-- ==== Sys2Proof/Laws/Buffer.lean ====
section
/-! SUPPORT. The laws of the buffers: a read after a write to the same entry gives the value written, a write
leaves every other entry alone, and every write keeps the canonical form and the bound on the indices. -/

namespace Sys2Proof.Machine.Buffer

variable {w : Nat}

@[simp] theorem get_nil (k : Nat) : Buffer.get ([] : Buffer w) k = none := rfl

@[simp] theorem wf_nil : Buffer.wf ([] : Buffer w) = true := rfl

theorem get_put_same (b : Buffer w) (k : Nat) (v : BitVec w) : (b.put k v).get k = some v := by
  induction b with
  | nil => simp [put, get]
  | cons e rest ih =>
    obtain ⟨k', v'⟩ := e
    unfold put
    split
    · simp [get]
    · split
      · simp [get]
      · rename_i h
        simp [get, h, ih]

theorem get_put_other (b : Buffer w) {k k' : Nat} (v : BitVec w) (h : k' ≠ k) :
    (b.put k v).get k' = b.get k' := by
  induction b with
  | nil => simp [put, get, h]
  | cons e rest ih =>
    obtain ⟨j, v'⟩ := e
    unfold put
    split
    · simp [get, h]
    · split
      · rename_i hj
        subst hj
        simp [get, h]
      · simp only [get, ih]

/-- What a write can make of the head of a list, for the order proofs: the least index of the result is the
least of the old list's and the new one. -/
theorem head_put (b : Buffer w) (k : Nat) (v : BitVec w) :
    ∃ k₀ v₀ rest, b.put k v = (k₀, v₀) :: rest ∧
      (k₀ = k ∨ ∃ v₁ rest₁, b = (k₀, v₁) :: rest₁) := by
  cases b with
  | nil => exact ⟨k, v, [], rfl, .inl rfl⟩
  | cons e rest =>
    obtain ⟨k', v'⟩ := e
    unfold put
    split
    · exact ⟨k, v, _, rfl, .inl rfl⟩
    · split
      · exact ⟨k, v, _, rfl, .inl rfl⟩
      · exact ⟨k', v', _, rfl, .inr ⟨v', rest, rfl⟩⟩

theorem wf_tail {e : Nat × BitVec w} {rest : Buffer w} (h : Buffer.wf (e :: rest) = true) :
    Buffer.wf rest = true := by
  cases rest with
  | nil => rfl
  | cons e' rest' => simp [wf] at h; exact h.2

/-- A list whose head index is below that of a canonical list is canonical. -/
theorem wf_cons {k : Nat} {v : BitVec w} {b : Buffer w} (hb : b.wf = true)
    (hlt : ∀ k' v' rest, b = (k', v') :: rest → k < k') : Buffer.wf ((k, v) :: b) = true := by
  cases b with
  | nil => rfl
  | cons e rest =>
    obtain ⟨k', v'⟩ := e
    simp [wf, hlt k' v' rest rfl, hb]

theorem put_wf (b : Buffer w) (k : Nat) (v : BitVec w) (h : b.wf = true) : (b.put k v).wf = true := by
  induction b with
  | nil => rfl
  | cons e rest ih =>
    obtain ⟨k', v'⟩ := e
    have hlt : ∀ k₂ v₂ r, rest = (k₂, v₂) :: r → k' < k₂ := by
      intro k₂ v₂ r hr
      subst hr
      simp [wf] at h
      exact h.1
    unfold put
    split
    · rename_i hk
      exact wf_cons h (by intro _ _ _ he; cases he; exact hk)
    · split
      · rename_i hk
        subst hk
        exact wf_cons (wf_tail h) hlt
      · obtain ⟨k₀, v₀, r₀, hput, hk₀⟩ := head_put rest k v
        refine wf_cons (ih (wf_tail h)) ?_
        intro k₂ v₂ r hr
        rw [hput] at hr
        cases hr
        rcases hk₀ with rfl | ⟨v₁, r₁, rfl⟩
        · omega
        · exact hlt _ _ _ rfl

theorem mem_put {b : Buffer w} {k : Nat} {v : BitVec w} {e : Nat × BitVec w} (h : e ∈ b.put k v) :
    e = (k, v) ∨ e ∈ b := by
  induction b with
  | nil => simpa [put] using h
  | cons e' rest ih =>
    obtain ⟨k', v'⟩ := e'
    unfold put at h
    split at h
    · simpa using h
    · split at h
      · rcases List.mem_cons.1 h with h | h
        · exact .inl h
        · exact .inr (List.mem_cons_of_mem _ h)
      · rcases List.mem_cons.1 h with h | h
        · exact .inr (by simp [h])
        · rcases ih h with h | h
          · exact .inl h
          · exact .inr (List.mem_cons_of_mem _ h)

theorem putAll_wf (vs : List (BitVec w)) (b : Buffer w) (k : Nat) (h : b.wf = true) : (b.putAll k vs).wf = true := by
  induction vs generalizing b k with
  | nil => exact h
  | cons v vs ih => exact ih _ _ (put_wf b k v h)

theorem mem_putAll {vs : List (BitVec w)} {b : Buffer w} {k : Nat} {e : Nat × BitVec w} (h : e ∈ b.putAll k vs) :
    e ∈ b ∨ (k ≤ e.1 ∧ e.1 < k + vs.length) := by
  induction vs generalizing b k with
  | nil => exact .inl h
  | cons v vs ih =>
    rcases ih h with h | h
    · rcases mem_put h with rfl | h
      · exact .inr (by simp)
      · exact .inl h
    · exact .inr (by simp; omega)

/-- Consecutive writes leave every entry outside their range. -/
theorem get_putAll_outside (vs : List (BitVec w)) (b : Buffer w) (k j : Nat) (h : j < k ∨ k + vs.length ≤ j) :
    (b.putAll k vs).get j = b.get j := by
  induction vs generalizing b k with
  | nil => rfl
  | cons v vs ih =>
    simp only [List.length_cons] at h
    rw [putAll, ih _ _ (by omega), get_put_other _ _ (by omega)]

/-- Consecutive writes put the `n`-th value at the `n`-th entry of their range. -/
theorem get_putAll (vs : List (BitVec w)) (b : Buffer w) (k n : Nat) (h : n < vs.length) :
    (b.putAll k vs).get (k + n) = some vs[n] := by
  induction vs generalizing b k n with
  | nil => simp at h
  | cons v vs ih =>
    cases n with
    | zero => rw [putAll, get_putAll_outside _ _ _ _ (by omega)]; simpa using get_put_same b k v
    | succ n =>
      have := ih (b.put k v) (k + 1) n (by simpa using h)
      rw [putAll, show k + (n + 1) = k + 1 + n by omega, this]
      simp

/-- Reading a range succeeds exactly when every entry in it was written, and then lists the entries. -/
theorem readRange_ok {b : Buffer w} {k n : Nat} {vs : List (BitVec w)} (h : b.readRange k n = .ok vs) :
    vs.length = n ∧ ∀ j (hj : j < vs.length), b.get (k + j) = some vs[j] := by
  induction n generalizing k vs with
  | zero => cases h; simp
  | succ n ih =>
    unfold readRange at h
    split at h
    · cases h
    · rename_i v hv
      split at h
      · cases h
      · rename_i vs' hvs
        cases h
        obtain ⟨hlen, hget⟩ := ih hvs
        refine ⟨by simp [hlen], ?_⟩
        intro j hj
        cases j with
        | zero => simpa using hv
        | succ j =>
          have := hget j (by simpa using hj)
          rw [show k + (j + 1) = k + 1 + j by omega, this]
          simp

/-- Reading a range fails at the first entry of it that was never written. -/
theorem readRange_error {b : Buffer w} {k n m : Nat} (h : b.readRange k n = .error m) :
    k ≤ m ∧ m < k + n ∧ b.get m = none ∧ ∀ j, k ≤ j → j < m → b.get j ≠ none := by
  induction n generalizing k with
  | zero => cases h
  | succ n ih =>
    unfold readRange at h
    split at h
    · rename_i hv
      cases h
      exact ⟨le_refl _, by omega, hv, fun j h1 h2 => absurd h1 (by omega)⟩
    · rename_i v hv
      split at h
      · rename_i j' hj'
        cases h
        obtain ⟨h1, h2, h3, h4⟩ := ih hj'
        refine ⟨by omega, by omega, h3, ?_⟩
        intro j hj hjm
        rcases Nat.eq_or_lt_of_le hj with rfl | hlt
        · simp [hv]
        · exact h4 j hlt hjm
      · cases h

/-- Reading a range whose entries were all written succeeds. -/
theorem readRange_total {b : Buffer w} {k n : Nat} (h : ∀ j, k ≤ j → j < k + n → b.get j ≠ none) :
    ∃ vs, b.readRange k n = .ok vs := by
  cases hr : b.readRange k n with
  | ok vs => exact ⟨vs, rfl⟩
  | error m =>
    obtain ⟨h1, h2, h3, -⟩ := readRange_error hr
    exact absurd h3 (h m h1 h2)

/-- After reset both buffers are in canonical form, with nothing written. -/
theorem reset_wf : State.reset.col.wf = true ∧ State.reset.buf.wf = true := ⟨rfl, rfl⟩

end Sys2Proof.Machine.Buffer
end

