-- ==== Sys2Proof/Laws/Float.lean ====
section
/-! SUPPORT. The laws of rounding: a magnitude with no more significant bits than the format has is left as it is, so
zero and one are exact in every format. -/

namespace Sys2Proof.Machine.Flt

theorem unit_pos (f : FloatFormat) : 0 < unit f := Nat.two_pow_pos _

theorem overflow_pos (f : FloatFormat) : 0 < overflow f := Nat.mul_pos (unit_pos f) (Nat.two_pow_pos _)

/-- Nothing is rounded when there is nothing between the neighbours. -/
theorem roundsUp_zero (r : Rounding) (neg odd : Bool) {d : Nat} (h : 0 < d) : roundsUp r neg odd 0 d = false := by
  cases r <;> simp [roundsUp] <;> omega

/-- A whole magnitude that is a multiple of the spacing at its size is a value of the format. -/
theorem roundMag_exact (f : FloatFormat) (neg : Bool) {n : Nat} (h : 2 ^ (n.log2 - f.fracWidth) ∣ n) :
    roundMag f neg n 1 = n := by
  unfold roundMag
  simp only [Nat.div_one, Nat.one_mul, Nat.mod_eq_zero_of_dvd h]
  rw [roundsUp_zero _ _ _ (Nat.two_pow_pos _)]
  exact Nat.div_mul_cancel h

/-- A value of the format below the overflow threshold rounds to itself. -/
theorem round_exact (f : FloatFormat) (neg : Bool) {n : Nat} (h : 2 ^ (n.log2 - f.fracWidth) ∣ n)
    (ho : n < overflow f) : round f neg n 1 = fin neg n := by
  unfold round
  rw [Nat.div_one, roundMag_exact f neg h, if_neg (Nat.not_le_of_lt ho), if_neg (Nat.not_le_of_lt ho)]

theorem ofNat_zero (f : FloatFormat) : ofNat f 0 = fin false 0 := by
  unfold ofNat
  rw [Nat.zero_mul]
  exact round_exact f false (Nat.dvd_zero _) (overflow_pos f)

theorem ofNat_one (f : FloatFormat) : ofNat f 1 = fin false (unit f) := by
  unfold ofNat
  rw [Nat.one_mul]
  refine round_exact f false ?_ ?_
  · unfold unit
    rw [Nat.log2_two_pow]
    exact Nat.pow_dvd_pow _ (Nat.sub_le _ _)
  · exact lt_mul_of_one_lt_right (unit_pos f) (Nat.one_lt_two_pow (Nat.succ_ne_zero _))

/-- One is not zero, so `rescale` from `0 .. 1` never fails (R126, R215). -/
theorem one_ne_zero (f : FloatFormat) : Flt.eq (ofNat f 1) (ofNat f 0) = false := by
  have := unit_pos f
  rw [ofNat_zero, ofNat_one]
  simp [Flt.eq, Flt.le, signed]
  omega

end Sys2Proof.Machine.Flt
end

