-- ==== Sys2Proof/Laws/State.lean ====
section
/-! SUPPORT. One lemma per field per state update: what the update makes of the field. Each is true by `rfl` and
is a simp lemma, so that no proof has to unfold an update. -/

namespace Sys2Proof.Machine

variable (s : State)

/-! ### setChan -/

@[simp] theorem State.setChan_arg0 (c : Chan) (ch : Channel) : (s.setChan c ch).arg0 = s.arg0 := rfl
@[simp] theorem State.setChan_arg1 (c : Chan) (ch : Channel) : (s.setChan c ch).arg1 = s.arg1 := rfl
@[simp] theorem State.setChan_ret0 (c : Chan) (ch : Channel) : (s.setChan c ch).ret0 = s.ret0 := rfl
@[simp] theorem State.setChan_result (c : Chan) (ch : Channel) : (s.setChan c ch).result = s.result := rfl
@[simp] theorem State.setChan_statusFault (c : Chan) (ch : Channel) : (s.setChan c ch).statusFault = s.statusFault := rfl
@[simp] theorem State.setChan_firstErr (c : Chan) (ch : Channel) : (s.setChan c ch).firstErr = s.firstErr := rfl
@[simp] theorem State.setChan_encLen (c : Chan) (ch : Channel) : (s.setChan c ch).encLen = s.encLen := rfl
@[simp] theorem State.setChan_pwm (c : Chan) (ch : Channel) : (s.setChan c ch).pwm = s.pwm.set c.val ch c.isLt := rfl
@[simp] theorem State.setChan_pins (c : Chan) (ch : Channel) : (s.setChan c ch).pins = s.pins := rfl
@[simp] theorem State.setChan_spi (c : Chan) (ch : Channel) : (s.setChan c ch).spi = s.spi := rfl
@[simp] theorem State.setChan_seq (c : Chan) (ch : Channel) : (s.setChan c ch).seq = s.seq := rfl
@[simp] theorem State.setChan_col (c : Chan) (ch : Channel) : (s.setChan c ch).col = s.col := rfl
@[simp] theorem State.setChan_buf (c : Chan) (ch : Channel) : (s.setChan c ch).buf = s.buf := rfl
@[simp] theorem State.setChan_cfg (c : Chan) (ch : Channel) : (s.setChan c ch).cfg = s.cfg := rfl
@[simp] theorem State.setChan_host (c : Chan) (ch : Channel) : (s.setChan c ch).host = s.host := rfl
@[simp] theorem State.setChan_turns (c : Chan) (ch : Channel) : (s.setChan c ch).turns = s.turns := rfl
@[simp] theorem State.setChan_reply (c : Chan) (ch : Channel) : (s.setChan c ch).reply = s.reply := rfl
@[simp] theorem State.setChan_epoch (c : Chan) (ch : Channel) : (s.setChan c ch).epoch = s.epoch := rfl
@[simp] theorem State.setChan_draws (c : Chan) (ch : Channel) : (s.setChan c ch).draws = s.draws := rfl

/-! ### setPinCtrl -/

@[simp] theorem State.setPinCtrl_arg0 (p : Pin) (v : PinCtrl) : (s.setPinCtrl p v).arg0 = s.arg0 := rfl
@[simp] theorem State.setPinCtrl_arg1 (p : Pin) (v : PinCtrl) : (s.setPinCtrl p v).arg1 = s.arg1 := rfl
@[simp] theorem State.setPinCtrl_ret0 (p : Pin) (v : PinCtrl) : (s.setPinCtrl p v).ret0 = s.ret0 := rfl
@[simp] theorem State.setPinCtrl_result (p : Pin) (v : PinCtrl) : (s.setPinCtrl p v).result = s.result := rfl
@[simp] theorem State.setPinCtrl_statusFault (p : Pin) (v : PinCtrl) : (s.setPinCtrl p v).statusFault = s.statusFault := rfl
@[simp] theorem State.setPinCtrl_firstErr (p : Pin) (v : PinCtrl) : (s.setPinCtrl p v).firstErr = s.firstErr := rfl
@[simp] theorem State.setPinCtrl_encLen (p : Pin) (v : PinCtrl) : (s.setPinCtrl p v).encLen = s.encLen := rfl
@[simp] theorem State.setPinCtrl_pwm (p : Pin) (v : PinCtrl) : (s.setPinCtrl p v).pwm = s.pwm := rfl
@[simp] theorem State.setPinCtrl_pins (p : Pin) (v : PinCtrl) : (s.setPinCtrl p v).pins = s.pins.set p.val v p.isLt := rfl
@[simp] theorem State.setPinCtrl_spi (p : Pin) (v : PinCtrl) : (s.setPinCtrl p v).spi = s.spi := rfl
@[simp] theorem State.setPinCtrl_seq (p : Pin) (v : PinCtrl) : (s.setPinCtrl p v).seq = s.seq := rfl
@[simp] theorem State.setPinCtrl_col (p : Pin) (v : PinCtrl) : (s.setPinCtrl p v).col = s.col := rfl
@[simp] theorem State.setPinCtrl_buf (p : Pin) (v : PinCtrl) : (s.setPinCtrl p v).buf = s.buf := rfl
@[simp] theorem State.setPinCtrl_cfg (p : Pin) (v : PinCtrl) : (s.setPinCtrl p v).cfg = s.cfg := rfl
@[simp] theorem State.setPinCtrl_host (p : Pin) (v : PinCtrl) : (s.setPinCtrl p v).host = s.host := rfl
@[simp] theorem State.setPinCtrl_turns (p : Pin) (v : PinCtrl) : (s.setPinCtrl p v).turns = s.turns := rfl
@[simp] theorem State.setPinCtrl_reply (p : Pin) (v : PinCtrl) : (s.setPinCtrl p v).reply = s.reply := rfl
@[simp] theorem State.setPinCtrl_epoch (p : Pin) (v : PinCtrl) : (s.setPinCtrl p v).epoch = s.epoch := rfl
@[simp] theorem State.setPinCtrl_draws (p : Pin) (v : PinCtrl) : (s.setPinCtrl p v).draws = s.draws := rfl

/-! ### setPort -/

@[simp] theorem State.setPort_arg0 (i : SpiIx) (p : SpiPort) : (s.setPort i p).arg0 = s.arg0 := rfl
@[simp] theorem State.setPort_arg1 (i : SpiIx) (p : SpiPort) : (s.setPort i p).arg1 = s.arg1 := rfl
@[simp] theorem State.setPort_ret0 (i : SpiIx) (p : SpiPort) : (s.setPort i p).ret0 = s.ret0 := rfl
@[simp] theorem State.setPort_result (i : SpiIx) (p : SpiPort) : (s.setPort i p).result = s.result := rfl
@[simp] theorem State.setPort_statusFault (i : SpiIx) (p : SpiPort) : (s.setPort i p).statusFault = s.statusFault := rfl
@[simp] theorem State.setPort_firstErr (i : SpiIx) (p : SpiPort) : (s.setPort i p).firstErr = s.firstErr := rfl
@[simp] theorem State.setPort_encLen (i : SpiIx) (p : SpiPort) : (s.setPort i p).encLen = s.encLen := rfl
@[simp] theorem State.setPort_pwm (i : SpiIx) (p : SpiPort) : (s.setPort i p).pwm = s.pwm := rfl
@[simp] theorem State.setPort_pins (i : SpiIx) (p : SpiPort) : (s.setPort i p).pins = s.pins := rfl
@[simp] theorem State.setPort_spi (i : SpiIx) (p : SpiPort) : (s.setPort i p).spi = s.spi.set i.val p i.isLt := rfl
@[simp] theorem State.setPort_seq (i : SpiIx) (p : SpiPort) : (s.setPort i p).seq = s.seq := rfl
@[simp] theorem State.setPort_col (i : SpiIx) (p : SpiPort) : (s.setPort i p).col = s.col := rfl
@[simp] theorem State.setPort_buf (i : SpiIx) (p : SpiPort) : (s.setPort i p).buf = s.buf := rfl
@[simp] theorem State.setPort_cfg (i : SpiIx) (p : SpiPort) : (s.setPort i p).cfg = s.cfg := rfl
@[simp] theorem State.setPort_host (i : SpiIx) (p : SpiPort) : (s.setPort i p).host = s.host := rfl
@[simp] theorem State.setPort_turns (i : SpiIx) (p : SpiPort) : (s.setPort i p).turns = s.turns := rfl
@[simp] theorem State.setPort_reply (i : SpiIx) (p : SpiPort) : (s.setPort i p).reply = s.reply := rfl
@[simp] theorem State.setPort_epoch (i : SpiIx) (p : SpiPort) : (s.setPort i p).epoch = s.epoch := rfl
@[simp] theorem State.setPort_draws (i : SpiIx) (p : SpiPort) : (s.setPort i p).draws = s.draws := rfl

/-! ### setSeq -/

@[simp] theorem State.setSeq_arg0 (q : Seq) : (s.setSeq q).arg0 = s.arg0 := rfl
@[simp] theorem State.setSeq_arg1 (q : Seq) : (s.setSeq q).arg1 = s.arg1 := rfl
@[simp] theorem State.setSeq_ret0 (q : Seq) : (s.setSeq q).ret0 = s.ret0 := rfl
@[simp] theorem State.setSeq_result (q : Seq) : (s.setSeq q).result = s.result := rfl
@[simp] theorem State.setSeq_statusFault (q : Seq) : (s.setSeq q).statusFault = s.statusFault := rfl
@[simp] theorem State.setSeq_firstErr (q : Seq) : (s.setSeq q).firstErr = s.firstErr := rfl
@[simp] theorem State.setSeq_encLen (q : Seq) : (s.setSeq q).encLen = s.encLen := rfl
@[simp] theorem State.setSeq_pwm (q : Seq) : (s.setSeq q).pwm = s.pwm := rfl
@[simp] theorem State.setSeq_pins (q : Seq) : (s.setSeq q).pins = s.pins := rfl
@[simp] theorem State.setSeq_spi (q : Seq) : (s.setSeq q).spi = s.spi := rfl
@[simp] theorem State.setSeq_seq (q : Seq) : (s.setSeq q).seq = q := rfl
@[simp] theorem State.setSeq_col (q : Seq) : (s.setSeq q).col = s.col := rfl
@[simp] theorem State.setSeq_buf (q : Seq) : (s.setSeq q).buf = s.buf := rfl
@[simp] theorem State.setSeq_cfg (q : Seq) : (s.setSeq q).cfg = s.cfg := rfl
@[simp] theorem State.setSeq_host (q : Seq) : (s.setSeq q).host = s.host := rfl
@[simp] theorem State.setSeq_turns (q : Seq) : (s.setSeq q).turns = s.turns := rfl
@[simp] theorem State.setSeq_reply (q : Seq) : (s.setSeq q).reply = s.reply := rfl
@[simp] theorem State.setSeq_epoch (q : Seq) : (s.setSeq q).epoch = s.epoch := rfl
@[simp] theorem State.setSeq_draws (q : Seq) : (s.setSeq q).draws = s.draws := rfl

/-! ### setArg0 -/

@[simp] theorem State.setArg0_arg0 (v : Word) : (s.setArg0 v).arg0 = v := rfl
@[simp] theorem State.setArg0_arg1 (v : Word) : (s.setArg0 v).arg1 = s.arg1 := rfl
@[simp] theorem State.setArg0_ret0 (v : Word) : (s.setArg0 v).ret0 = s.ret0 := rfl
@[simp] theorem State.setArg0_result (v : Word) : (s.setArg0 v).result = s.result := rfl
@[simp] theorem State.setArg0_statusFault (v : Word) : (s.setArg0 v).statusFault = s.statusFault := rfl
@[simp] theorem State.setArg0_firstErr (v : Word) : (s.setArg0 v).firstErr = s.firstErr := rfl
@[simp] theorem State.setArg0_encLen (v : Word) : (s.setArg0 v).encLen = s.encLen := rfl
@[simp] theorem State.setArg0_pwm (v : Word) : (s.setArg0 v).pwm = s.pwm := rfl
@[simp] theorem State.setArg0_pins (v : Word) : (s.setArg0 v).pins = s.pins := rfl
@[simp] theorem State.setArg0_spi (v : Word) : (s.setArg0 v).spi = s.spi := rfl
@[simp] theorem State.setArg0_seq (v : Word) : (s.setArg0 v).seq = s.seq := rfl
@[simp] theorem State.setArg0_col (v : Word) : (s.setArg0 v).col = s.col := rfl
@[simp] theorem State.setArg0_buf (v : Word) : (s.setArg0 v).buf = s.buf := rfl
@[simp] theorem State.setArg0_cfg (v : Word) : (s.setArg0 v).cfg = s.cfg := rfl
@[simp] theorem State.setArg0_host (v : Word) : (s.setArg0 v).host = s.host := rfl
@[simp] theorem State.setArg0_turns (v : Word) : (s.setArg0 v).turns = s.turns := rfl
@[simp] theorem State.setArg0_reply (v : Word) : (s.setArg0 v).reply = s.reply := rfl
@[simp] theorem State.setArg0_epoch (v : Word) : (s.setArg0 v).epoch = s.epoch := rfl
@[simp] theorem State.setArg0_draws (v : Word) : (s.setArg0 v).draws = s.draws := rfl

/-! ### setArg1 -/

@[simp] theorem State.setArg1_arg0 (v : Word) : (s.setArg1 v).arg0 = s.arg0 := rfl
@[simp] theorem State.setArg1_arg1 (v : Word) : (s.setArg1 v).arg1 = v := rfl
@[simp] theorem State.setArg1_ret0 (v : Word) : (s.setArg1 v).ret0 = s.ret0 := rfl
@[simp] theorem State.setArg1_result (v : Word) : (s.setArg1 v).result = s.result := rfl
@[simp] theorem State.setArg1_statusFault (v : Word) : (s.setArg1 v).statusFault = s.statusFault := rfl
@[simp] theorem State.setArg1_firstErr (v : Word) : (s.setArg1 v).firstErr = s.firstErr := rfl
@[simp] theorem State.setArg1_encLen (v : Word) : (s.setArg1 v).encLen = s.encLen := rfl
@[simp] theorem State.setArg1_pwm (v : Word) : (s.setArg1 v).pwm = s.pwm := rfl
@[simp] theorem State.setArg1_pins (v : Word) : (s.setArg1 v).pins = s.pins := rfl
@[simp] theorem State.setArg1_spi (v : Word) : (s.setArg1 v).spi = s.spi := rfl
@[simp] theorem State.setArg1_seq (v : Word) : (s.setArg1 v).seq = s.seq := rfl
@[simp] theorem State.setArg1_col (v : Word) : (s.setArg1 v).col = s.col := rfl
@[simp] theorem State.setArg1_buf (v : Word) : (s.setArg1 v).buf = s.buf := rfl
@[simp] theorem State.setArg1_cfg (v : Word) : (s.setArg1 v).cfg = s.cfg := rfl
@[simp] theorem State.setArg1_host (v : Word) : (s.setArg1 v).host = s.host := rfl
@[simp] theorem State.setArg1_turns (v : Word) : (s.setArg1 v).turns = s.turns := rfl
@[simp] theorem State.setArg1_reply (v : Word) : (s.setArg1 v).reply = s.reply := rfl
@[simp] theorem State.setArg1_epoch (v : Word) : (s.setArg1 v).epoch = s.epoch := rfl
@[simp] theorem State.setArg1_draws (v : Word) : (s.setArg1 v).draws = s.draws := rfl

/-! ### setRet0 -/

@[simp] theorem State.setRet0_arg0 (v : Word) : (s.setRet0 v).arg0 = s.arg0 := rfl
@[simp] theorem State.setRet0_arg1 (v : Word) : (s.setRet0 v).arg1 = s.arg1 := rfl
@[simp] theorem State.setRet0_ret0 (v : Word) : (s.setRet0 v).ret0 = v := rfl
@[simp] theorem State.setRet0_result (v : Word) : (s.setRet0 v).result = s.result := rfl
@[simp] theorem State.setRet0_statusFault (v : Word) : (s.setRet0 v).statusFault = s.statusFault := rfl
@[simp] theorem State.setRet0_firstErr (v : Word) : (s.setRet0 v).firstErr = s.firstErr := rfl
@[simp] theorem State.setRet0_encLen (v : Word) : (s.setRet0 v).encLen = s.encLen := rfl
@[simp] theorem State.setRet0_pwm (v : Word) : (s.setRet0 v).pwm = s.pwm := rfl
@[simp] theorem State.setRet0_pins (v : Word) : (s.setRet0 v).pins = s.pins := rfl
@[simp] theorem State.setRet0_spi (v : Word) : (s.setRet0 v).spi = s.spi := rfl
@[simp] theorem State.setRet0_seq (v : Word) : (s.setRet0 v).seq = s.seq := rfl
@[simp] theorem State.setRet0_col (v : Word) : (s.setRet0 v).col = s.col := rfl
@[simp] theorem State.setRet0_buf (v : Word) : (s.setRet0 v).buf = s.buf := rfl
@[simp] theorem State.setRet0_cfg (v : Word) : (s.setRet0 v).cfg = s.cfg := rfl
@[simp] theorem State.setRet0_host (v : Word) : (s.setRet0 v).host = s.host := rfl
@[simp] theorem State.setRet0_turns (v : Word) : (s.setRet0 v).turns = s.turns := rfl
@[simp] theorem State.setRet0_reply (v : Word) : (s.setRet0 v).reply = s.reply := rfl
@[simp] theorem State.setRet0_epoch (v : Word) : (s.setRet0 v).epoch = s.epoch := rfl
@[simp] theorem State.setRet0_draws (v : Word) : (s.setRet0 v).draws = s.draws := rfl

/-! ### setEncLen -/

@[simp] theorem State.setEncLen_arg0 (v : Half) : (s.setEncLen v).arg0 = s.arg0 := rfl
@[simp] theorem State.setEncLen_arg1 (v : Half) : (s.setEncLen v).arg1 = s.arg1 := rfl
@[simp] theorem State.setEncLen_ret0 (v : Half) : (s.setEncLen v).ret0 = s.ret0 := rfl
@[simp] theorem State.setEncLen_result (v : Half) : (s.setEncLen v).result = s.result := rfl
@[simp] theorem State.setEncLen_statusFault (v : Half) : (s.setEncLen v).statusFault = s.statusFault := rfl
@[simp] theorem State.setEncLen_firstErr (v : Half) : (s.setEncLen v).firstErr = s.firstErr := rfl
@[simp] theorem State.setEncLen_encLen (v : Half) : (s.setEncLen v).encLen = v := rfl
@[simp] theorem State.setEncLen_pwm (v : Half) : (s.setEncLen v).pwm = s.pwm := rfl
@[simp] theorem State.setEncLen_pins (v : Half) : (s.setEncLen v).pins = s.pins := rfl
@[simp] theorem State.setEncLen_spi (v : Half) : (s.setEncLen v).spi = s.spi := rfl
@[simp] theorem State.setEncLen_seq (v : Half) : (s.setEncLen v).seq = s.seq := rfl
@[simp] theorem State.setEncLen_col (v : Half) : (s.setEncLen v).col = s.col := rfl
@[simp] theorem State.setEncLen_buf (v : Half) : (s.setEncLen v).buf = s.buf := rfl
@[simp] theorem State.setEncLen_cfg (v : Half) : (s.setEncLen v).cfg = s.cfg := rfl
@[simp] theorem State.setEncLen_host (v : Half) : (s.setEncLen v).host = s.host := rfl
@[simp] theorem State.setEncLen_turns (v : Half) : (s.setEncLen v).turns = s.turns := rfl
@[simp] theorem State.setEncLen_reply (v : Half) : (s.setEncLen v).reply = s.reply := rfl
@[simp] theorem State.setEncLen_epoch (v : Half) : (s.setEncLen v).epoch = s.epoch := rfl
@[simp] theorem State.setEncLen_draws (v : Half) : (s.setEncLen v).draws = s.draws := rfl

/-! ### setCol -/

@[simp] theorem State.setCol_arg0 (b : Buffer 24) : (s.setCol b).arg0 = s.arg0 := rfl
@[simp] theorem State.setCol_arg1 (b : Buffer 24) : (s.setCol b).arg1 = s.arg1 := rfl
@[simp] theorem State.setCol_ret0 (b : Buffer 24) : (s.setCol b).ret0 = s.ret0 := rfl
@[simp] theorem State.setCol_result (b : Buffer 24) : (s.setCol b).result = s.result := rfl
@[simp] theorem State.setCol_statusFault (b : Buffer 24) : (s.setCol b).statusFault = s.statusFault := rfl
@[simp] theorem State.setCol_firstErr (b : Buffer 24) : (s.setCol b).firstErr = s.firstErr := rfl
@[simp] theorem State.setCol_encLen (b : Buffer 24) : (s.setCol b).encLen = s.encLen := rfl
@[simp] theorem State.setCol_pwm (b : Buffer 24) : (s.setCol b).pwm = s.pwm := rfl
@[simp] theorem State.setCol_pins (b : Buffer 24) : (s.setCol b).pins = s.pins := rfl
@[simp] theorem State.setCol_spi (b : Buffer 24) : (s.setCol b).spi = s.spi := rfl
@[simp] theorem State.setCol_seq (b : Buffer 24) : (s.setCol b).seq = s.seq := rfl
@[simp] theorem State.setCol_col (b : Buffer 24) : (s.setCol b).col = b := rfl
@[simp] theorem State.setCol_buf (b : Buffer 24) : (s.setCol b).buf = s.buf := rfl
@[simp] theorem State.setCol_cfg (b : Buffer 24) : (s.setCol b).cfg = s.cfg := rfl
@[simp] theorem State.setCol_host (b : Buffer 24) : (s.setCol b).host = s.host := rfl
@[simp] theorem State.setCol_turns (b : Buffer 24) : (s.setCol b).turns = s.turns := rfl
@[simp] theorem State.setCol_reply (b : Buffer 24) : (s.setCol b).reply = s.reply := rfl
@[simp] theorem State.setCol_epoch (b : Buffer 24) : (s.setCol b).epoch = s.epoch := rfl
@[simp] theorem State.setCol_draws (b : Buffer 24) : (s.setCol b).draws = s.draws := rfl

/-! ### setBuf -/

@[simp] theorem State.setBuf_arg0 (b : Buffer 16) : (s.setBuf b).arg0 = s.arg0 := rfl
@[simp] theorem State.setBuf_arg1 (b : Buffer 16) : (s.setBuf b).arg1 = s.arg1 := rfl
@[simp] theorem State.setBuf_ret0 (b : Buffer 16) : (s.setBuf b).ret0 = s.ret0 := rfl
@[simp] theorem State.setBuf_result (b : Buffer 16) : (s.setBuf b).result = s.result := rfl
@[simp] theorem State.setBuf_statusFault (b : Buffer 16) : (s.setBuf b).statusFault = s.statusFault := rfl
@[simp] theorem State.setBuf_firstErr (b : Buffer 16) : (s.setBuf b).firstErr = s.firstErr := rfl
@[simp] theorem State.setBuf_encLen (b : Buffer 16) : (s.setBuf b).encLen = s.encLen := rfl
@[simp] theorem State.setBuf_pwm (b : Buffer 16) : (s.setBuf b).pwm = s.pwm := rfl
@[simp] theorem State.setBuf_pins (b : Buffer 16) : (s.setBuf b).pins = s.pins := rfl
@[simp] theorem State.setBuf_spi (b : Buffer 16) : (s.setBuf b).spi = s.spi := rfl
@[simp] theorem State.setBuf_seq (b : Buffer 16) : (s.setBuf b).seq = s.seq := rfl
@[simp] theorem State.setBuf_col (b : Buffer 16) : (s.setBuf b).col = s.col := rfl
@[simp] theorem State.setBuf_buf (b : Buffer 16) : (s.setBuf b).buf = b := rfl
@[simp] theorem State.setBuf_cfg (b : Buffer 16) : (s.setBuf b).cfg = s.cfg := rfl
@[simp] theorem State.setBuf_host (b : Buffer 16) : (s.setBuf b).host = s.host := rfl
@[simp] theorem State.setBuf_turns (b : Buffer 16) : (s.setBuf b).turns = s.turns := rfl
@[simp] theorem State.setBuf_reply (b : Buffer 16) : (s.setBuf b).reply = s.reply := rfl
@[simp] theorem State.setBuf_epoch (b : Buffer 16) : (s.setBuf b).epoch = s.epoch := rfl
@[simp] theorem State.setBuf_draws (b : Buffer 16) : (s.setBuf b).draws = s.draws := rfl

/-! ### setReply -/

@[simp] theorem State.setReply_arg0 (r : Reply) : (s.setReply r).arg0 = s.arg0 := rfl
@[simp] theorem State.setReply_arg1 (r : Reply) : (s.setReply r).arg1 = s.arg1 := rfl
@[simp] theorem State.setReply_ret0 (r : Reply) : (s.setReply r).ret0 = s.ret0 := rfl
@[simp] theorem State.setReply_result (r : Reply) : (s.setReply r).result = s.result := rfl
@[simp] theorem State.setReply_statusFault (r : Reply) : (s.setReply r).statusFault = s.statusFault := rfl
@[simp] theorem State.setReply_firstErr (r : Reply) : (s.setReply r).firstErr = s.firstErr := rfl
@[simp] theorem State.setReply_encLen (r : Reply) : (s.setReply r).encLen = s.encLen := rfl
@[simp] theorem State.setReply_pwm (r : Reply) : (s.setReply r).pwm = s.pwm := rfl
@[simp] theorem State.setReply_pins (r : Reply) : (s.setReply r).pins = s.pins := rfl
@[simp] theorem State.setReply_spi (r : Reply) : (s.setReply r).spi = s.spi := rfl
@[simp] theorem State.setReply_seq (r : Reply) : (s.setReply r).seq = s.seq := rfl
@[simp] theorem State.setReply_col (r : Reply) : (s.setReply r).col = s.col := rfl
@[simp] theorem State.setReply_buf (r : Reply) : (s.setReply r).buf = s.buf := rfl
@[simp] theorem State.setReply_cfg (r : Reply) : (s.setReply r).cfg = s.cfg := rfl
@[simp] theorem State.setReply_host (r : Reply) : (s.setReply r).host = s.host := rfl
@[simp] theorem State.setReply_turns (r : Reply) : (s.setReply r).turns = s.turns := rfl
@[simp] theorem State.setReply_reply (r : Reply) : (s.setReply r).reply = r := rfl
@[simp] theorem State.setReply_epoch (r : Reply) : (s.setReply r).epoch = s.epoch := rfl
@[simp] theorem State.setReply_draws (r : Reply) : (s.setReply r).draws = s.draws := rfl

/-! ### takeDraw -/

@[simp] theorem State.takeDraw_arg0 : (s.takeDraw).arg0 = s.arg0 := rfl
@[simp] theorem State.takeDraw_arg1 : (s.takeDraw).arg1 = s.arg1 := rfl
@[simp] theorem State.takeDraw_ret0 : (s.takeDraw).ret0 = s.ret0 := rfl
@[simp] theorem State.takeDraw_result : (s.takeDraw).result = s.result := rfl
@[simp] theorem State.takeDraw_statusFault : (s.takeDraw).statusFault = s.statusFault := rfl
@[simp] theorem State.takeDraw_firstErr : (s.takeDraw).firstErr = s.firstErr := rfl
@[simp] theorem State.takeDraw_encLen : (s.takeDraw).encLen = s.encLen := rfl
@[simp] theorem State.takeDraw_pwm : (s.takeDraw).pwm = s.pwm := rfl
@[simp] theorem State.takeDraw_pins : (s.takeDraw).pins = s.pins := rfl
@[simp] theorem State.takeDraw_spi : (s.takeDraw).spi = s.spi := rfl
@[simp] theorem State.takeDraw_seq : (s.takeDraw).seq = s.seq := rfl
@[simp] theorem State.takeDraw_col : (s.takeDraw).col = s.col := rfl
@[simp] theorem State.takeDraw_buf : (s.takeDraw).buf = s.buf := rfl
@[simp] theorem State.takeDraw_cfg : (s.takeDraw).cfg = s.cfg := rfl
@[simp] theorem State.takeDraw_host : (s.takeDraw).host = s.host := rfl
@[simp] theorem State.takeDraw_turns : (s.takeDraw).turns = s.turns := rfl
@[simp] theorem State.takeDraw_reply : (s.takeDraw).reply = s.reply := rfl
@[simp] theorem State.takeDraw_epoch : (s.takeDraw).epoch = s.epoch := rfl
@[simp] theorem State.takeDraw_draws : (s.takeDraw).draws = s.draws + 1 := rfl

/-! ### complete -/

@[simp] theorem State.complete_arg0 (k : ResultCode) : (s.complete k).arg0 = s.arg0 := rfl
@[simp] theorem State.complete_arg1 (k : ResultCode) : (s.complete k).arg1 = s.arg1 := rfl
@[simp] theorem State.complete_ret0 (k : ResultCode) : (s.complete k).ret0 = s.ret0 := rfl
@[simp] theorem State.complete_result (k : ResultCode) : (s.complete k).result = k := rfl
@[simp] theorem State.complete_statusFault (k : ResultCode) : (s.complete k).statusFault = nextFault s k := rfl
@[simp] theorem State.complete_firstErr (k : ResultCode) : (s.complete k).firstErr = nextFirstErr s k := rfl
@[simp] theorem State.complete_encLen (k : ResultCode) : (s.complete k).encLen = s.encLen := rfl
@[simp] theorem State.complete_pwm (k : ResultCode) : (s.complete k).pwm = s.pwm := rfl
@[simp] theorem State.complete_pins (k : ResultCode) : (s.complete k).pins = s.pins := rfl
@[simp] theorem State.complete_spi (k : ResultCode) : (s.complete k).spi = s.spi := rfl
@[simp] theorem State.complete_seq (k : ResultCode) : (s.complete k).seq = s.seq := rfl
@[simp] theorem State.complete_col (k : ResultCode) : (s.complete k).col = s.col := rfl
@[simp] theorem State.complete_buf (k : ResultCode) : (s.complete k).buf = s.buf := rfl
@[simp] theorem State.complete_cfg (k : ResultCode) : (s.complete k).cfg = s.cfg := rfl
@[simp] theorem State.complete_host (k : ResultCode) : (s.complete k).host = s.host := rfl
@[simp] theorem State.complete_turns (k : ResultCode) : (s.complete k).turns = s.turns := rfl
@[simp] theorem State.complete_reply (k : ResultCode) : (s.complete k).reply = .done := rfl
@[simp] theorem State.complete_epoch (k : ResultCode) : (s.complete k).epoch = s.epoch := rfl
@[simp] theorem State.complete_draws (k : ResultCode) : (s.complete k).draws = s.draws := rfl

end Sys2Proof.Machine
end

