-- ==== Sys2Proof/Laws/Ops.lean ====
section
/-! SUPPORT. One lemma per shared operation, saying once what it does: reads after writes of the register files,
completion with and without success, the field decoders, the FIFO, the solver's scans and the shifter. -/

namespace Sys2Proof.Machine

/-! ### Register files: a read after a write -/

@[simp] theorem State.chan_setChan_same (s : State) (c : Chan) (ch : Channel) : (s.setChan c ch).chan c = ch := by
  simp [State.chan, State.setChan]

theorem State.chan_setChan_ne (s : State) {c d : Chan} (ch : Channel) (h : d ≠ c) :
    (s.setChan c ch).chan d = s.chan d := by
  have : c.val ≠ d.val := fun hv => h (Fin.ext hv.symm)
  simp [State.chan, State.setChan, this]

@[simp] theorem State.port_setPort_same (s : State) (i : SpiIx) (p : SpiPort) : (s.setPort i p).port i = p := by
  simp [State.port, State.setPort]

theorem State.port_setPort_ne (s : State) {i j : SpiIx} (p : SpiPort) (h : j ≠ i) :
    (s.setPort i p).port j = s.port j := by
  have : i.val ≠ j.val := fun hv => h (Fin.ext hv.symm)
  simp [State.port, State.setPort, this]

@[simp] theorem State.pinCtrl_setPinCtrl_same (s : State) (p : Pin) (v : PinCtrl) :
    (s.setPinCtrl p v).pinCtrl p = v := by
  simp [State.pinCtrl, State.setPinCtrl]

theorem State.pinCtrl_setPinCtrl_ne (s : State) {p q : Pin} (v : PinCtrl) (h : q ≠ p) :
    (s.setPinCtrl p v).pinCtrl q = s.pinCtrl q := by
  have : p.val ≠ q.val := fun hv => h (Fin.ext hv.symm)
  simp [State.pinCtrl, State.setPinCtrl, this]

/-- What the register files hold after reset (R231). -/
@[simp] theorem State.chan_atReset (cfg : Config) (e : Nat) (c : Chan) :
    (State.atReset cfg e).chan c = Channel.atReset e c := by
  simp [State.chan, State.atReset]

@[simp] theorem State.port_atReset (cfg : Config) (e : Nat) (i : SpiIx) :
    (State.atReset cfg e).port i = SpiPort.atReset := by
  simp [State.port, State.atReset]

@[simp] theorem State.pinCtrl_atReset (cfg : Config) (e : Nat) (p : Pin) :
    (State.atReset cfg e).pinCtrl p = PinCtrl.atReset := by
  simp [State.pinCtrl, State.atReset]

/-- Writing back what a register file holds changes nothing. -/
@[simp] theorem State.setPort_port (s : State) (i : SpiIx) : s.setPort i (s.port i) = s := by
  simp [State.setPort, State.port]

@[simp] theorem State.setChan_chan (s : State) (c : Chan) : s.setChan c (s.chan c) = s := by
  simp [State.setChan, State.chan]

/-- The register file accessors read their own field only. -/
theorem State.chan_congr {s t : State} (h : s.pwm = t.pwm) (c : Chan) : s.chan c = t.chan c := by
  simp [State.chan, h]

theorem State.port_congr {s t : State} (h : s.spi = t.spi) (i : SpiIx) : s.port i = t.port i := by
  simp [State.port, h]

theorem State.pinCtrl_congr {s t : State} (h : s.pins = t.pins) (p : Pin) : s.pinCtrl p = t.pinCtrl p := by
  simp [State.pinCtrl, h]

/-- A write of one slice's compare register leaves the other slice's. -/
@[simp] theorem Channel.cmp_setCmp_same (ch : Channel) (x : Slice) (v : Half) : (ch.setCmp x v).cmp x = PwmReg.of v := by
  cases x <;> rfl

theorem Channel.cmp_setCmp_ne (ch : Channel) {x y : Slice} (v : Half) (h : y ≠ x) :
    (ch.setCmp x v).cmp y = ch.cmp y := by
  cases x <;> cases y <;> first | rfl | exact absurd rfl h

@[simp] theorem Channel.setCmp_en (ch : Channel) (x : Slice) (v : Half) : (ch.setCmp x v).en = ch.en := by
  cases x <;> rfl

@[simp] theorem Channel.setCmp_top (ch : Channel) (x : Slice) (v : Half) : (ch.setCmp x v).top = ch.top := by
  cases x <;> rfl

@[simp] theorem Channel.setCmp_ctr (ch : Channel) (x : Slice) (v : Half) : (ch.setCmp x v).ctr = ch.ctr := by
  cases x <;> rfl

/-! ### Completion (R203) -/

/-- Success changes `RESULT` and the bus's answer only. -/
theorem State.complete_ok (s : State) : s.complete .ok = { s with result := .ok, reply := .done } := by
  simp [State.complete, nextFault, nextFirstErr]

/-- Failure sets the sticky bit and records the code if it is the first. -/
theorem State.complete_failed (s : State) {k : ResultCode} (h : k ≠ .ok) :
    s.complete k =
      { s with
        result := k, statusFault := true, firstErr := if s.statusFault then s.firstErr else k, reply := .done } := by
  cases hf : s.statusFault <;> simp [State.complete, nextFault, nextFirstErr, h, hf]

/-! ### Field decoders -/

theorem pinOf_eq_some {c : Config} {f : BitVec 5} {p : Pin} :
    pinOf c f = some p ↔ f.toNat = p.val ∧ p.val < c.nPins := by
  have hp := p.isLt
  unfold pinOf
  split
  · rename_i h
    simp only [Option.some.injEq, Fin.ext_iff]
    exact ⟨fun e => ⟨e, by omega⟩, fun e => e.1⟩
  · rename_i h
    constructor
    · intro e; cases e
    · intro e; exact absurd (by omega) h

/-- A field names no pin exactly when it is not below `N_PINS`, on an instance with at most 31 pins. -/
theorem pinOf_eq_none {c : Config} {f : BitVec 5} (hc : c.nPins ≤ Config.maxPins) :
    pinOf c f = none ↔ c.nPins ≤ f.toNat := by
  by_cases h : f.toNat < c.nPins
  · simp [pinOf, h, Nat.lt_of_lt_of_le h hc]
  · simp [pinOf, h, Nat.le_of_not_lt h]

theorem pinOf_of_le {c : Config} {f : BitVec 5} (h : c.nPins ≤ f.toNat) : pinOf c f = none := by
  simp [pinOf, Nat.not_lt_of_le h]

theorem selOf_eq_some {c : Config} {f : BitVec 4} {i : SpiIx} :
    selOf c f = some i ↔ f.toNat = i.val ∧ i.val < c.nSpi := by
  unfold selOf
  split
  · rename_i h
    simp only [Option.some.injEq, Fin.ext_iff]
    exact ⟨fun e => ⟨e, by omega⟩, fun e => e.1⟩
  · rename_i h
    constructor
    · intro e; cases e
    · intro e; exact absurd (by omega) h

theorem selOf_eq_none {c : Config} {f : BitVec 4} : selOf c f = none ↔ c.nSpi ≤ f.toNat := by
  by_cases h : f.toNat < c.nSpi
  · simp [selOf, h]
  · simp [selOf, h, Nat.le_of_not_lt h]

/-- Writing one pin's compare register leaves every other pin's, on a legal instance (R120, R122, R134). -/
theorem State.cmpreg_setCmpreg_ne (s : State) {p q : Pin} (v : Half) (hc : s.cfg.Legal) (hp : p.val < s.cfg.nPins)
    (hq : q.val < s.cfg.nPins) (h : q ≠ p) : (s.setCmpreg p v).cmpreg q = s.cmpreg q := by
  show ((s.setCmpreg p v).chan (s.chanOf q)).cmp (s.sliceOf q) = (s.chan (s.chanOf q)).cmp (s.sliceOf q)
  unfold State.setCmpreg
  by_cases hch : s.chanOf q = s.chanOf p
  · have hx : s.sliceOf q ≠ s.sliceOf p := fun hx => h (hc.bind_injective q p hq hp (Prod.ext hch hx))
    rw [hch, State.chan_setChan_same, Channel.cmp_setCmp_ne _ _ hx]
  · rw [State.chan_setChan_ne _ _ hch]

@[simp] theorem State.cmpreg_setCmpreg_same (s : State) (p : Pin) (v : Half) :
    (s.setCmpreg p v).cmpreg p = PwmReg.of v := by
  show ((s.setCmpreg p v).chan (s.chanOf p)).cmp (s.sliceOf p) = PwmReg.of v
  simp [State.setCmpreg]

/-! ### Transmit FIFO -/

theorem SpiPort.fifoPush_eq_some {depth : Nat} {p p' : SpiPort} {w : Half} :
    p.fifoPush depth w = some p' ↔ p.fifo.length < depth ∧ p' = { p with fifo := p.fifo ++ [w] } := by
  unfold SpiPort.fifoPush SpiPort.fifoCount
  split <;> simp_all [eq_comm]

theorem SpiPort.fifoPush_eq_none {depth : Nat} {p : SpiPort} {w : Half} :
    p.fifoPush depth w = none ↔ depth ≤ p.fifo.length := by
  unfold SpiPort.fifoPush SpiPort.fifoCount
  split <;> simp_all

theorem SpiPort.tnf_iff {depth : Nat} {p : SpiPort} : p.tnf depth = true ↔ p.fifo.length < depth := by
  unfold SpiPort.tnf SpiPort.fifoCount
  exact decide_eq_true_iff

theorem SpiPort.bsy_eq_false {p : SpiPort} : p.bsy = false ↔ p.fifo = [] ∧ p.sh = .empty := by
  unfold SpiPort.bsy SpiPort.fifoCount
  rw [Bool.or_eq_false_iff, decide_eq_false_iff_not, decide_eq_false_iff_not, not_not, Nat.not_lt,
    Nat.le_zero, List.length_eq_zero_iff]

/-! ### The register map -/

theorem mapAt_pwm : ∀ x : Chan, mapAt (Reg.pwmCsr x).offset = some (.pwmCsr x) ∧
    mapAt (Reg.pwmTop x).offset = some (.pwmTop x) ∧ mapAt (Reg.pwmCmpA x).offset = some (.pwmCmpA x) ∧
    mapAt (Reg.pwmCmpB x).offset = some (.pwmCmpB x) := by decide

theorem mapAt_pinCtrl : ∀ p : Pin, mapAt (Reg.pinCtrl p).offset = some (.pinCtrl p) := by decide

theorem mapAt_spi : ∀ i : SpiIx, mapAt (Reg.spiCr i).offset = some (.spiCr i) ∧
    mapAt (Reg.spiCpsr i).offset = some (.spiCpsr i) ∧ mapAt (Reg.spiSr i).offset = some (.spiSr i) := by decide

theorem mapAt_col (k : Fin Config.maxCol) : mapAt (Reg.col k).offset = some (.col k) := by
  have hk : k.val < 1024 := k.isLt
  show mapAt (0x1000 + 4 * k.val) = _
  unfold mapAt
  rw [if_neg (by omega), if_neg (by omega), if_neg (by omega), if_neg (by omega), if_neg (by omega), dif_pos (by omega)]
  exact congrArg (fun x => some (Reg.col x)) (Fin.ext (by show (0x1000 + 4 * k.val - 0x1000) / 4 = k.val; omega))

theorem mapAt_buf (j : Fin Config.maxBuf) : mapAt (Reg.buf j).offset = some (.buf j) := by
  have hj : j.val < 32768 := j.isLt
  have h4 : (0x10000 + 4 * j.val - 0x10000) / 4 = j.val := by omega
  show mapAt (0x10000 + 4 * j.val) = _
  unfold mapAt
  rw [if_neg (by omega), if_neg (by omega), if_neg (by omega), if_neg (by omega), if_neg (by omega), dif_neg (by omega),
    if_neg (by omega), dif_pos (h4.trans_lt hj)]
  exact congrArg (fun x => some (Reg.buf x)) (Fin.ext h4)

/-- Every register stands at its own offset on the widest instance (R21). -/
theorem mapAt_offset (r : Reg) : mapAt r.offset = some r := by
  cases r with
  | pwmCsr x => exact (mapAt_pwm x).1
  | pwmTop x => exact (mapAt_pwm x).2.1
  | pwmCmpA x => exact (mapAt_pwm x).2.2.1
  | pwmCmpB x => exact (mapAt_pwm x).2.2.2
  | pinCtrl p => exact mapAt_pinCtrl p
  | spiCr i => exact (mapAt_spi i).1
  | spiCpsr i => exact (mapAt_spi i).2.1
  | spiSr i => exact (mapAt_spi i).2.2
  | col k => exact mapAt_col k
  | buf j => exact mapAt_buf j
  | _ => rfl

/-- A register the instance has is what stands at its own offset (R21). -/
theorem regAt_offset {c : Config} {r : Reg} (h : r.present c = true) : regAt c r.offset = some r := by
  simp only [regAt, mapAt_offset, Option.filter, h, if_true]

/-- An access the bus takes is an aligned 32-bit one and names a register the instance has (R61, R63). -/
theorem decodeAddress_ok {c : Config} {off size : Nat} {r : Reg} (h : decodeAddress c off size = .ok r) :
    size = 4 ∧ off % 4 = 0 ∧ r.present c = true ∧ mapAt off = some r := by
  unfold decodeAddress at h
  split at h
  · cases h
  · split at h
    · cases h
    · rename_i h4 ha
      split at h
      · cases h
      · rename_i r' hr
        cases h
        rw [regAt, Option.filter_eq_some_iff] at hr
        exact ⟨not_not.1 h4, not_not.1 ha, hr.2, hr.1⟩

/-- Nothing is mapped for a register the instance has not (R63, R69). -/
theorem regAt_absent {c : Config} {r : Reg} (h : r.present c = false) : regAt c r.offset = none := by
  simp [regAt, mapAt_offset, Option.filter, h]

/-! ### The solver's scans -/

/-- What the first scan finds from `q` on: an accepted value reached by even steps, all those before it rejected. -/
theorem scanPrescale_some {clk baud fuel q r : Nat} (h : scanPrescale clk baud fuel q = some r) :
    q ≤ r ∧ r % 2 = q % 2 ∧ r < q + 2 * fuel ∧ clk < (r + 2) * 256 * baud ∧
      ∀ q', q ≤ q' → q' < r → q' % 2 = q % 2 → (q' + 2) * 256 * baud ≤ clk := by
  induction fuel generalizing q with
  | zero => cases h
  | succ fuel ih =>
    unfold scanPrescale at h
    split at h
    · rename_i hq
      cases h
      exact ⟨le_refl _, rfl, by omega, hq, fun q' h1 h2 => absurd h1 (by omega)⟩
    · rename_i hq
      obtain ⟨h1, h2, h3, h4, h5⟩ := ih h
      refine ⟨by omega, by omega, by omega, h4, ?_⟩
      intro q' hq1 hq2 hq3
      rcases Nat.eq_or_lt_of_le hq1 with rfl | hlt
      · omega
      · exact h5 q' (by omega) hq2 (by omega)

/-- The first scan finds nothing exactly when it rejects every value it looks at. -/
theorem scanPrescale_none {clk baud fuel q : Nat} (h : scanPrescale clk baud fuel q = none) :
    ∀ k, k < fuel → (q + 2 * k + 2) * 256 * baud ≤ clk := by
  induction fuel generalizing q with
  | zero => intro k hk; omega
  | succ fuel ih =>
    unfold scanPrescale at h
    split at h
    · cases h
    · rename_i hq
      intro k hk
      cases k with
      | zero => simpa using Nat.le_of_not_lt hq
      | succ k =>
        have := ih h k (by omega)
        rwa [show q + 2 * (k + 1) + 2 = q + 2 + 2 * k + 2 by omega]

/-- What the second scan answers from `d` on: 0 or an accepted value, all those above it rejected. -/
theorem scanPostdiv_spec (clk baud prescale d : Nat) :
    scanPostdiv clk baud prescale d ≤ d ∧
      (1 ≤ scanPostdiv clk baud prescale d → baud < clk / (prescale * scanPostdiv clk baud prescale d)) ∧
      ∀ e, scanPostdiv clk baud prescale d < e → e ≤ d → clk / (prescale * e) ≤ baud := by
  induction d with
  | zero => exact ⟨le_refl _, by simp [scanPostdiv], fun e h1 h2 => by omega⟩
  | succ d ih =>
    unfold scanPostdiv
    split
    · rename_i h
      exact ⟨le_refl _, fun _ => h, fun e h1 h2 => by omega⟩
    · rename_i h
      obtain ⟨h1, h2, h3⟩ := ih
      refine ⟨by omega, h2, ?_⟩
      intro e he1 he2
      rcases Nat.eq_or_lt_of_le he2 with rfl | hlt
      · omega
      · exact h3 e he1 (by omega)

/-! ### The shifter -/

/-- Everything a shifter's step can be (R155): nothing, because it has no clock or no work or is in a state the
spec gives no step for; a load; the shift of one bit; or the finish of a frame. -/
theorem SpiPort.shifterStep_cases (p : SpiPort) :
    p.shifterStep = p ∨
    (p.clocked = true ∧ ∃ w rest, p.sh = .empty ∧ p.fifo = w :: rest ∧
      p.shifterStep = { p with fifo := rest, sh := .holding w p.dss.toNat 0 }) ∨
    (p.clocked = true ∧ ∃ w n sent, p.sh = .holding w n sent ∧ sent < n ∧
      p.shifterStep = { p with sdo := w.getLsbD (n - 1 - sent), sh := .holding w n (sent + 1) }) ∨
    (p.clocked = true ∧ ∃ w n, p.sh = .holding w n n ∧
      p.shifterStep =
        { p with
          txlog := p.txlog ++ [⟨n, lowBits n w⟩], sh := .empty, sdo := p.sdo && decide (0 < p.fifo.length) }) := by
  unfold SpiPort.shifterStep
  split
  · rename_i hc
    split
    · rename_i hsh
      unfold SpiPort.load SpiPort.fifoPop
      cases hf : p.fifo with
      | nil => exact .inl rfl
      | cons w rest => exact .inr (.inl ⟨hc, w, rest, hsh, rfl, rfl⟩)
    · rename_i w n sent hsh
      unfold SpiPort.shift
      split
      · rename_i hlt
        exact .inr (.inr (.inl ⟨hc, w, n, sent, hsh, hlt, rfl⟩))
      · split
        · rename_i _ heq
          subst heq
          exact .inr (.inr (.inr ⟨hc, w, sent, hsh, rfl⟩))
        · exact .inl rfl
  · exact .inl rfl

/-- Without a clock a shifter has no step. -/
theorem SpiPort.shifterStep_stopped {p : SpiPort} (h : p.clocked = false) : p.shifterStep = p := by
  simp [SpiPort.shifterStep, h]

/-! ### The counter -/

@[simp] theorem Channel.tick_en (ch : Channel) : ch.tick.en = ch.en := by
  unfold Channel.tick; split <;> [split; skip] <;> rfl

@[simp] theorem Channel.tick_top (ch : Channel) : ch.tick.top = ch.top := by
  unfold Channel.tick; split <;> [split; skip] <;> rfl

@[simp] theorem Channel.tick_cmp (ch : Channel) (x : Slice) : ch.tick.cmp x = ch.cmp x := by
  cases x <;> (unfold Channel.tick; split <;> [split; skip] <;> rfl)

end Sys2Proof.Machine
end

