-- ==== Sys2Proof/Laws/Exec.lean ====
section
/-! SUPPORT. What each command can do, said once: it fails with one of its codes and is then nothing but the
record, or it has its effect. Proofs about `exec` cite these instead of unfolding a meaning. -/

namespace Sys2Proof.Machine

/-- PWM.SETP's scaling never fails: its input range is `0 .. 1` (R126, R215). -/
theorem scalePercent_ok (c : Config) (x : Flt) : ∃ y, scalePercent c x = .ok y := by
  have h := Flt.one_ne_zero c.floatFormat
  exact ⟨_, by unfold scalePercent rescaleFlt; rw [h]; rfl⟩

theorem execPwmStart_cases (pin : BitVec 5) (init : BitVec 16) (s : State) :
    (pinOf s.cfg pin = none ∧ execPwmStart pin init s = .next (s.complete .badPin)) ∨
    ∃ p : Pin, pin.toNat = p.val ∧ p.val < s.cfg.nPins ∧
      execPwmStart pin init s =
        .next ((((s.setTop (s.chanOf p) s.cfg.pwmTop).setCmpreg p init).enableChan (s.chanOf p)).complete .ok) := by
  unfold execPwmStart
  cases hp : pinOf s.cfg pin with
  | none => exact .inl ⟨rfl, rfl⟩
  | some p => exact .inr ⟨p, (pinOf_eq_some.1 hp).1, (pinOf_eq_some.1 hp).2, rfl⟩

theorem execPwmSet_cases (pin : BitVec 5) (raw : BitVec 16) (s : State) :
    (pinOf s.cfg pin = none ∧ execPwmSet pin raw s = .next (s.complete .badPin)) ∨
    ∃ p : Pin, pin.toNat = p.val ∧ p.val < s.cfg.nPins ∧ execPwmSet pin raw s = .next ((s.setCmpreg p raw).complete .ok) := by
  unfold execPwmSet
  cases hp : pinOf s.cfg pin with
  | none => exact .inl ⟨rfl, rfl⟩
  | some p => exact .inr ⟨p, (pinOf_eq_some.1 hp).1, (pinOf_eq_some.1 hp).2, rfl⟩

theorem execPwmSetp_cases (pin : BitVec 5) (s : State) :
    (pinOf s.cfg pin = none ∧ execPwmSetp pin s = .next (s.complete .badPin)) ∨
    ∃ p : Pin, pin.toNat = p.val ∧ p.val < s.cfg.nPins ∧ ∃ f, scalePercent s.cfg s.percent = .ok f ∧
      ((∃ raw, toU16 s.cfg f = some raw ∧ execPwmSetp pin s = .next ((s.setCmpreg p raw).complete .ok)) ∨
       (toU16 s.cfg f = none ∧
        execPwmSetp pin s = .next ((s.takeDraw.setCmpreg p (Config.freeCompare s.draws)).complete .ok))) := by
  unfold execPwmSetp
  cases hp : pinOf s.cfg pin with
  | none => exact .inl ⟨rfl, rfl⟩
  | some p =>
    obtain ⟨f, hf⟩ := scalePercent_ok s.cfg s.percent
    refine .inr ⟨p, (pinOf_eq_some.1 hp).1, (pinOf_eq_some.1 hp).2, f, hf, ?_⟩
    simp only [hf]
    cases hu : toU16 s.cfg f with
    | none => exact .inr ⟨rfl, rfl⟩
    | some raw => exact .inl ⟨raw, rfl, rfl⟩

theorem execSpiSolve_cases (s : State) :
    (solvePrescale s.arg0.toNat s.arg1.toNat = none ∧ execSpiSolve s = .next (s.complete .unreachableBaudRate)) ∨
    ∃ q, solvePrescale s.arg0.toNat s.arg1.toNat = some q ∧
      execSpiSolve s =
        .next ((s.setRet0 (packDivider q (solvePostdiv s.arg0.toNat s.arg1.toNat q))).complete .ok) := by
  unfold execSpiSolve
  cases hq : solvePrescale s.arg0.toNat s.arg1.toNat with
  | none => exact .inl ⟨rfl, rfl⟩
  | some q => exact .inr ⟨q, rfl, rfl⟩

theorem execSpiApply_cases (sel : BitVec 4) (prescale postdiv : BitVec 8) (s : State) :
    (∃ k, (k = .badSelector ∨ k = .badDivider) ∧ execSpiApply sel prescale postdiv s = .next (s.complete k)) ∨
    ∃ i, selOf s.cfg sel = some i ∧ 2 ≤ prescale.toNat ∧ prescale.toNat % 2 = 0 ∧
      execSpiApply sel prescale postdiv s =
        .next ((s.setPort i { s.port i with cpsdvsr := prescale, scr := postdiv }).complete .ok) := by
  unfold execSpiApply
  cases hi : selOf s.cfg sel with
  | none => exact .inl ⟨_, .inl rfl, rfl⟩
  | some i =>
    cases hq : prescaleOk prescale with
    | false => exact .inl ⟨_, .inr rfl, by simp⟩
    | true =>
      simp only [prescaleOk, Bool.and_eq_true, decide_eq_true_eq] at hq
      exact .inr ⟨i, rfl, hq.1, hq.2, by simp⟩

/-- SPI.SEND fails, completes at once because there is no word, or enters its loop. -/
theorem execSpiSend_cases (dss sel : BitVec 4) (count : BitVec 16) (s : State) :
    (∃ k, (k = .badFrameSize ∨ k = .badSelector ∨ k = .bufferSize) ∧
      execSpiSend dss sel count s = .next (s.complete k)) ∨
    ∃ i, selOf s.cfg sel = some i ∧ 3 ≤ dss.toNat ∧ count.toNat ≤ s.cfg.bufCap ∧
      ((count.toNat = 0 ∧
        execSpiSend dss sel count s = .next ((s.setPort i ((s.port i).configure dss)).complete .ok)) ∨
       (0 < count.toNat ∧
        execSpiSend dss sel count s =
          .next ((s.setPort i ((s.port i).configure dss)).setSeq (.sending i count.toNat 0 .push)))) := by
  unfold execSpiSend
  cases hd : frameSizeOk dss with
  | false => exact .inl ⟨_, .inl rfl, by simp⟩
  | true =>
    have hd' : 3 ≤ dss.toNat := by simpa [frameSizeOk] using hd
    cases hi : selOf s.cfg sel with
    | none => exact .inl ⟨_, .inr (.inl rfl), by simp⟩
    | some i =>
      by_cases hc : s.cfg.bufCap < count.toNat
      · exact .inl ⟨_, .inr (.inr rfl), by simp [hc]⟩
      · refine .inr ⟨i, rfl, hd', Nat.le_of_not_lt hc, ?_⟩
        by_cases h0 : count.toNat = 0
        · exact .inl ⟨h0, by simp [h0]⟩
        · exact .inr ⟨Nat.pos_of_ne_zero h0, by simp [h0, hc]⟩

theorem execGpioSet_cases (pin : BitVec 5) (mode : BitVec 2) (s : State) :
    (∃ k, (k = .badPin ∨ k = .illegalCommand) ∧ execGpioSet pin mode s = .next (s.complete k)) ∨
    ∃ p v, pinOf s.cfg pin = some p ∧ pinval mode = some v ∧
      execGpioSet pin mode s = .next ((s.setPinCtrl p v).complete .ok) := by
  unfold execGpioSet
  cases hp : pinOf s.cfg pin with
  | none => exact .inl ⟨_, .inl rfl, rfl⟩
  | some p =>
    cases hv : pinval mode with
    | none => exact .inl ⟨_, .inr rfl, rfl⟩
    | some v => exact .inr ⟨p, v, rfl, rfl, rfl⟩

/-- LED.ENCODE fails, meets a colour nothing has written, or writes the bitstream. -/
theorem execLedEncode_cases (count : BitVec 16) (s : State) :
    (execLedEncode count s = .next (s.complete .bufferSize)) ∨
    (count.toNat ≤ s.cfg.colCap ∧ s.arg0.toNat = encodedLength count.toNat ∧
      encodedLength count.toNat ≤ s.cfg.bufCap ∧
      ((∃ k, s.col.readRange 0 count.toNat = .error k ∧ execLedEncode count s = .fault (.unwrittenColour k)) ∨
       ∃ colours, s.col.readRange 0 count.toNat = .ok colours ∧
        execLedEncode count s =
          .next (((s.setBuf (s.buf.putAll 0 (encodeFrame s.cfg colours))).setEncLen
            (BitVec.ofNat 16 (encodedLength count.toNat))).complete .ok))) := by
  unfold execLedEncode
  by_cases h1 : s.cfg.colCap < count.toNat
  · exact .inl (by simp [h1])
  by_cases h2 : s.arg0.toNat = encodedLength count.toNat
  swap
  · exact .inl (by simp [h2])
  by_cases h3 : s.cfg.bufCap < encodedLength count.toNat
  · exact .inl (by simp [h3])
  refine .inr ⟨Nat.le_of_not_lt h1, h2, Nat.le_of_not_lt h3, ?_⟩
  simp only [h1, h2, h3, ne_eq, not_true_eq_false, if_false]
  cases hr : s.col.readRange 0 count.toNat with
  | error k => exact .inl ⟨k, rfl, rfl⟩
  | ok colours => exact .inr ⟨colours, rfl, rfl⟩

/-- The length of an encoded frame (R186). -/
theorem length_encodeFrame (c : Config) (colours : List Colour) :
    (encodeFrame c colours).length = encodedLength colours.length := by
  have h : ∀ l : List Colour, (l.map (expand24 c)).flatten.length = 24 * l.length := by
    intro l
    induction l with
    | nil => rfl
    | cons x l ih => simp [expand24] at ih ⊢; omega
  have := h colours
  simp only [encodeFrame, encodedLength, List.length_append, this]
  rfl

/-- No command moves the host, the schedule, the reset count or the parameters, or writes an operand register or `COL` (R22,
R84); and none but the exec of a send moves the sequencer. -/
theorem exec_keeps_environment {i : Instr} {s t : State} (h : exec i s = .next t) :
    t.arg0 = s.arg0 ∧ t.arg1 = s.arg1 ∧ t.col = s.col ∧ t.host = s.host ∧ t.turns = s.turns ∧
      t.epoch = s.epoch ∧ t.cfg = s.cfg := by
  cases i with
  | pwmStart pin init =>
    rcases execPwmStart_cases pin init s with ⟨-, e⟩ | ⟨p, -, -, e⟩ <;> (rw [exec, e] at h; cases h; exact ⟨rfl, rfl, rfl, rfl, rfl, rfl, rfl⟩)
  | pwmSet pin raw =>
    rcases execPwmSet_cases pin raw s with ⟨-, e⟩ | ⟨p, -, -, e⟩ <;> (rw [exec, e] at h; cases h; exact ⟨rfl, rfl, rfl, rfl, rfl, rfl, rfl⟩)
  | pwmSetp pin =>
    rcases execPwmSetp_cases pin s with ⟨-, e⟩ | ⟨p, -, -, f, -, ⟨raw, -, e⟩ | ⟨-, e⟩⟩ <;>
      (rw [exec, e] at h; cases h; exact ⟨rfl, rfl, rfl, rfl, rfl, rfl, rfl⟩)
  | spiSolve =>
    rcases execSpiSolve_cases s with ⟨-, e⟩ | ⟨q, -, e⟩ <;> (rw [exec, e] at h; cases h; exact ⟨rfl, rfl, rfl, rfl, rfl, rfl, rfl⟩)
  | spiApply sel prescale postdiv =>
    rcases execSpiApply_cases sel prescale postdiv s with ⟨k, -, e⟩ | ⟨i, -, -, -, e⟩ <;>
      (rw [exec, e] at h; cases h; exact ⟨rfl, rfl, rfl, rfl, rfl, rfl, rfl⟩)
  | spiSend dss sel count =>
    rcases execSpiSend_cases dss sel count s with ⟨k, -, e⟩ | ⟨i, -, -, -, ⟨-, e⟩ | ⟨-, e⟩⟩ <;>
      (rw [exec, e] at h; cases h; exact ⟨rfl, rfl, rfl, rfl, rfl, rfl, rfl⟩)
  | gpioSet pin mode =>
    rcases execGpioSet_cases pin mode s with ⟨k, -, e⟩ | ⟨p, v, -, -, e⟩ <;>
      (rw [exec, e] at h; cases h; exact ⟨rfl, rfl, rfl, rfl, rfl, rfl, rfl⟩)
  | ledEncode count =>
    rcases execLedEncode_cases count s with e | ⟨-, -, -, ⟨k, -, e⟩ | ⟨colours, -, e⟩⟩ <;>
      (rw [exec, e] at h; cases h; try exact ⟨rfl, rfl, rfl, rfl, rfl, rfl, rfl⟩)

end Sys2Proof.Machine
end

