-- ==== Sys2Proof/Laws/Map.lean ====
section
/-! SUPPORT. The register map the bus decodes is the table of R21, in both directions. -/

namespace Sys2Proof.Machine

/-- A row of the table is a register the instance has, at its offset. -/
theorem mapRow_iff {c : Config} {off : Nat} {r : Reg} : MapRow c off r ↔ r.present c = true ∧ r.offset = off := by
  constructor
  · intro h
    cases h <;> simp_all [Reg.present, Reg.offset]
  · rintro ⟨h, rfl⟩
    cases r <;> (constructor <;> simpa [Reg.present] using h)

/-- At the offset of a row the bus finds that row's register. -/
theorem MapRow.regAt_eq {c : Config} {off : Nat} {r : Reg} (h : MapRow c off r) : regAt c off = some r := by
  obtain ⟨hp, rfl⟩ := mapRow_iff.1 h
  exact regAt_offset hp

/-- An offset has at most one register. -/
theorem MapRow.unique {c : Config} {off : Nat} {r r' : Reg} (h : MapRow c off r) (h' : MapRow c off r') : r = r' :=
  Option.some.inj (h.regAt_eq.symm.trans h'.regAt_eq)

theorem offset_of_controlRegAt {off : Nat} {r : Reg} (h : controlRegAt off = some r) : r.offset = off := by
  unfold controlRegAt at h
  repeat' split at h
  all_goals cases h <;> (simp only [Reg.offset]; omega)

theorem offset_of_pwmRegAt {c : Chan} {b : Nat} {r : Reg} (h : pwmRegAt c b = some r) :
    r.offset = 0x100 + 0x10 * c.val + b := by
  unfold pwmRegAt at h
  repeat' split at h
  all_goals cases h <;> (simp only [Reg.offset]; omega)

theorem offset_of_spiRegAt {i : SpiIx} {b : Nat} {r : Reg} (h : spiRegAt i b = some r) :
    r.offset = 0x300 + 0x10 * i.val + b := by
  unfold spiRegAt at h
  repeat' split at h
  all_goals cases h <;> (simp only [Reg.offset]; omega)

/-- What the bus finds at an aligned offset stands there. -/
theorem offset_of_mapAt {off : Nat} {r : Reg} (hoff : off % 4 = 0) (h : mapAt off = some r) : r.offset = off := by
  unfold mapAt at h
  split at h
  · exact offset_of_controlRegAt h
  split at h
  · split at h
    · have := offset_of_pwmRegAt h
      simp only at this
      omega
    · cases h
  split at h
  · split at h <;> cases h
    simp only [Reg.offset]
    omega
  split at h
  · split at h
    · have := offset_of_spiRegAt h
      simp only at this
      omega
    · cases h
  split at h
  · cases h
  split at h
  · cases h
    simp only [Reg.offset]
    omega
  split at h
  · cases h
  split at h <;> cases h
  simp only [Reg.offset]
  omega

/-- The bus finds a register at an aligned offset exactly where the table has it. -/
theorem regAt_eq_some_iff {c : Config} {off : Nat} {r : Reg} (hoff : off % 4 = 0) :
    regAt c off = some r ↔ MapRow c off r := by
  refine ⟨fun h => ?_, MapRow.regAt_eq⟩
  rw [regAt, Option.filter_eq_some_iff] at h
  exact mapRow_iff.2 ⟨h.2, offset_of_mapAt hoff h.1⟩

/-- The bus refuses an aligned access as unmapped where the table has no row. -/
theorem regAt_eq_none {c : Config} {off : Nat} (hoff : off % 4 = 0) (h : ∀ r, ¬ MapRow c off r) :
    regAt c off = none := by
  rw [Option.eq_none_iff_forall_ne_some]
  exact fun r hr => h r ((regAt_eq_some_iff hoff).1 hr)

end Sys2Proof.Machine
end

