-- ==== Sys2Proof/Laws/PerInstr.lean ====
section
/-! SUPPORT. Statements made per command, one lemma each. `EncodeSelectsRow`: the word a command is encoded as is
selected by the command's own row of the opcode map (R83), whatever its operands. -/

namespace Sys2Proof.Laws

/-- The row of the opcode map a command belongs to (R83). -/
def rowOf : Instr → Row
  | .pwmStart _ _ => rowPwmStart
  | .pwmSet _ _ => rowPwmSet
  | .pwmSetp _ => rowPwmSetp
  | .spiSolve => rowSpiSolve
  | .spiApply _ _ _ => rowSpiApply
  | .spiSend _ _ _ => rowSpiSend
  | .gpioSet _ _ => rowGpioSet
  | .ledEncode _ => rowLedEncode

namespace EncodeSelectsRow

def Statement (i : Instr) : Prop := (rowOf i).selects (encode i) = true

theorem pwmStart (pin : BitVec 5) (init : BitVec 16) : Statement (.pwmStart pin init) := by
  have hm : 0xFFE00000#32 = (0xff#8 ++ 0x7#3 ++ 0#5 ++ 0#16 : BitVec (8+3+5+16)) := by decide
  have hp : 0x21000000#32 = (0x21#8 ++ 0#3 ++ 0#5 ++ 0#16 : BitVec (8+3+5+16)) := by decide
  unfold Statement rowOf Row.selects rowPwmStart encode
  rw [beq_iff_eq]
  refine Eq.trans (congrArg _ hm) (Eq.trans ?_ hp.symm)
  refine Eq.trans (BitVec.and_append (w := 8+3+5) (v := 16)) ?_
  rw [BitVec.and_append, BitVec.and_append]
  simp

theorem pwmSet (pin : BitVec 5) (raw : BitVec 16) : Statement (.pwmSet pin raw) := by
  have hm : 0xFFE00000#32 = (0xff#8 ++ 0x7#3 ++ 0#5 ++ 0#16 : BitVec (8+3+5+16)) := by decide
  have hp : 0x22000000#32 = (0x22#8 ++ 0#3 ++ 0#5 ++ 0#16 : BitVec (8+3+5+16)) := by decide
  unfold Statement rowOf Row.selects rowPwmSet encode
  rw [beq_iff_eq]
  refine Eq.trans (congrArg _ hm) (Eq.trans ?_ hp.symm)
  refine Eq.trans (BitVec.and_append (w := 8+3+5) (v := 16)) ?_
  rw [BitVec.and_append, BitVec.and_append]
  simp

theorem pwmSetp (pin : BitVec 5) : Statement (.pwmSetp pin) := by
  have hm : 0xFFE0FFFF#32 = (0xff#8 ++ 0x7#3 ++ 0#5 ++ 0xffff#16 : BitVec (8+3+5+16)) := by decide
  have hp : 0x23000000#32 = (0x23#8 ++ 0#3 ++ 0#5 ++ 0#16 : BitVec (8+3+5+16)) := by decide
  unfold Statement rowOf Row.selects rowPwmSetp encode
  rw [beq_iff_eq]
  refine Eq.trans (congrArg _ hm) (Eq.trans ?_ hp.symm)
  refine Eq.trans (BitVec.and_append (w := 8+3+5) (v := 16)) ?_
  rw [BitVec.and_append, BitVec.and_append]
  simp

theorem spiSolve : Statement (.spiSolve) := by
  unfold Statement
  decide

theorem spiApply (sel : BitVec 4) (prescale postdiv : BitVec 8) : Statement (.spiApply sel prescale postdiv) := by
  have hm : 0xFFF00000#32 = (0xff#8 ++ 0xf#4 ++ 0#4 ++ 0#8 ++ 0#8 : BitVec (8+4+4+8+8)) := by decide
  have hp : 0x32000000#32 = (0x32#8 ++ 0#4 ++ 0#4 ++ 0#8 ++ 0#8 : BitVec (8+4+4+8+8)) := by decide
  unfold Statement rowOf Row.selects rowSpiApply encode
  rw [beq_iff_eq]
  refine Eq.trans (congrArg _ hm) (Eq.trans ?_ hp.symm)
  refine Eq.trans (BitVec.and_append (w := 8+4+4+8) (v := 8)) ?_
  rw [BitVec.and_append, BitVec.and_append, BitVec.and_append]
  simp

theorem spiSend (dss sel : BitVec 4) (count : BitVec 16) : Statement (.spiSend dss sel count) := by
  have hm : 0xFF000000#32 = (0xff#8 ++ 0#4 ++ 0#4 ++ 0#16 : BitVec (8+4+4+16)) := by decide
  have hp : 0x33000000#32 = (0x33#8 ++ 0#4 ++ 0#4 ++ 0#16 : BitVec (8+4+4+16)) := by decide
  unfold Statement rowOf Row.selects rowSpiSend encode
  rw [beq_iff_eq]
  refine Eq.trans (congrArg _ hm) (Eq.trans ?_ hp.symm)
  refine Eq.trans (BitVec.and_append (w := 8+4+4) (v := 16)) ?_
  rw [BitVec.and_append, BitVec.and_append]
  simp

theorem gpioSet (pin : BitVec 5) (mode : BitVec 2) : Statement (.gpioSet pin mode) := by
  have hm : 0xFFE0FFFC#32 = (0xff#8 ++ 0x7#3 ++ 0#5 ++ 0x3fff#14 ++ 0#2 : BitVec (8+3+5+14+2)) := by decide
  have hp : 0x41000000#32 = (0x41#8 ++ 0#3 ++ 0#5 ++ 0#14 ++ 0#2 : BitVec (8+3+5+14+2)) := by decide
  unfold Statement rowOf Row.selects rowGpioSet encode
  rw [beq_iff_eq]
  refine Eq.trans (congrArg _ hm) (Eq.trans ?_ hp.symm)
  refine Eq.trans (BitVec.and_append (w := 8+3+5+14) (v := 2)) ?_
  rw [BitVec.and_append, BitVec.and_append, BitVec.and_append]
  simp

theorem ledEncode (count : BitVec 16) : Statement (.ledEncode count) := by
  have hm : 0xFFFF0000#32 = (0xff#8 ++ 0xff#8 ++ 0#16 : BitVec (8+8+16)) := by decide
  have hp : 0x51000000#32 = (0x51#8 ++ 0#8 ++ 0#16 : BitVec (8+8+16)) := by decide
  unfold Statement rowOf Row.selects rowLedEncode encode
  rw [beq_iff_eq]
  refine Eq.trans (congrArg _ hm) (Eq.trans ?_ hp.symm)
  refine Eq.trans (BitVec.and_append (w := 8+8) (v := 16)) ?_
  rw [BitVec.and_append]
  simp

end EncodeSelectsRow

end Sys2Proof.Laws
end

