-- ==== Sys2Proof/Laws/Step.lean ====
section
/-! SUPPORT. What a step can be, said once: the inversion of the host's turn and of the sequencer's, and the step
of a state whose next turn is known. Invariant proofs go through these. -/

namespace Sys2Proof.Machine

/-- With no turn scheduled nothing moves. -/
theorem step_nil {s : State} (h : s.turns = []) : step s = .next s := by
  unfold step; rw [h]

/-- The step of a state is the first turn of its schedule, taken in the state without it. -/
theorem step_cons {s : State} {t : Turn} {rest : List Turn} (h : s.turns = t :: rest) :
    step s = turnOf t { s with turns := rest } := by
  unfold step; rw [h]

/-- Everything an access can come to: a refusal, a read, a stored value, an illegal word, a command. -/
theorem issue_cases (a : Access) (s : State) :
    (∃ e, issue a s = .done (s.setReply (.error e))) ∨
    (∃ off size r v, a = .read off size ∧ readReg s r = some v ∧ issue a s = .done (s.setReply (.data v))) ∨
    (∃ off size r v s', a = .write off size v ∧ decodeAddress s.cfg off size = .ok r ∧ writeReg s v r = some s' ∧
      issue a s = .done (s'.setReply .done)) ∨
    (∃ off size w why, a = .write off size w ∧ decode w = .illegal why ∧
      issue a s = .done (s.complete .illegalCommand)) ∨
    (∃ off size w i, a = .write off size w ∧ decodeAddress s.cfg off size = .ok .cmd ∧ decode w = .command i ∧
      issue a s = .run i (s.setReply .pending)) := by
  cases a with
  | read off size =>
    cases hd : decodeAddress s.cfg off size with
    | error e => exact .inl ⟨e, by simp only [issue, hd]⟩
    | ok r =>
      cases hr : readReg s r with
      | none => exact .inl ⟨.writeOnly, by simp only [issue, hd, hr]⟩
      | some v => exact .inr (.inl ⟨off, size, r, v, rfl, hr, by simp only [issue, hd, hr]⟩)
  | write off size v =>
    cases hd : decodeAddress s.cfg off size with
    | error e => exact .inl ⟨e, by simp only [issue, hd]⟩
    | ok r =>
      by_cases hc : r = .cmd
      · subst hc
        cases hw : decode v with
        | illegal why =>
          exact .inr (.inr (.inr (.inl ⟨off, size, v, why, rfl, hw, by simp only [issue, hd, issueCommand, hw]⟩)))
        | command i =>
          exact .inr (.inr (.inr (.inr ⟨off, size, v, i, rfl, hd, hw, by simp only [issue, hd, issueCommand, hw]⟩)))
      · cases hw : writeReg s v r with
        | none =>
          refine .inl ⟨.readOnly, ?_⟩
          cases r <;> first | exact absurd rfl hc | simp only [issue, hd, hw]
        | some s' =>
          refine .inr (.inr (.inl ⟨off, size, r, v, s', rfl, hd, hw, ?_⟩))
          cases r <;> first | exact absurd rfl hc | simp only [issue, hd, hw]

/-- What a host write can store (R65): it is one of four updates. -/
theorem writeReg_cases {s s' : State} {v : Word} {r : Reg} (h : writeReg s v r = some s') :
    s' = s.setArg0 v ∨ s' = s.setArg1 v ∨
    (∃ k : Fin Config.maxCol, r = .col k ∧ s' = s.setCol (s.col.put k.val (v.setWidth 24))) ∨
    (∃ j : Fin Config.maxBuf, r = .buf j ∧ s' = s.setBuf (s.buf.put j.val (v.setWidth 16))) := by
  cases r <;> simp only [writeReg, Option.some.injEq, reduceCtorEq] at h
  · exact .inl h.symm
  · exact .inr (.inl h.symm)
  · exact .inr (.inr (.inl ⟨_, rfl, h.symm⟩))
  · exact .inr (.inr (.inr ⟨_, rfl, h.symm⟩))

/-- A host turn moves nothing while a command runs (R66), and nothing when the host has no access left. -/
theorem hostTurn_held {s : State} (h : s.seq ≠ .idle) : hostTurn s = .next s := by
  unfold hostTurn hostMove
  cases hs : s.seq with
  | idle => exact absurd hs h
  | sending i n idx ph => rfl

theorem hostTurn_nil {s : State} (h : s.host = []) : hostTurn s = .next s := by
  unfold hostTurn hostMove
  cases hs : s.seq with
  | idle => simp only [h]; rfl
  | sending i n idx ph => rfl

/-- An idle block's host issues its first access. -/
theorem hostTurn_cons {s : State} {a : Access} {rest : List Access} (hi : s.seq = .idle) (h : s.host = a :: rest) :
    hostTurn s = (issue a { s with host := rest }).outcome := by
  have e : hostMove s = issue a { s with host := rest } := by
    unfold hostMove
    rw [hi, h]
  unfold hostTurn
  rw [e]

/-- Everything a sequencer's turn that answers a state can be (R152). -/
theorem sequencerTurn_cases {s t : State} (h : sequencerTurn s = .next t) :
    t = s ∨
    (∃ i n idx w, s.seq = .sending i n idx .push ∧ idx < n ∧ s.buf.get idx = some w ∧
      (s.port i).fifo.length < s.cfg.fifoDepth ∧
      t = (s.setPort i { s.port i with fifo := (s.port i).fifo ++ [w] }).setSeq (.sending i n (idx + 1) .wait)) ∨
    (∃ i n idx, s.seq = .sending i n idx .wait ∧ (s.port i).fifo.length < s.cfg.fifoDepth ∧ idx < n ∧
      t = s.setSeq (.sending i n idx .push)) ∨
    (∃ i n idx, s.seq = .sending i n idx .wait ∧ (s.port i).fifo.length < s.cfg.fifoDepth ∧ n ≤ idx ∧
      t = (s.setSeq .idle).complete .ok) := by
  unfold sequencerTurn at h
  split at h
  · cases h; exact .inl rfl
  · rename_i i n idx hs
    unfold sendPush at h
    split at h
    · rename_i hlt
      split at h
      · cases h
      · rename_i w hw
        split at h
        · cases h
        · rename_i p hp
          cases h
          obtain ⟨hlen, rfl⟩ := SpiPort.fifoPush_eq_some.1 hp
          exact .inr (.inl ⟨i, n, idx, w, hs, hlt, hw, hlen, rfl⟩)
    · cases h; exact .inl rfl
  · rename_i i n idx hs
    unfold sendWait at h
    split at h
    · rename_i htnf
      have hlen := SpiPort.tnf_iff.1 htnf
      split at h
      · rename_i hlt
        cases h
        exact .inr (.inr (.inl ⟨i, n, idx, hs, hlen, hlt, rfl⟩))
      · rename_i hlt
        cases h
        exact .inr (.inr (.inr ⟨i, n, idx, hs, hlen, Nat.le_of_not_lt hlt, rfl⟩))
    · cases h; exact .inl rfl

end Sys2Proof.Machine
end

