-- ==== Sys2Proof/Machine/Pseudo.lean ====
section
/-! DEFINITION. What host software issues: the pseudo-commands of R91, each a fixed sequence of bus accesses, and
the mnemonic of a command (R90). A platform lists such accesses in `State.host`. -/

namespace Sys2Proof.Machine

/-- `WR name, value` of R90: an aligned 32-bit write of a register. -/
def wr (r : Reg) (v : Word) : Access := .write r.offset 4 v

/-- `RD name` of R90: an aligned 32-bit read of a register. -/
def rd (r : Reg) : Access := .read r.offset 4

/-- Issues a command (R23). -/
def issued (i : Instr) : Access := wr .cmd (encode i)

/-- `PWM.START pin` with the source's typical initial compare value, zero (R91). -/
def pseudoPwmStart (pin : BitVec 5) : List Access := [issued (.pwmStart pin 0#16)]

/-- `PWM.PERCENT pin, f`, `f` by its bit pattern (R91). -/
def pseudoPwmPercent (pin : BitVec 5) (f : Word) : List Access := [wr .arg0 f, issued (.pwmSetp pin)]

/-- `SPI.BAUD sel, clk, baud` up to the read of `RET0` (R91); software also checks `RESULT` (R246). -/
def pseudoSpiSolve (clk baud : Word) : List Access :=
  [wr .arg0 clk, wr .arg1 baud, issued .spiSolve, rd .result, rd .ret0]

/-- The end of `SPI.BAUD`, from the value software read in `RET0` (R91, R94). -/
def pseudoSpiApply (sel : BitVec 4) (ret0 : Word) : List Access :=
  [issued (.spiApply sel (ret0.extractLsb' 8 8) (ret0.extractLsb' 0 8))]

/-- `LED.SHOW sel, n`, the colours already written (R91); software also checks `RESULT` in between (R246). -/
def pseudoLedShow (sel : BitVec 4) (n : Nat) : List Access :=
  [wr .arg0 (BitVec.ofNat 32 (2 + 24 * n)), issued (.ledEncode (BitVec.ofNat 16 n)), rd .result,
    issued (.spiSend 8#4 sel (BitVec.ofNat 16 (2 + 24 * n)))]

end Sys2Proof.Machine
end

