-- ==== Sys2Proof/Tests/Slice0.lean ====
section
/-! SUPPORT. The model's own tests. Expected values come from the spec: the bit layouts of 30_encoding.md and the
vectors of 95_test_vectors.md, named in each test's comment. Then one witness for every statement of
Obligations.lean that has hypotheses: a state and operands that meet them all. -/

namespace Sys2Proof.Tests

open Sys2Proof.Machine

/-- The outcome is a next state with the property `p`. -/
def nextHas (r : Result) (p : State → Bool) : Bool :=
  match r with
  | .next s => p s
  | .fault _ => false
  | .refused _ => false

/-! ### WellFormed: one ill-formed command for each check -/

theorem test_ill_formed_pin_start : (Instr.pwmStart 31#5 0#16).wellFormed .default = false := by decide
theorem test_ill_formed_pin_set : (Instr.pwmSet 31#5 0#16).wellFormed .default = false := by decide
theorem test_ill_formed_pin_setp : (Instr.pwmSetp 31#5).wellFormed .default = false := by decide
theorem test_ill_formed_apply_sel : (Instr.spiApply 2#4 2#8 7#8).wellFormed .default = false := by decide
theorem test_ill_formed_apply_zero : (Instr.spiApply 0#4 0#8 7#8).wellFormed .default = false := by decide
theorem test_ill_formed_apply_odd : (Instr.spiApply 0#4 3#8 7#8).wellFormed .default = false := by decide
theorem test_ill_formed_send_dss : (Instr.spiSend 2#4 0#4 0#16).wellFormed .default = false := by decide
theorem test_ill_formed_send_sel : (Instr.spiSend 8#4 2#4 0#16).wellFormed .default = false := by decide
theorem test_ill_formed_send_count : (Instr.spiSend 8#4 0#4 1539#16).wellFormed .default = false := by decide
theorem test_ill_formed_gpio_pin : (Instr.gpioSet 31#5 0#2).wellFormed .default = false := by decide
theorem test_ill_formed_gpio_mode : (Instr.gpioSet 7#5 3#2).wellFormed .default = false := by decide
theorem test_well_formed_send : (Instr.spiSend 15#4 1#4 1538#16).wellFormed .default = true := by decide

/-! ### Decoding: words written bit by bit from the formats of R82: opcode, then the fields -/

/-- Format P: `00100001 000 00100 0001001000110100`. -/
theorem test_decode_pwmStart :
    decode 0b00100001000001000001001000110100#32 = .command (.pwmStart 4#5 0x1234#16) := by decide
/-- Format P: `00100010 000 11110 1000000000000000` (95 section 2.7). -/
theorem test_decode_pwmSet :
    decode 0b00100010000111101000000000000000#32 = .command (.pwmSet 30#5 0x8000#16) := by decide
/-- Format F: `00100011 000 00101 0000000000000000`. -/
theorem test_decode_pwmSetp : decode 0b00100011000001010000000000000000#32 = .command (.pwmSetp 5#5) := by decide
/-- Format N: `00110001` and 24 zeros. -/
theorem test_decode_spiSolve : decode 0b00110001000000000000000000000000#32 = .command .spiSolve := by decide
/-- Format A: `00110010 0000 0001 00000010 00000111` (vector A2). -/
theorem test_decode_spiApply :
    decode 0b00110010000000010000001000000111#32 = .command (.spiApply 1#4 2#8 7#8) := by decide
/-- Format T: `00110011 1000 0001 0000000000110010` (program P5). -/
theorem test_decode_spiSend :
    decode 0b00110011100000010000000000110010#32 = .command (.spiSend 8#4 1#4 50#16) := by decide
/-- Format M: `01000001 000 00111 00000000000000 01` (vector G2v). -/
theorem test_decode_gpioSet : decode 0b01000001000001110000000000000001#32 = .command (.gpioSet 7#5 1#2) := by decide
/-- Format E: `01010001 00000000 0000000000000010` (vector E4). -/
theorem test_decode_ledEncode : decode 0b01010001000000000000000000000010#32 = .command (.ledEncode 2#16) := by decide
/-- Reserved bits of formats F and M (95 section 2.7). -/
theorem test_decode_reserved :
    decode 0x23040001#32 = .illegal (.reservedBit 0x23#8) ∧ decode 0x41040004#32 = .illegal (.reservedBit 0x41#8) := by
  decide
/-- An opcode that is in no row (95 section 2.7). -/
theorem test_decode_unknown : decode 0x24000000#32 = .illegal (.unknownOpcode 0x24#8) := by decide
/-- The host's entry to the decoder. -/
theorem test_decodeTableWord :
    decodeTableWord 32 0x32000207 = some (.spiApply 0#4 2#8 7#8) ∧ decodeTableWord 32 0x32100207 = none := by decide

/-! ### Commands -/

/-- W1: PWM.START 4, 0 from reset. -/
theorem test_pwmStart :
    nextHas (exec (.pwmStart 4#5 0#16) State.reset) (fun t =>
      (t.chan 2).en && decide ((t.chan 2).top.value = 0x8000#16) && decide ((t.chan 2).cmpA = ⟨0#16, true⟩) &&
      !(t.chan 2).cmpB.written && decide (t.result = .ok)) = true := by decide
/-- W17: PWM.START 31 as the first failure leaves `STATUS = 0x0201`. -/
theorem test_pwmStart_badPin :
    nextHas (exec (.pwmStart 31#5 0#16) State.reset) (fun t =>
      decide (t.statusWord = 0x0201#32) && decide (t.result = .badPin)) = true := by decide
/-- W3: PWM.SET 5 writes slice B of channel 2. -/
theorem test_pwmSet :
    nextHas (exec (.pwmSet 5#5 0x4000#16) State.reset) (fun t =>
      decide ((t.chan 2).cmpB = ⟨0x4000#16, true⟩) && !(t.chan 2).cmpA.written && !(t.chan 2).en) = true := by decide
/-- W10: 0.1 in binary32 scales to 3276.80004 and truncates to 3276. -/
theorem test_pwmSetp :
    nextHas (exec (.pwmSetp 4#5) (State.reset.setArg0 0x3DCCCCCD#32)) (fun t =>
      decide ((t.chan 2).cmpA = ⟨3276#16, true⟩) && decide (t.draws = 0)) = true := by decide
/-- W12, W14, W15: 2.0, -1/32768 and NaN succeed and draw a value. -/
theorem test_pwmSetp_out_of_range :
    ([0x40000000#32, 0xB8000000#32, 0x7FC00000#32].all fun x =>
      nextHas (exec (.pwmSetp 4#5) (State.reset.setArg0 x)) (fun t =>
        decide (t.result = .ok) && (t.chan 2).cmpA.written && decide (t.draws = 1))) = true := by decide
/-- V1, V16, V9: the divider of 125 MHz and 8.5 MHz; integer division; a second prescale. -/
theorem test_solver :
    (solvePrescale 125000000 8500000, solvePostdiv 125000000 8500000 2) = (some 2, 7) ∧
    (solvePrescale 17 8, solvePostdiv 17 8 2) = (some 2, 0) ∧ solvePrescale 125000000 122070 = some 4 := by
  decide +kernel
/-- V15: 0 and 0 is unreachable, and `RET0` keeps its value. -/
theorem test_spiSolve_unreachable :
    nextHas (exec .spiSolve ((State.reset.setArg0 0#32).setRet0 0x0207#32)) (fun t =>
      decide (t.result = .unreachableBaudRate) && decide (t.ret0 = 0x0207#32)) = true := by decide +kernel
/-- A1: SPI.APPLY 0, 2, 7 from reset. -/
theorem test_spiApply :
    nextHas (exec (.spiApply 0#4 2#8 7#8) State.reset) (fun t =>
      decide ((t.port 0).crWord = 0x00000700#32) && decide ((t.port 0).cpsdvsr = 2#8)) = true := by decide
/-- A6: the selector is checked before the divider. -/
theorem test_spiApply_order :
    nextHas (exec (.spiApply 2#4 3#8 7#8) State.reset) (fun t => decide (t.result = .badSelector)) = true := by decide
/-- P4: SPI.SEND 8, 0, 8 writes `SPI_CR[0] = 0x00030008` and has not completed. -/
theorem test_spiSend :
    nextHas (exec (.spiSend 8#4 0#4 8#16) State.reset) (fun t =>
      decide ((t.port 0).crWord = 0x00030008#32) && decide (t.seq = .sending 0 8 0 .push)) = true := by decide
/-- T6, T7: the frame size before the selector, the selector before the count. -/
theorem test_spiSend_order :
    nextHas (exec (.spiSend 2#4 5#4 0#16) State.reset) (fun t => decide (t.result = .badFrameSize)) = true ∧
    nextHas (exec (.spiSend 8#4 5#4 2000#16) State.reset) (fun t => decide (t.result = .badSelector)) = true := by
  decide
/-- G2v: GPIO.SET 7, HIGH. -/
theorem test_gpioSet :
    nextHas (exec (.gpioSet 7#5 1#2) State.reset) (fun t =>
      decide ((t.pinCtrl 7).word = 0x331#32) && decide (t.pinOut 7 = some .high)) = true := by decide
/-- G6v: the pin is checked before the mode. -/
theorem test_gpioSet_order :
    nextHas (exec (.gpioSet 31#5 3#2) State.reset) (fun t => decide (t.result = .badPin)) = true := by decide
/-- E2: the symbols of `0x123456`, low bytes. -/
theorem test_encode_symbols :
    (encodeFrame .default [0x123456#24]).map BitVec.toNat =
      [0xE0, 0xE0, 0xE0, 0xE0, 0xFC, 0xFC, 0xE0, 0xFC, 0xE0, 0xE0, 0xE0, 0xE0, 0xE0, 0xFC, 0xE0, 0xE0, 0xFC, 0xE0,
        0xE0, 0xFC, 0xE0, 0xFC, 0xE0, 0xFC, 0xFC, 0xE0] := by decide
/-- E5: `BUF[10]` and `BUF[25]` are the only ones of `0x800001`, and `ENC_LEN` is 26. -/
theorem test_ledEncode :
    nextHas (exec (.ledEncode 1#16) ((State.reset.setCol [(0, 0x800001#24)]).setArg0 26#32)) (fun t =>
      decide (t.encLen = 26#16) && decide (t.buf.get 10 = some 0xFC#16) && decide (t.buf.get 25 = some 0xFC#16) &&
      decide (t.buf.get 9 = some 0xE0#16) && decide (t.buf.get 26 = none)) = true := by decide
/-- P2's first access through the bus: the very next step after `withFetchWord` runs the command. -/
theorem test_step_runs_the_word :
    nextHas (step (State.reset.withFetchWord 32 0x41040002)) (fun t =>
      decide ((t.pinCtrl 4).word = 0x002#32) && decide (t.reply = .done)) = true := by decide

/-! ### Agents, bus, colour model -/

/-- T4's frame: 15 bits of `0x1234`, the first bit driven being bit 14. -/
theorem test_shifter_first_bit :
    let p : SpiPort := { SpiPort.atReset with sse := true, mstr := true, cpsdvsr := 2#8, dss := 15#4, fifo := [0x1234#16] }
    p.shifterStep.sh = .holding 0x1234#16 15 0 ∧ p.shifterStep.shifterStep.sdo = false ∧
      p.shifterStep.shifterStep.shifterStep.shifterStep.sdo = true := by decide
/-- T5: `0x00E0` at 4 bits logs `(4, 0x0)`. -/
theorem test_shifter_finish :
    ({ SpiPort.atReset with sse := true, mstr := true, cpsdvsr := 2#8, sh := .holding 0xE0#16 4 4 } :
      SpiPort).shifterStep.txlog = [⟨4, 0#16⟩] := by decide
/-- R129: at `TOP` the counter wraps, below it counts. -/
theorem test_counter_tick :
    (⟨true, ⟨5#16, true⟩, ⟨0#16, true⟩, ⟨0#16, true⟩, 5#16⟩ : Channel).tick.ctr = 0#16 ∧
    (⟨true, ⟨5#16, true⟩, ⟨0#16, true⟩, ⟨0#16, true⟩, 4#16⟩ : Channel).tick.ctr = 5#16 := by decide
/-- 95 section 2.8: offsets beyond the parameters and the fourth SPI word are unmapped. -/
theorem test_unmapped : regAt .default 0x030C = none ∧ regAt .default 0x027C = none ∧ regAt .default 0x0320 = none ∧
    regAt .default 0x001C = none ∧ regAt .default 0x1100 = none := by decide +kernel
/-- R69, R70: the last entries of the windows. -/
theorem test_mapped_ends :
    regAt .default 0x01FC = some (.pwmCmpB 15) ∧ regAt .default 0x0278 = some (.pinCtrl 30) ∧
      regAt .default 0x10FC = some (.col 63) ∧ regAt .default 0x11804 = some (.buf 1537) ∧
      regAt .default 0x11808 = none := by decide +kernel

/-- R94: the SPI.APPLY word software builds from `RET0 = 0x00000207` for selector 0. -/
theorem test_pseudo_spi_baud : pseudoSpiApply 0#4 0x00000207#32 = [.write 0x0000 4 0x32000207#32] := by decide

/-- W9, W11: percentages above 1 that still fit 16 bits. -/
theorem test_percent : percentCompare 0xBF7FFFFF#32 = none ∧
    percentCompare 0x3FFFFFAC#32 = some 0xFFFF#16 := by decide +kernel
/-- X7, X8: truncation toward zero of a negative quotient. -/
theorem test_rescale_int : rescaleInt (-1) 0 255 0 100 = .ok 0 ∧ rescaleInt 3 0 7 10 0 = .ok 6 := by decide
/-- H2 and H20: hue 30 at full saturation; lightness 0.75. -/
theorem test_hsl :
    hslToRgb .binary32 (.ofNat .binary32 30) (.ofNat .binary32 1) (.ofBits .binary32 0x3F000000#32) = some 0xFF7F00#24 ∧
    hslToRgb .binary32 (.ofNat .binary32 0) (.ofNat .binary32 1) (.ofBits .binary32 0x3F400000#32) = some 0xFF7F7F#24 := by
  decide +kernel
/-- R15, R105: a hue of minus zero, and one whose sixtieth rounds to it, are in the first sextant and give red. -/
theorem test_hsl_minus_zero :
    hslToRgb .binary32 (.ofBits .binary32 0x80000000#32) (.ofNat .binary32 1) (.ofBits .binary32 0x3F000000#32) =
      some 0xFF0000#24 ∧
    hslToRgb .binary32 (.ofBits .binary32 0x80000001#32) (.ofNat .binary32 1) (.ofBits .binary32 0x3F000000#32) =
      some 0xFF0000#24 := by decide +kernel

/-! ### Instances with other parameters -/

/-- E15: `RESET_SYMBOL = 0x00` gives `00 00`, then the colour as before. -/
theorem test_reset_symbol :
    (encodeFrame { resetSymbol := 0#16 } [0xFF0000#24]).map BitVec.toNat =
      [0, 0] ++ List.replicate 8 0xE0 ++ List.replicate 8 0xFC ++ List.replicate 8 0xE0 := by decide

/-- 95 section 2.4, the trace with `FIFO_DEPTH = 2`, before its step 4: `w0` and `w1` are queued. -/
def fifo2 (seq : Seq) (fifo : List Half) : State :=
  { State.atReset { fifoDepth := 2 } 0 with
    seq := seq, buf := [(0, 1#16), (1, 2#16), (2, 3#16)] }.setPort 0
      { SpiPort.atReset with dss := 8#4, mstr := true, sse := true, cpsdvsr := 2#8, scr := 7#8, fifo := fifo }

/-- Step 4: the sequencer has no enabled step. -/
theorem test_fifo2_waits :
    nextHas (step (give .sequencer (fifo2 (.sending 0 3 2 .wait) [1#16, 2#16]))) (fun t =>
      decide (t.seq = .sending 0 3 2 .wait) && !(t.port 0).tnf 2) = true := by decide +kernel
/-- Step 6: the push of `w2` fills the FIFO. -/
theorem test_fifo2_push :
    nextHas (step (give .sequencer (fifo2 (.sending 0 3 2 .push) [2#16]))) (fun t =>
      decide (t.seq = .sending 0 3 3 .wait) && decide ((t.port 0).fifo = [2#16, 3#16]) && !(t.port 0).tnf 2) = true := by
  decide +kernel
/-- An instance with one SPI instance and 16 pins: the second and the seventeenth are refused. -/
theorem test_small_instance :
    (Instr.spiApply 1#4 2#8 7#8).wellFormed { nSpi := 1 } = false ∧
    nextHas (exec (.gpioSet 16#5 0#2) (State.atReset { nPins := 16 } 0)) (fun t => decide (t.result = .badPin)) = true ∧
    regAt { nPins := 16 } 0x0240 = none := by decide +kernel
/-- In bfloat16 the pattern `0x3F00` is one half. -/
theorem test_bfloat16 : Flt.ofBits ⟨8, 7, .nearestEven⟩ 0x3F00#32 = .fin false (2 ^ 132) := by decide +kernel

/-! ### Witnesses of the statements' hypotheses -/

/-- Instance 0 with its clock started and the port configured, holding `words` in the FIFO. -/
def port0 (words : List Half) : SpiPort :=
  { SpiPort.atReset with dss := 8#4, mstr := true, sse := true, cpsdvsr := 2#8, fifo := words }

/-- A send of two words on instance 0, in phase `ph`. -/
def sendingState (ph : Phase) (words : List Half) : State :=
  { State.reset.setPort 0 (port0 words) with
    seq := .sending 0 2 0 ph
    buf := [(0, 0xE0#16), (1, 0xFC#16)] }

/-- A send on instance 0 whose clock was never started, waiting with the FIFO full. -/
def hungState : State :=
  { State.reset.setPort 0 { port0 (List.replicate 8 0xE0#16) with cpsdvsr := 0#8 } with
    seq := .sending 0 8 8 .wait }

/-- An enabled channel with `TOP` 3 and `CMPA` 2. -/
def smallChannel (cmp : Half) : Channel := ⟨true, ⟨3#16, true⟩, ⟨cmp, true⟩, ⟨0#16, true⟩, 3#16⟩

/-- The default instance meets the constraints of R9 and R120. -/
theorem default_legal : Config.default.Legal where
  pins := by decide
  channels := by decide
  bind_channel := by decide
  bind_slice := by decide
  bind_pairs := by decide +kernel
  bind_injective := by decide +kernel
  spi := by decide
  fifo := by decide
  buffers := by decide
  symbols := by decide
  symbol_width := by decide
  float_exponent := by decide
  float_fraction := by decide
  float_width := by decide

theorem wit_DecodedWordIsTheEncodingOfItsCommand : decode 0x31000000#32 = .command .spiSolve := by decide
theorem wit_IllFormedCommandFailsAndChangesNothingElse : (Instr.gpioSet 0#5 3#2).wellFormed .default = false := by decide
theorem wit_StepRunsTheDecodedCommand :
    State.reset.seq = .idle ∧ decode 0x33800002#32 = .command (.spiSend 8#4 0#4 2#16) := by decide
theorem wit_ReservedBitMakesTheCommandFail :
    State.reset.seq = .idle ∧ rowPwmStart ∈ opcodeMap ∧ opcodeOf 0x21240000#32 = opcodeOf rowPwmStart.pattern ∧
      0x21240000#32 &&& rowPwmStart.mask ≠ rowPwmStart.pattern := by decide
theorem wit_UnknownOpcodeMakesTheCommandFail :
    State.reset.seq = .idle ∧
      (0#32 : Word).extractLsb' 24 8 ∉ [0x21#8, 0x22#8, 0x23#8, 0x31#8, 0x32#8, 0x33#8, 0x41#8, 0x51#8] := by decide
theorem wit_HostIsHeldWhileACommandRuns : (sendingState .push []).seq ≠ .idle := by decide
theorem wit_ReadHasNoSideEffect : State.reset.seq = .idle := rfl
/-- The last row of each window of the default instance (R21). -/
theorem wit_ReadReturnsTheRegister : State.reset.seq = .idle ∧ Reg.spiSr 1 ≠ Reg.cmd ∧
    MapRow State.reset.cfg 0x0018 .encLen ∧ MapRow State.reset.cfg 0x01FC (.pwmCmpB 15) ∧
    MapRow State.reset.cfg 0x0278 (.pinCtrl 30) ∧ MapRow State.reset.cfg 0x0318 (.spiSr 1) ∧
    MapRow State.reset.cfg 0x10FC (.col 63) ∧ MapRow State.reset.cfg 0x11804 (.buf 1537) :=
  ⟨rfl, by decide, .encLen, .pwmCmpB 15 (by decide), .pinCtrl 30 (by decide), .spiSr 1 (by decide), .col 63 (by decide),
    .buf 1537 (by decide)⟩
theorem wit_WriteStoresAndDoesNothingElse : State.reset.seq = .idle ∧ State.reset.cfg.Legal ∧
    63 < State.reset.cfg.colCap ∧ 1537 < State.reset.cfg.bufCap := ⟨rfl, default_legal, by decide, by decide⟩
/-- The last unmapped word before the PWM window; the first absent index of each window, of the default instance and
of the instance with one channel; the last `RO` register. -/
theorem wit_RefusedAccessChangesNothing :
    State.reset.seq = .idle ∧ 0x00FC % 4 = 0 ∧ (∀ r, ¬ MapRow State.reset.cfg 0x00FC r) ∧
      ({ Config.default with nChannels := 1, nPins := 2 } : Config).nChannels ≤ 1 ∧ State.reset.cfg.nPins ≤ 31 ∧
      State.reset.cfg.nSpi ≤ 2 ∧ State.reset.cfg.colCap ≤ 64 ∧ State.reset.cfg.bufCap ≤ 1538 ∧
      MapRow State.reset.cfg 0x0318 (.spiSr 1) ∧ Reg.spiSr 1 ≠ .cmd ∧ Reg.spiSr 1 ≠ .arg0 ∧ Reg.spiSr 1 ≠ .arg1 ∧
      (∀ k, Reg.spiSr 1 ≠ .col k) ∧ ∀ j, Reg.spiSr 1 ≠ .buf j := by
  refine ⟨rfl, rfl, ?_, by decide, by decide, by decide, by decide, by decide, .spiSr 1 (by decide), by decide, by decide,
    by decide, by simp, by simp⟩
  intro r h
  have := (mapRow_iff.1 h).2
  cases r <;> simp only [Reg.offset] at this <;> omega
theorem wit_NarrowOrMisalignedAccessChangesNothing :
    State.reset.seq = .idle ∧ ((1 : Nat) ≠ 4 ∨ 0x0004 % 4 ≠ 0) ∧ ((4 : Nat) ≠ 4 ∨ 0x0006 % 4 ≠ 0) := by decide
theorem wit_FailingCommandChangesOnlyTheRecord :
    State.reset.seq = .idle ∧ exec (.pwmSet 31#5 0#16) State.reset = .next (State.reset.complete .badPin) ∧
      (State.reset.complete .badPin).seq = .idle ∧ (State.reset.complete .badPin).result ≠ .ok := by
  exact ⟨rfl, rfl, rfl, by decide⟩
theorem wit_CompletionRecordsTheCode_atomic :
    State.reset.seq = .idle ∧ exec (.pwmSet 31#5 0#16) State.reset = .next (State.reset.complete .badPin) ∧
      (State.reset.complete .badPin).seq = .idle := ⟨rfl, rfl, rfl⟩
/-- The last wait of a send of two words. -/
theorem wit_CompletionRecordsTheCode_send :
    ∃ t, ({ sendingState .wait [] with seq := .sending 0 2 2 .wait } : State).seq ≠ .idle ∧
      step (give .sequencer { sendingState .wait [] with seq := .sending 0 2 2 .wait }) = .next t ∧ t.seq = .idle :=
  ⟨_, by decide, rfl, rfl⟩
theorem wit_CompletionRecordsTheCode_illegal : State.reset.seq = .idle ∧ ∀ i, decode 0x00000000#32 ≠ .command i := by
  refine ⟨rfl, fun i h => ?_⟩
  have h' : decode 0x00000000#32 = .illegal (.unknownOpcode 0x00#8) := by decide
  rw [h'] at h
  cases h
theorem wit_FaultBitIsSticky :
    ∃ t, Turn.host ≠ .reset ∧ step (give .host (State.reset.complete .badPin)) = .next t ∧
      (State.reset.complete .badPin).statusFault = true := ⟨_, by decide, rfl, rfl⟩
theorem wit_CommandCompletesOnlyWithItsCodes :
    ∃ t, State.reset.seq = .idle ∧ exec (.gpioSet 7#5 3#2) State.reset = .next t ∧ t.seq = .idle :=
  ⟨_, rfl, rfl, rfl⟩
theorem wit_RegisterIsWrittenOnlyByItsCommands :
    ∃ t, exec (.gpioSet 7#5 1#2) State.reset = .next t ∧ t.pins ≠ State.reset.pins := ⟨_, rfl, by decide⟩
theorem wit_BindingIsInjectiveAndPairsPins :
    Config.default.Legal ∧ (28 : Pin).val < Config.default.nPins ∧ (29 : Pin).val < Config.default.nPins ∧
      (28 : Pin).val / 2 = (29 : Pin).val / 2 ∧ Config.default.bind 30 = Config.default.bind 30 :=
  ⟨default_legal, by decide, by decide, by decide, rfl⟩
theorem wit_PwmStartConfiguresAndEnables : State.reset.cfg.nPins ≤ (31#5).toNat ∧ (30 : Pin).val = (30#5).toNat ∧
    (30 : Pin).val < State.reset.cfg.nPins := by decide
theorem wit_PwmSetStoresTheValueAsGiven : State.reset.cfg.nPins ≤ (31#5).toNat ∧ (0 : Pin).val = (0#5).toNat ∧
    (0 : Pin).val < State.reset.cfg.nPins := by decide
/-- The largest percentage below 2.0 fits 16 bits, 2.0 does not (vectors W11 and W12 and their neighbours). -/
theorem wit_PwmSetpWritesTheTruncatedPercentage :
    State.reset.cfg.nPins ≤ (31#5).toNat ∧ (30 : Pin).val = (30#5).toNat ∧ (30 : Pin).val < State.reset.cfg.nPins ∧
      State.reset.cfg.floatFormat = .binary32 ∧ State.reset.cfg.pwmTop = 0x8000#16 ∧ State.reset.cfg.Legal ∧
      percentCompare (State.reset.setArg0 0x3FFFFFFF#32).arg0 = some 0xFFFF#16 ∧
      percentCompare (State.reset.setArg0 0x40000000#32).arg0 = none ∧
      compareOf (((Flt.ofBits .binary32 0x3FFFFFFF#32).mul .binary32 (.ofNat .binary32 0x8000)).trunc .binary32) =
        some 0xFFFF#16 :=
  ⟨by decide, rfl, by decide, rfl, rfl, default_legal, by decide +kernel, by decide +kernel, by decide +kernel⟩
theorem wit_EnableIsSetByStartAndClearedByResetOnly :
    ∃ t, Turn.host ≠ .reset ∧ step (give .host (offer (.write 0x0000 4 0x21040000#32) State.reset)) = .next t ∧
      (State.reset.chan 2).en = false ∧ (t.chan 2).en = true := ⟨_, by decide, rfl, by decide, by decide⟩
theorem wit_CounterCountsToTopAndWraps :
    (smallChannel 2#16).en = true ∧ (smallChannel 2#16).ctr.toNat ≥ (smallChannel 2#16).top.value.toNat ∧
      ({ smallChannel 2#16 with ctr := 2#16 } : Channel).ctr.toNat < (smallChannel 2#16).top.value.toNat ∧
      (State.reset.chan 15).en = false ∧ exec (.pwmStart 4#5 0#16) State.reset = .next
        ((((State.reset.setTop 2 0x8000#16).setCmpreg 4 0#16).enableChan 2).complete .ok) := by
  exact ⟨by decide, by decide, by decide, by decide, rfl⟩
theorem wit_DutyIsTheShareOfHighTicks :
    (smallChannel 2#16).en = true ∧ (smallChannel 2#16).ctr.toNat ≤ (smallChannel 2#16).top.value.toNat ∧
      (State.reset.chan 0).en = false := by decide
theorem wit_CompareAboveTopSaturates :
    (smallChannel 4#16).en = true ∧ (smallChannel 4#16).ctr.toNat ≤ (smallChannel 4#16).top.value.toNat ∧
      (smallChannel 4#16).top.value.toNat < ((smallChannel 4#16).cmp .a).value.toNat := by decide
theorem reset_PwmInv : State.reset.PwmInv := by
  refine ⟨fun c => ?_, fun c _ => State.chan_atReset _ _ c⟩
  rw [State.reset, State.chan_atReset]
  exact ⟨fun h => absurd h Bool.false_ne_true, fun _ => ⟨rfl, rfl⟩⟩
theorem wit_StepKeepsPwmInv : State.reset.cfg.Legal ∧ State.reset.PwmInv ∧ step State.reset = .next State.reset :=
  ⟨default_legal, reset_PwmInv, rfl⟩
/-- Both sides of the border 65536 × baud, with vectors V14 and V15's clock. -/
theorem wit_SolveFindsTheLeastPrescaleAndGreatestPostdiv :
    65536 * State.reset.arg1.toNat ≤ State.reset.arg0.toNat ∧
      (State.reset.setArg1 1#32).arg0.toNat < 65536 * (State.reset.setArg1 1#32).arg1.toNat := by decide
theorem wit_ApplyWritesTheDivider :
    State.reset.cfg.nSpi ≤ (2#4).toNat ∧ (1 : SpiIx).val = (1#4).toNat ∧
      (1 : SpiIx).val < State.reset.cfg.nSpi ∧ (1#8).toNat < 2 ∧ (255#8).toNat % 2 = 1 ∧
      2 ≤ (254#8).toNat ∧ (254#8).toNat % 2 = 0 := by decide
theorem wit_SendConfiguresThePortAndEntersTheLoop :
    (2#4).toNat < 3 ∧ 3 ≤ (3#4).toNat ∧ State.reset.cfg.nSpi ≤ (2#4).toNat ∧ (1 : SpiIx).val = (1#4).toNat ∧
      (1 : SpiIx).val < State.reset.cfg.nSpi ∧
      State.reset.cfg.bufCap < (1539#16).toNat ∧ (1538#16).toNat ≤ State.reset.cfg.bufCap ∧ (0#16).toNat = 0 ∧ 0 < (1#16).toNat := by decide
theorem wit_SequencerPushesThenWaits_push :
    (sendingState .push []).seq = .sending 0 2 0 .push ∧ 0 < 2 ∧
      ((sendingState .push []).port 0).fifo.length < State.reset.cfg.fifoDepth ∧
      (sendingState .push []).buf.get 0 = some 0xE0#16 ∧ State.reset.buf.get 0 = none := by decide
theorem wit_SequencerPushesThenWaits_wait :
    (sendingState .wait []).seq = .sending 0 2 0 .wait ∧
      ((sendingState .wait []).port 0).fifo.length < State.reset.cfg.fifoDepth ∧ 0 < 2 ∧
      State.reset.cfg.fifoDepth ≤ ((sendingState .wait (List.replicate 8 0#16)).port 0).fifo.length := by decide
theorem wit_ShifterLoadsShiftsAndLogs :
    ((sendingState .push [0xE0#16]).port 0).sse = true ∧ ((sendingState .push [0xE0#16]).port 0).mstr = true ∧
      2 ≤ ((sendingState .push [0xE0#16]).port 0).cpsdvsr.toNat ∧ ((sendingState .push [0xE0#16]).port 0).sh = .empty ∧
      ((sendingState .push [0xE0#16]).port 0).fifo = [0xE0#16] ∧ (State.reset.port 1).sse = false ∧
      (Shifter.holding 0xE0#16 8 7 = .holding 0xE0#16 8 7 ∧ 7 < 8) := by decide
theorem portInv_atReset : SpiPort.Inv 8 SpiPort.atReset where
  fifo_le := by decide
  divider := .inl rfl
  configured := .inr ⟨rfl, rfl, rfl, rfl, rfl, rfl⟩
  holding := by intro _ _ _ h; cases h
  stopped := fun _ => ⟨rfl, rfl, rfl⟩
  idle_low := fun _ _ => rfl
  logged := by intro _ h; cases h
theorem portInv_port0 : SpiPort.Inv 8 (port0 []) where
  fifo_le := by decide
  divider := .inr (by decide)
  configured := .inl (by decide)
  holding := by intro _ _ _ h; cases h
  stopped := by intro h; exact absurd h (by decide)
  idle_low := fun _ _ => rfl
  logged := by intro _ h; cases h
/-- The sending state holds `port0` on instance 0 and the reset state elsewhere. -/
theorem sendingState_port (i : SpiIx) : (sendingState .push []).port i = if i = 0 then port0 [] else SpiPort.atReset := by
  have e : (sendingState .push []).port i = (State.reset.setPort 0 (port0 [])).port i := rfl
  rw [e]
  split
  · rename_i h; subst h; exact State.port_setPort_same _ _ _
  · rename_i h; rw [State.port_setPort_ne _ _ h]; exact State.port_atReset _ _ _
theorem spiInv_sendingState : (sendingState .push []).SpiInv := by
  refine ⟨fun i => ?_, ⟨by decide, by decide, by decide, by decide, by decide, rfl, fun j _ => ?_⟩, fun i hi => ?_⟩
  · rw [sendingState_port]
    split
    · exact portInv_port0
    · exact portInv_atReset
  · rw [sendingState_port]
    split <;> decide
  · rw [sendingState_port, if_neg]
    rintro rfl
    exact absurd hi (by decide)
theorem wit_StepKeepsSpiInv : (sendingState .push []).cfg.Legal ∧ (sendingState .push []).SpiInv ∧
    step (sendingState .push []) = .next (sendingState .push []) := ⟨default_legal, spiInv_sendingState, rfl⟩
theorem wit_StepConservesFrames :
    ∃ t, Turn.sequencer ≠ .reset ∧ (Turn.sequencer = .host → (sendingState .push []).seq ≠ .idle) ∧
      step (give .sequencer (sendingState .push [])) = .next t := ⟨_, by decide, by decide, rfl⟩
/-- One word on a clocked instance: push, wait, load, eight shifts, finish. -/
theorem wit_SendDeliversItsWordsInOrder :
    let s : State := { State.reset.setPort 0 (port0 []) with buf := [(0, 0xE0#16)] }
    let ts : List Turn := [.sequencer, .sequencer] ++ List.replicate 10 (.shifter 0)
    (0 : SpiIx).val = (0#4).toNat ∧ (0 : SpiIx).val < s.cfg.nSpi ∧
      s.seq = .idle ∧ (∀ a ∈ s.host, a.isRead = true) ∧ 3 ≤ (8#4).toNat ∧ (1#16).toNat ≤ s.cfg.bufCap ∧
      (s.port 0).fifo = [] ∧ (s.port 0).sh = .empty ∧ .reset ∉ ts ∧
      ∃ t₀, exec (.spiSend 8#4 0#4 1#16) s = .next t₀ ∧
        nextHas (runTurns ts t₀) (fun t => decide (t.seq = .idle) && !(t.port 0).bsy) = true := by
  refine ⟨rfl, by decide, rfl, by decide, by decide, by decide, rfl, rfl, by decide, _, rfl, by decide⟩
theorem wit_SendWithoutClockHangs :
    (0 : SpiIx).val = (0#4).toNat ∧ (0 : SpiIx).val < State.reset.cfg.nSpi ∧
      3 ≤ (8#4).toNat ∧ (8#16).toNat ≤ State.reset.cfg.bufCap ∧ (State.reset.port 0).cpsdvsr = 0#8 ∧
      (State.reset.port 0).fifo.length < State.reset.cfg.fifoDepth ∧
      State.reset.cfg.fifoDepth ≤ (State.reset.port 0).fifo.length + (8#16).toNat ∧ Turn.reset ∉ [Turn.shifter 0] ∧
      ∃ t₀ t, exec (.spiSend 8#4 0#4 8#16) State.reset = .next t₀ ∧ runTurns [.shifter 0] t₀ = .next t :=
  ⟨rfl, by decide, by decide, by decide, by decide, by decide, by decide, by decide, _, _, rfl, rfl⟩
/-- One word, with turns of the shifter and the held host in between; then a stopped instance's shifter has a turn. -/
theorem wit_SendWithoutClockThatFitsReturns :
    let s : State := State.reset.setBuf [(0, 0xE0#16)]
    let ts : List Turn := [.shifter 0, .sequencer, .host, .counter 0, .sequencer, .shifter 0]
    (0 : SpiIx).val = (0#4).toNat ∧ (0 : SpiIx).val < s.cfg.nSpi ∧
    s.seq = .idle ∧ 3 ≤ (8#4).toNat ∧ (1#16).toNat ≤ s.cfg.bufCap ∧ (s.port 0).cpsdvsr = 0#8 ∧
      [0xE0#16].length = (1#16).toNat ∧
      (∀ k (hk : k < [0xE0#16].length), s.buf.get k = some [0xE0#16][k]) ∧
      (s.port 0).fifo.length + (1#16).toNat < s.cfg.fifoDepth ∧ .reset ∉ ts ∧ 2 * (1#16).toNat ≤ ts.count .sequencer ∧
      ∃ t, Turn.reset ∉ [Turn.shifter 0] ∧ Turn.host ∉ [Turn.shifter 0] ∧ runTurns [.shifter 0] s = .next t := by
  refine ⟨rfl, by decide, rfl, by decide, by decide, rfl, rfl, ?_, by decide, by decide, by decide, _, by decide,
    by decide, rfl⟩
  intro k hk
  have : k = 0 := by simpa using hk
  subst this
  rfl
theorem wit_SendCompletesUnderFairTurns :
    let s := sendingState .push []
    let rounds := List.replicate 240 [Turn.sequencer, .shifter 0]
    s.cfg.Legal ∧ s.SpiInv ∧ s.seq = .sending 0 2 0 .push ∧ 2 ≤ (s.port 0).cpsdvsr.toNat ∧
      (∀ j, 0 ≤ j → j < 2 → s.buf.get j ≠ none) ∧
      (∀ r ∈ rounds, .sequencer ∈ r ∧ .shifter 0 ∈ r ∧ .reset ∉ r) ∧ 20 * (2 - 0 + 10) ≤ rounds.length := by
  refine ⟨default_legal, spiInv_sendingState, rfl, by decide, ?_, ?_, ?_⟩
  · intro j _ hj
    match j, hj with
    | 0, _ => decide
    | 1, _ => decide
  · intro r hr
    rw [List.eq_of_mem_replicate hr]
    decide
  · rw [List.length_replicate]
theorem wit_OnlyResetEndsAHang : hungState.Hung ∧ Turn.host ≠ .reset :=
  ⟨⟨0, 8, 8, rfl, by decide, by decide⟩, by decide⟩
theorem wit_GpioSetWritesTheWholePinRegister :
    State.reset.cfg.nPins ≤ (31#5).toNat ∧ (30 : Pin).val = (30#5).toNat ∧
    (30 : Pin).val < State.reset.cfg.nPins ∧ (2#2 : BitVec 2) ≠ 3#2 := by decide
theorem wit_GpioSetIsIdempotent : ∃ t, exec (.gpioSet 7#5 0#2) State.reset = .next t := ⟨_, rfl⟩
theorem reset_PinsLegal : State.reset.PinsLegal := by
  refine ⟨fun p => .inl ?_, fun p _ => State.pinCtrl_atReset _ _ p⟩
  exact State.pinCtrl_atReset _ _ p
theorem wit_StepKeepsPinsLegal : State.reset.PinsLegal ∧ step State.reset = .next State.reset := ⟨reset_PinsLegal, rfl⟩
theorem wit_EncodeWritesTheBitstream :
    let s := (State.reset.setCol [(0, 0xFF0000#24)]).setArg0 26#32
    (1#16).toNat ≤ s.cfg.colCap ∧ 2 + 24 * (1#16).toNat ≤ s.cfg.bufCap ∧ s.arg0.toNat = 2 + 24 * (1#16).toNat ∧
      ∀ led, led < (1#16).toNat → s.col.get led = some ((fun _ => 0xFF0000#24) led) := by
  refine ⟨by decide, by decide, by decide, ?_⟩
  intro led h
  have : led = 0 := by simpa using h
  subst this
  rfl
theorem wit_EncodeRejectsAMismatchedLength :
    State.reset.cfg.colCap < (65#16).toNat ∧ State.reset.arg0.toNat ≠ 2 + 24 * (0#16).toNat ∧
      State.reset.cfg.bufCap < 2 + 24 * (65#16).toNat := by decide
theorem wit_EncodeFaultsOnAnUnwrittenColour :
    let s := State.reset.setArg0 26#32
    (1#16).toNat ≤ s.cfg.colCap ∧ 2 + 24 * (1#16).toNat ≤ s.cfg.bufCap ∧ s.arg0.toNat = 2 + 24 * (1#16).toNat ∧ 0 < (1#16).toNat ∧
      (∀ j, j < 0 → s.col.get j ≠ none) ∧ s.col.get 0 = none :=
  ⟨by decide, by decide, by decide, by decide, fun _ h => absurd h (Nat.not_lt_zero _), rfl⟩
theorem reset_BuffersInv : State.reset.BuffersInv :=
  ⟨⟨rfl, fun _ h => nomatch h⟩, ⟨rfl, fun _ h => nomatch h⟩⟩
theorem wit_StepKeepsBuffersCanonical : State.reset.BuffersInv ∧ step State.reset = .next State.reset :=
  ⟨reset_BuffersInv, rfl⟩
theorem wit_StepKeepsRecordInv : State.reset.RecordInv ∧ step State.reset = .next State.reset :=
  ⟨⟨by decide, by decide, by decide, by decide⟩, rfl⟩
theorem wit_StepKeepsResultsInv : State.reset.cfg.Legal ∧ State.reset.ResultsInv ∧
    step State.reset = .next State.reset :=
  ⟨default_legal, ⟨.inl rfl, .inl rfl⟩, rfl⟩
theorem wit_RegisterWordsHoldTheirFieldsInPlace :
    ((State.reset.setCol [(63, 1#24)]).setBuf [(1537, 2#16)]).col.get (63 : Fin Config.maxCol).val = some 1#24 ∧
      ((State.reset.setCol [(63, 1#24)]).setBuf [(1537, 2#16)]).buf.get (1537 : Fin Config.maxBuf).val = some 2#16 ∧
      254 ≤ 255 ∧ (State.reset.setRet0 0xFEFF#32).ret0.toNat = 254 * 256 + 255 := by
  decide +kernel
theorem wit_ResetTurnBringsTheTableOfReset : (sendingState .push []).cfg.Legal := default_legal
theorem wit_BlockIsIdleAfterReset : State.reset.seq = .idle ∧ (∀ c, (State.reset.chan c).en = false) ∧
    (∀ i, (State.reset.port i).fifo = [] ∧ (State.reset.port i).sh = .empty) ∧ State.reset.host = [] ∧
    IsResetBlock State.reset := by
  refine ⟨rfl, fun c => ?_, fun i => ?_, rfl, rfl, rfl, rfl, rfl, rfl, rfl, rfl, fun c => ?_, fun p => ?_, fun i => ?_,
    rfl, rfl, rfl⟩
  · rw [State.reset, State.chan_atReset]; rfl
  · rw [State.reset, State.port_atReset]; exact ⟨rfl, rfl⟩
  · rw [State.reset, State.chan_atReset]; exact ⟨rfl, rfl, rfl, rfl, rfl⟩
  · have e : State.reset.pinCtrl p = PinCtrl.atReset := State.pinCtrl_atReset _ _ p
    refine ⟨by rw [e]; decide, ?_⟩
    unfold State.pinOut
    rw [e]
    rfl
  · rw [State.reset, State.port_atReset]
    exact ⟨rfl, rfl, rfl, by decide, rfl, rfl, rfl⟩
/-- The ends of the range of each clause. -/
theorem wit_ZeroSaturationIsGreyAndFullSaturationInRange :
    inUnit .binary32 (.ofNat .binary32 1) = true ∧ inUnit .binary32 (.ofNat .binary32 0) = true ∧
      48 ≤ 48 ∧ 4 ≤ 4 ∧ exactHsl 48 4 2 = (255, 0, 0) := by decide +kernel
/-- Hues 390 and -30 (vectors H14, H15). -/
theorem wit_HueOutsideAllSextantsIsBlack :
    inUnit .binary32 (.ofNat .binary32 1) = true ∧ Flt.eq (.ofNat .binary32 1) (.ofNat .binary32 0) = false ∧
      Flt.le ((Flt.ofNat .binary32 390).div .binary32 (.ofNat .binary32 60)) (.ofNat .binary32 6) = false ∧
      Flt.le (.ofNat .binary32 0) ((Flt.neg (.ofNat .binary32 30)).div .binary32 (.ofNat .binary32 60)) = false := by
  decide +kernel
theorem wit_IntegerRescaleTruncatesTowardZero : (255 : Int) ≠ 0 ∧ (3 : Int) = 3 := by decide
/-- 2^24 + 1 is half way between two values of binary32. -/
theorem wit_RoundingGivesANearestValue :
    0 < 1 ∧ 1 ≤ FloatFormat.binary32.fracWidth ∧ FloatFormat.binary32.rounding = .nearestEven ∧
      (2 ^ 23 + 1 : Nat) < 2 ^ (FloatFormat.binary32.fracWidth + 1) ∧
      (((2 ^ 23 + 1) * 2 ^ 1 * 1 : Int) - (2 ^ 24 + 1)).natAbs =
        ((Flt.roundMag .binary32 false (2 ^ 24 + 1) 1 * 1 : Int) - (2 ^ 24 + 1)).natAbs ∧
      (2 ^ 23 + 1) * 2 ^ 1 ≠ Flt.roundMag .binary32 false (2 ^ 24 + 1) 1 := by decide +kernel

end Sys2Proof.Tests
end

/-! # The colours `hsl_to_rgb` gives (R105 to R107)

Two facts about rounding carry the proof. A result that is a value of the format is not rounded at all, which gives
the exact colours of the grid; and rounding never crosses a value of the format, which keeps every intermediate of
the colour formulas between 0 and 1, whatever the hue. -/

section
namespace Sys2Proof.Machine.Flt

/-! ### Rounding and the values of a format -/

/-- `n` units are a finite value of the format. -/
def IsValue (f : FloatFormat) (n : Nat) : Prop := 2 ^ (n.log2 - f.fracWidth) ∣ n ∧ n < overflow f

/-- At most `fracWidth + 1` significant bits make a value of the format. -/
theorem isValue_of_lt {f : FloatFormat} {k e : Nat} (hk : k < 2 ^ (f.fracWidth + 1)) (ho : k * 2 ^ e < overflow f) :
    IsValue f (k * 2 ^ e) := by
  refine ⟨?_, ho⟩
  rcases Nat.eq_zero_or_pos k with rfl | hpos
  · simp
  · have hlt : k * 2 ^ e < 2 ^ (f.fracWidth + 1 + e) := by
      rw [Nat.pow_add]
      exact Nat.mul_lt_mul_of_pos_right hk (Nat.two_pow_pos e)
    have hlog := (Nat.log2_lt (Nat.mul_pos hpos (Nat.two_pow_pos e)).ne').2 hlt
    exact Dvd.dvd.mul_left (Nat.pow_dvd_pow 2 (by omega)) k

/-- An exact quotient that is a value of the format is not rounded. -/
theorem IsValue.round_mul {f : FloatFormat} {n den : Nat} (h : IsValue f n) (neg : Bool) (hden : 0 < den) :
    round f neg (n * den) den = fin neg n := by
  obtain ⟨hdvd, ho⟩ := h
  have hmag : roundMag f neg (n * den) den = n := by
    have hd : den * 2 ^ (n.log2 - f.fracWidth) ∣ n * den := by
      rw [Nat.mul_comm n]
      exact Nat.mul_dvd_mul_left den hdvd
    unfold roundMag
    simp only [Nat.mul_div_cancel n hden, Nat.mod_eq_zero_of_dvd hd]
    rw [roundsUp_zero _ _ _ (Nat.mul_pos hden (Nat.two_pow_pos _)), if_neg (by decide), Nat.mul_comm n,
      Nat.mul_div_mul_left _ _ hden]
    exact Nat.div_mul_cancel hdvd
  unfold round
  rw [Nat.mul_div_cancel n hden, hmag, if_neg (Nat.not_le_of_lt ho), if_neg (Nat.not_le_of_lt ho)]

/-- Rounding does not cross a value of the format: the spacing below the value divides it, so a magnitude that
reaches it is the value itself and has nothing left to round up. -/
theorem IsValue.roundMag_le {f : FloatFormat} {n num den : Nat} (h : IsValue f n) (neg : Bool) (hden : 0 < den)
    (hle : num ≤ n * den) : roundMag f neg num den ≤ n := by
  have hq : num / den ≤ n := Nat.div_le_of_le_mul (by rwa [Nat.mul_comm])
  have hlog : (num / den).log2 ≤ n.log2 := by
    rw [Nat.log2_eq_log_two, Nat.log2_eq_log_two]
    exact Nat.log_mono_right hq
  obtain ⟨b, hb⟩ : 2 ^ ((num / den).log2 - f.fracWidth) ∣ n :=
    (Nat.pow_dvd_pow 2 (Nat.sub_le_sub_right hlog _)).trans h.1
  unfold roundMag
  dsimp only
  generalize (num / den).log2 - f.fracWidth = e at hb ⊢
  have hd : 0 < den * 2 ^ e := Nat.mul_pos hden (Nat.two_pow_pos e)
  have hnum : num ≤ den * 2 ^ e * b := by
    calc num ≤ n * den := hle
      _ = den * 2 ^ e * b := by rw [hb, Nat.mul_comm, Nat.mul_assoc]
  have hcount : (if roundsUp f.rounding neg (decide (num / (den * 2 ^ e) % 2 = 1)) (num % (den * 2 ^ e)) (den * 2 ^ e)
      then num / (den * 2 ^ e) + 1 else num / (den * 2 ^ e)) ≤ b := by
    rcases Nat.lt_or_ge num (den * 2 ^ e * b) with hlt | hge
    · have := Nat.div_lt_of_lt_mul hlt
      split <;> omega
    · obtain rfl : num = den * 2 ^ e * b := Nat.le_antisymm hnum hge
      rw [Nat.mul_mod_right, roundsUp_zero _ _ _ hd, Nat.mul_div_cancel_left _ hd]
      simp
  calc _ ≤ b * 2 ^ e := Nat.mul_le_mul_right _ hcount
    _ = n := by rw [hb, Nat.mul_comm]

theorem IsValue.round_le {f : FloatFormat} {n num den : Nat} (h : IsValue f n) (neg : Bool) (hden : 0 < den)
    (hle : num ≤ n * den) : ∃ m, m ≤ n ∧ round f neg num den = fin neg m := by
  have hmag := h.roundMag_le neg hden hle
  have hq : num / den ≤ n := Nat.div_le_of_le_mul (by rwa [Nat.mul_comm])
  have ho := h.2
  refine ⟨_, hmag, ?_⟩
  unfold round
  rw [if_neg (by omega), if_neg (by omega)]

theorem round_zero (f : FloatFormat) (neg : Bool) {den : Nat} (hden : 0 < den) : round f neg 0 den = fin neg 0 := by
  have h : IsValue f 0 := ⟨Nat.dvd_zero _, overflow_pos f⟩
  simpa using h.round_mul neg hden

/-! ### The operations on finite values -/

theorem add_fin (f : FloatFormat) (a b : Bool) (m n : Nat) : add f (fin a m) (fin b n) =
    if signed a m + signed b n = 0 then fin (zeroSign f.rounding a b) 0
    else round f (decide (signed a m + signed b n < 0)) (signed a m + signed b n).natAbs 1 := rfl

theorem sub_fin (f : FloatFormat) (a b : Bool) (m n : Nat) :
    sub f (fin a m) (fin b n) = add f (fin a m) (fin (!b) n) := rfl

theorem mul_fin (f : FloatFormat) (a b : Bool) (m n : Nat) :
    mul f (fin a m) (fin b n) = round f (xor a b) (m * n) (unit f) := rfl

theorem div_fin (f : FloatFormat) (a b : Bool) (m : Nat) {n : Nat} (h : n ≠ 0) :
    div f (fin a m) (fin b n) = round f (xor a b) (m * unit f) n := if_neg h

theorem le_fin (a b : Bool) (m n : Nat) : le (fin a m) (fin b n) = true ↔ signed a m ≤ signed b n :=
  decide_eq_true_iff

theorem trunc_fin (f : FloatFormat) (a : Bool) (m : Nat) : trunc f (fin a m) = some (signed a (m / unit f)) := rfl

theorem fmod2_fin (f : FloatFormat) {a : Bool} {m : Nat} (h : a = true → m = 0) :
    fmod2 f (fin a m) = fin false (m % (2 * unit f)) := if_neg (by simpa using h)

theorem signed_false (m : Nat) : signed false m = m := rfl

theorem signed_true (m : Nat) : signed true m = -(m : Int) := rfl

/-- The sign of a zero does not count. -/
theorem signed_of_neg_zero {neg : Bool} {m : Nat} (h : neg = true → m = 0) : signed neg m = m := by
  cases neg
  · rfl
  · rw [signed_true, h rfl]; rfl


@[simp] theorem le_minus_zero_left (x : Flt) : le (fin true 0) x = le (fin false 0) x := by
  cases x <;> rfl

@[simp] theorem le_minus_zero_right (x : Flt) : le x (fin true 0) = le x (fin false 0) := by
  cases x <;> rfl

/-! ### Exact arithmetic of binary32 on small multiples of 1/128 -/

/-- `k / 128` in binary32. -/
def grid (k : Nat) : Flt := fin false (k * 2 ^ 142)

theorem unit_binary32 : unit .binary32 = 128 * 2 ^ 142 := rfl

theorem isValue_grid {k : Nat} (hk : k < 2 ^ 24) : IsValue .binary32 (k * 2 ^ 142) := by
  refine isValue_of_lt hk ?_
  have ho : overflow .binary32 = 2 ^ 135 * 2 ^ 142 := rfl
  rw [ho]
  exact Nat.mul_lt_mul_of_pos_right (hk.trans (by decide)) (Nat.two_pow_pos _)

theorem round_grid {k : Nat} (hk : k < 2 ^ 24) (neg : Bool) :
    round .binary32 neg (k * 2 ^ 142) 1 = fin neg (k * 2 ^ 142) := by
  simpa using (isValue_grid hk).round_mul neg Nat.one_pos

theorem ofNat_eq_grid {k : Nat} (hk : k < 2 ^ 17) : ofNat .binary32 k = grid (k * 128) := by
  unfold ofNat grid
  rw [unit_binary32, ← Nat.mul_assoc]
  exact round_grid (by omega) false

theorem add_grid {a b : Nat} (h : a + b < 2 ^ 24) : (grid a).add .binary32 (grid b) = grid (a + b) := by
  have hz : signed false (a * 2 ^ 142) + signed false (b * 2 ^ 142) = ((a + b) * 2 ^ 142 : Nat) := by
    rw [signed_false, signed_false]; push_cast; ring
  unfold grid
  rw [add_fin, hz]
  split
  · rename_i h0
    rw [Int.ofNat_eq_zero.1 h0]
    rfl
  · rw [decide_eq_false (by omega), Int.natAbs_natCast]
    exact round_grid h false

theorem sub_grid {a b : Nat} (ha : a < 2 ^ 24) (hb : b < 2 ^ 24) :
    (grid a).sub .binary32 (grid b) = fin (decide (a < b)) (((a : Int) - b).natAbs * 2 ^ 142) := by
  have hz : signed false (a * 2 ^ 142) + signed true (b * 2 ^ 142) = ((a : Int) - b) * 2 ^ 142 := by
    rw [signed_false, signed_true]; push_cast; ring
  unfold grid
  rw [sub_fin, Bool.not_false, add_fin, hz]
  split
  · obtain rfl : a = b := by omega
    simp [zeroSign, FloatFormat.binary32]
  · have hsign : decide (((a : Int) - b) * 2 ^ 142 < 0) = decide (a < b) := by
      rw [decide_eq_decide]
      omega
    rw [hsign, Int.natAbs_mul]
    exact round_grid (by omega) _

theorem sub_grid_of_le {a b : Nat} (ha : a < 2 ^ 24) (h : b ≤ a) :
    (grid a).sub .binary32 (grid b) = grid (a - b) := by
  rw [sub_grid ha (by omega), decide_eq_false (by omega), grid, show ((a : Int) - b).natAbs = a - b by omega]

theorem abs_sub_grid {a b : Nat} (ha : a < 2 ^ 24) (hb : b < 2 ^ 24) :
    ((grid a).sub .binary32 (grid b)).abs = grid ((a : Int) - b).natAbs := by
  rw [sub_grid ha hb]
  rfl

theorem mul_grid {a b c : Nat} (h : a * b = c * 128) (hc : c < 2 ^ 24) :
    (grid a).mul .binary32 (grid b) = grid c := by
  have hnum : a * 2 ^ 142 * (b * 2 ^ 142) = c * 2 ^ 142 * unit .binary32 := by
    calc a * 2 ^ 142 * (b * 2 ^ 142) = a * b * (2 ^ 142 * 2 ^ 142) := by ring
      _ = c * 2 ^ 142 * unit .binary32 := by rw [h, unit_binary32]; ring
  unfold grid
  rw [mul_fin, hnum]
  exact (isValue_grid hc).round_mul false (unit_pos _)

theorem div_grid {a b c : Nat} (hb : 0 < b) (h : a * 128 = c * b) (hc : c < 2 ^ 24) :
    (grid a).div .binary32 (grid b) = grid c := by
  have hpos : 0 < b * 2 ^ 142 := Nat.mul_pos hb (Nat.two_pow_pos _)
  have hnum : a * 2 ^ 142 * unit .binary32 = c * 2 ^ 142 * (b * 2 ^ 142) := by
    calc a * 2 ^ 142 * unit .binary32 = a * 128 * (2 ^ 142 * 2 ^ 142) := by rw [unit_binary32]; ring
      _ = c * 2 ^ 142 * (b * 2 ^ 142) := by rw [h]; ring
  unfold grid
  rw [div_fin _ _ _ _ hpos.ne', hnum]
  exact (isValue_grid hc).round_mul false hpos

@[simp] theorem le_grid (a b : Nat) : le (grid a) (grid b) = decide (a ≤ b) := by
  rw [Bool.eq_iff_iff, decide_eq_true_iff]
  unfold grid
  rw [le_fin, signed_false, signed_false]
  omega

theorem fmod2_grid (a : Nat) : (grid a).fmod2 .binary32 = grid (a % 256) := by
  unfold grid
  rw [fmod2_fin _ (a := false) nofun, unit_binary32, ← Nat.mul_assoc, Nat.mul_mod_mul_right]

theorem trunc_grid (a : Nat) : (grid a).trunc .binary32 = some ((a / 128 : Nat) : Int) := by
  unfold grid
  rw [trunc_fin, unit_binary32, Nat.mul_div_mul_right _ _ (Nat.two_pow_pos _), signed_false]

/-! ### Results in a range, whatever the rounding -/

/-- `x` is finite and lies between zero, of either sign, and `k / 128`. -/
def UpTo (k : Nat) (x : Flt) : Prop := ∃ neg m, x = fin neg m ∧ m ≤ k * 2 ^ 142 ∧ (neg = true → m = 0)

theorem upTo_grid {a k : Nat} (h : a ≤ k) : UpTo k (grid a) :=
  ⟨false, _, rfl, Nat.mul_le_mul_right _ h, nofun⟩

/-- The lower bound need not be zero itself. -/
theorem upTo_of_le {a k : Nat} {x : Flt} (ha : le (grid a) x = true) (hk : le x (grid k) = true) : UpTo k x := by
  cases x with
  | nan => cases ha
  | inf neg =>
    cases neg
    · cases hk
    · cases ha
  | fin neg m =>
    unfold grid at ha hk
    rw [le_fin, signed_false] at ha hk
    cases neg
    · exact ⟨false, m, rfl, Int.ofNat_le.1 hk, nofun⟩
    · rw [signed_true] at ha
      obtain rfl : m = 0 := by omega
      exact ⟨true, 0, rfl, Nat.zero_le _, fun _ => rfl⟩

theorem upTo_round {k num den : Nat} {neg : Bool} (hk : k < 2 ^ 24) (hden : 0 < den) (hle : num ≤ k * 2 ^ 142 * den)
    (hneg : neg = true → num = 0) : UpTo k (round .binary32 neg num den) := by
  cases neg
  · obtain ⟨m, hm, he⟩ := (isValue_grid hk).round_le false hden hle
    exact ⟨false, m, he, hm, nofun⟩
  · rw [hneg rfl, round_zero _ _ hden]
    exact ⟨true, 0, rfl, Nat.zero_le _, fun _ => rfl⟩

theorem UpTo.add {a b : Nat} {x y : Flt} (hx : UpTo a x) (hy : UpTo b y) (h : a + b < 2 ^ 24) :
    UpTo (a + b) (x.add .binary32 y) := by
  obtain ⟨p, m, rfl, hm, hp⟩ := hx
  obtain ⟨q, n, rfl, hn, hq⟩ := hy
  rw [add_fin, signed_of_neg_zero hp, signed_of_neg_zero hq]
  split
  · exact ⟨_, 0, rfl, Nat.zero_le _, fun _ => rfl⟩
  · refine upTo_round h Nat.one_pos (by omega) (fun hz => ?_)
    rw [decide_eq_true_iff] at hz
    omega

theorem UpTo.mul {a b c : Nat} {x y : Flt} (hx : UpTo a x) (hy : UpTo b y) (h : a * b ≤ c * 128) (hc : c < 2 ^ 24) :
    UpTo c (x.mul .binary32 y) := by
  obtain ⟨p, m, rfl, hm, hp⟩ := hx
  obtain ⟨q, n, rfl, hn, hq⟩ := hy
  refine upTo_round hc (unit_pos _) ?_ (fun hz => ?_)
  · calc m * n ≤ a * 2 ^ 142 * (b * 2 ^ 142) := Nat.mul_le_mul hm hn
      _ = a * b * (2 ^ 142 * 2 ^ 142) := by ring
      _ ≤ c * 128 * (2 ^ 142 * 2 ^ 142) := Nat.mul_le_mul_right _ h
      _ = c * 2 ^ 142 * unit .binary32 := by rw [unit_binary32]; ring
  · cases p
    · cases q
      · cases hz
      · rw [hq rfl, Nat.mul_zero]
    · rw [hp rfl, Nat.zero_mul]

/-- A number up to `2k` is at most `k` away from `k`. -/
theorem UpTo.abs_sub {k : Nat} {x : Flt} (hx : UpTo (2 * k) x) (hk : k < 2 ^ 24) :
    UpTo k (x.sub .binary32 (grid k)).abs := by
  obtain ⟨p, m, rfl, hm, hp⟩ := hx
  unfold grid
  rw [sub_fin, add_fin, signed_of_neg_zero hp, Bool.not_false, signed_true]
  split
  · exact ⟨false, 0, rfl, Nat.zero_le _, nofun⟩
  · obtain ⟨r, hr, he⟩ := (isValue_grid hk).round_le (decide ((m : Int) + -((k * 2 ^ 142 : Nat) : Int) < 0)) Nat.one_pos
      (show ((m : Int) + -((k * 2 ^ 142 : Nat) : Int)).natAbs ≤ k * 2 ^ 142 * 1 by omega)
    rw [he]
    exact ⟨false, r, rfl, hr, nofun⟩

/-- A number up to `k`, taken from `k`, leaves a number up to `k`. -/
theorem UpTo.sub_from {k : Nat} {x : Flt} (hx : UpTo k x) (hk : k < 2 ^ 24) :
    UpTo k ((grid k).sub .binary32 x) := by
  obtain ⟨p, m, rfl, hm, hp⟩ := hx
  have hs : signed (!p) m = -(m : Int) := by
    cases p
    · rfl
    · rw [hp rfl]; rfl
  unfold grid
  rw [sub_fin, add_fin, hs, signed_false]
  split
  · exact ⟨_, 0, rfl, Nat.zero_le _, fun _ => rfl⟩
  · refine upTo_round hk Nat.one_pos (by omega) (fun hz => ?_)
    rw [decide_eq_true_iff] at hz
    omega

theorem UpTo.fmod2 {k : Nat} {x : Flt} (hx : UpTo k x) : UpTo 256 (x.fmod2 .binary32) := by
  obtain ⟨p, m, rfl, -, hp⟩ := hx
  rw [fmod2_fin _ hp, unit_binary32, ← Nat.mul_assoc]
  exact ⟨false, _, rfl, (Nat.mod_lt m (Nat.mul_pos (by decide) (Nat.two_pow_pos _))).le, nofun⟩

theorem UpTo.trunc {k : Nat} {x : Flt} (hx : UpTo k x) :
    ∃ v : Nat, v ≤ k / 128 ∧ x.trunc .binary32 = some (v : Int) := by
  obtain ⟨p, m, rfl, hm, hp⟩ := hx
  refine ⟨m / unit .binary32, ?_, ?_⟩
  · calc m / unit .binary32 ≤ k * 2 ^ 142 / unit .binary32 := Nat.div_le_div_right hm
      _ = k / 128 := by rw [unit_binary32, Nat.mul_div_mul_right _ _ (Nat.two_pow_pos _)]
  · rw [trunc_fin, signed_of_neg_zero]
    exact fun h => by rw [hp h, Nat.zero_div]

end Sys2Proof.Machine.Flt

namespace Sys2Proof.Machine

open Flt

/-! ### The colour formulas -/

/-- `x` of R105 at `hue' = hp` and chroma `c`. -/
def intermediateOf (f : FloatFormat) (hp c : Flt) : Flt :=
  c.mul f ((Flt.ofNat f 1).sub f ((hp.fmod2 f).sub f (.ofNat f 1)).abs)

/-- `m` of R105 at lightness `l` and chroma `c`. -/
def offsetOf (f : FloatFormat) (l c : Flt) : Flt := l.sub f (c.div f (.ofNat f 2))

/-- The channel of a component `v` of the sextant's tuple, with the offset `m` (R105). -/
def componentChannel (f : FloatFormat) (m v : Flt) : Option Byte := channelOf f ((v.add f m).mul f (.ofNat f 255))

/-- The tuple of R106 that `hsl_to_rgb` uses in sextant `sx`. -/
def componentsOf (f : FloatFormat) (hue s l : Flt) (sx : Sextant) : Flt × Flt × Flt :=
  sx.tuple (chromaOf f s l) (intermediateOf f (hue.div f (.ofNat f 60)) (chromaOf f s l)) (.ofNat f 0)

theorem hslToRgb_grey {f : FloatFormat} {hue s l : Flt} (hs : inUnit f s = true) (hl : inUnit f l = true)
    (h0 : Flt.eq s (.ofNat f 0) = true) :
    hslToRgb f hue s l = (channelOf f (l.mul f (.ofNat f 255))).map fun v => channelsToRgb v v v := by
  simp [hslToRgb, hs, hl, h0]

theorem hslToRgb_black {f : FloatFormat} {hue s l : Flt} (hs : inUnit f s = true) (hl : inUnit f l = true)
    (h0 : Flt.eq s (.ofNat f 0) = false) (hsx : sextantOf f (hue.div f (.ofNat f 60)) = none) :
    hslToRgb f hue s l = some 0x000000#24 := by
  simp [hslToRgb, hs, hl, h0, hsx]

theorem hslToRgb_coloured {f : FloatFormat} {hue s l : Flt} {sx : Sextant} {r g b : Byte} (hs : inUnit f s = true)
    (hl : inUnit f l = true) (h0 : Flt.eq s (.ofNat f 0) = false)
    (hsx : sextantOf f (hue.div f (.ofNat f 60)) = some sx)
    (hr : componentChannel f (offsetOf f l (chromaOf f s l)) (componentsOf f hue s l sx).1 = some r)
    (hg : componentChannel f (offsetOf f l (chromaOf f s l)) (componentsOf f hue s l sx).2.1 = some g)
    (hb : componentChannel f (offsetOf f l (chromaOf f s l)) (componentsOf f hue s l sx).2.2 = some b) :
    hslToRgb f hue s l = some (channelsToRgb r g b) := by
  unfold componentChannel offsetOf componentsOf intermediateOf at hr hg hb
  simp only [hslToRgb, hs, hl, h0, hsx, hr, hg, hb, Bool.and_self, Bool.not_true, Bool.false_eq_true, if_false]

/-- The hue matters through its sextant and its remainder only. -/
theorem hslToRgb_congr_hue {f : FloatFormat} {hue hue' : Flt} (s l : Flt)
    (hsx : sextantOf f (hue.div f (.ofNat f 60)) = sextantOf f (hue'.div f (.ofNat f 60)))
    (hm : (hue.div f (.ofNat f 60)).fmod2 f = (hue'.div f (.ofNat f 60)).fmod2 f) :
    hslToRgb f hue s l = hslToRgb f hue' s l := by
  simp only [hslToRgb, hsx, hm]

theorem sextantOf_minus_zero (f : FloatFormat) : sextantOf f (.fin true 0) = sextantOf f (.fin false 0) := by
  simp [sextantOf, Flt.lt]

/-- What holds of chroma, `x` and zero holds of every component of the tuple (R106). -/
theorem Sextant.tuple_forall {P : Flt → Prop} {c x zero : Flt} (sx : Sextant) (hc : P c) (hx : P x) (h0 : P zero) :
    P (sx.tuple c x zero).1 ∧ P (sx.tuple c x zero).2.1 ∧ P (sx.tuple c x zero).2.2 := by
  cases sx
  · exact ⟨hc, hx, h0⟩
  · exact ⟨hx, hc, h0⟩
  · exact ⟨h0, hc, hx⟩
  · exact ⟨h0, hx, hc⟩
  · exact ⟨hx, h0, hc⟩
  · exact ⟨hc, h0, hx⟩

/-! ### In binary32 -/

theorem inUnit_grid {k : Nat} (h : k ≤ 128) : inUnit .binary32 (grid k) = true := by
  simp [inUnit, ofNat_eq_grid, h]

theorem upTo_of_inUnit {x : Flt} (h : inUnit .binary32 x = true) : UpTo 128 x := by
  unfold inUnit at h
  rw [ofNat_eq_grid (by decide), ofNat_eq_grid (by decide), Bool.and_eq_true] at h
  exact upTo_of_le h.1 h.2

theorem channelOf_of_trunc {f : FloatFormat} {x : Flt} {v : Nat} (h : x.trunc f = some (v : Int)) (hv : v ≤ 255) :
    channelOf f x = some (BitVec.ofNat 8 v) := by
  unfold channelOf
  rw [h]
  exact if_pos ⟨Int.natCast_nonneg v, Int.ofNat_le.2 hv⟩

/-- A number from 0 to 255 has a channel, its integer part. -/
theorem channelOf_upTo {x : Flt} (hx : UpTo (255 * 128) x) :
    ∃ v : Byte, channelOf .binary32 x = some v ∧ x.trunc .binary32 = some (v.toNat : Int) := by
  obtain ⟨v, hle, ht⟩ := hx.trunc
  have hv : v ≤ 255 := hle
  refine ⟨BitVec.ofNat 8 v, channelOf_of_trunc ht hv, ?_⟩
  rw [ht, BitVec.toNat_ofNat, Nat.mod_eq_of_lt (Nat.lt_succ_of_le hv)]

theorem mul_255_upTo {x : Flt} (hx : UpTo 128 x) : UpTo (255 * 128) (x.mul .binary32 (.ofNat .binary32 255)) := by
  rw [ofNat_eq_grid (by decide)]
  exact hx.mul (upTo_grid le_rfl) (by decide) (by decide)

/-- Only a finite hue' from 0 to 6 has a sextant: each test of R106 bounds it on both sides. -/
theorem upTo_of_sextantOf {hp : Flt} {sx : Sextant} (h : sextantOf .binary32 hp = some sx) : ∃ k, UpTo k hp := by
  have of_le {a k : Nat} (h : (Flt.le (grid a) hp && Flt.le hp (grid k)) = true) : ∃ k, UpTo k hp := by
    obtain ⟨ha, hk⟩ := Bool.and_eq_true_iff.1 h
    exact ⟨k, upTo_of_le ha hk⟩
  have of_lt {a k : Nat} (h : (Flt.lt (grid a) hp && Flt.le hp (grid k)) = true) : ∃ k, UpTo k hp := by
    obtain ⟨ha, hk⟩ := Bool.and_eq_true_iff.1 h
    exact ⟨k, upTo_of_le (Bool.and_eq_true_iff.1 ha).1 hk⟩
  unfold sextantOf at h
  simp only [ofNat_eq_grid, Nat.reducePow, Nat.reduceLT] at h
  split at h
  · exact of_le ‹_›
  split at h
  · exact of_le ‹_›
  split at h
  · exact of_lt ‹_›
  split at h
  · exact of_lt ‹_›
  split at h
  · exact of_lt ‹_›
  split at h
  · exact of_lt ‹_›
  · cases h

/-- At any chroma between 0 and 1 the intermediate value of R105 stays there too, whatever hue' is rounded to. -/
theorem intermediateOf_upTo {hp c : Flt} {k : Nat} (hhp : UpTo k hp) (hc : UpTo 128 c) :
    UpTo 128 (intermediateOf .binary32 hp c) := by
  unfold intermediateOf
  rw [ofNat_eq_grid (by decide)]
  have hdist : UpTo 128 ((hp.fmod2 .binary32).sub .binary32 (grid 128)).abs := hhp.fmod2.abs_sub (k := 128) (by decide)
  exact hc.mul (hdist.sub_from (by decide)) (by decide) (by decide)

/-! ### The grid of exact colours -/

/-- The channel of R105 for `v` and offset `m`, both in 128ths, in exact arithmetic. -/
def exactChannel (m v : Nat) : Nat := (v + m) * 255 / 128

theorem exactChannel_le {m v : Nat} (h : v + m ≤ 128) : exactChannel m v ≤ 255 := by
  unfold exactChannel
  omega

theorem componentChannel_grid {m v : Nat} (h : v + m ≤ 128) :
    componentChannel .binary32 (grid m) (grid v) = some (BitVec.ofNat 8 (exactChannel m v)) := by
  have hmul : (grid (v + m)).mul .binary32 (grid (255 * 128)) = grid ((v + m) * 255) :=
    mul_grid (Nat.mul_assoc _ _ _).symm (by omega)
  unfold componentChannel
  rw [ofNat_eq_grid (by decide), add_grid (by omega), hmul]
  exact channelOf_of_trunc (trunc_grid _) (exactChannel_le h)

/-- Chroma in sixteenths at saturation `i / 4` and lightness `j / 4`. -/
def chromaSixteenths (i j : Nat) : Nat := (4 - ((2 * j : Int) - 4).natAbs) * i

/-- The distance of hue' `n / 8` from the nearest even number, in eighths: the factor of chroma in `x`. -/
def rampEighths (n : Nat) : Nat := 8 - ((n % 16 : Int) - 8).natAbs

/-- Chroma is at most twice the lightness and twice its distance from 1. -/
theorem chromaSixteenths_le {i j : Nat} (hi : i ≤ 4) (hj : j ≤ 4) :
    chromaSixteenths i j ≤ 8 * j ∧ chromaSixteenths i j + 8 * j ≤ 32 := by
  have h : chromaSixteenths i j ≤ (4 - ((2 * j : Int) - 4).natAbs) * 4 := Nat.mul_le_mul_left _ hi
  omega

theorem chromaOf_grid {i j : Nat} (hi : i ≤ 4) (hj : j ≤ 4) :
    chromaOf .binary32 (grid (32 * i)) (grid (32 * j)) = grid (8 * chromaSixteenths i j) := by
  unfold chromaSixteenths
  obtain ⟨t, ht⟩ : ∃ t, t = 4 - ((2 * j : Int) - 4).natAbs := ⟨_, rfl⟩
  have hdouble : (grid (2 * 128)).mul .binary32 (grid (32 * j)) = grid (64 * j) := mul_grid (by ring) (by omega)
  have hfactor : 1 * 128 - (((64 * j : Nat) : Int) - (1 * 128 : Nat)).natAbs = 32 * t := by omega
  have hti : t * i ≤ 4 * 4 := Nat.mul_le_mul (by omega) hi
  unfold chromaOf
  rw [ofNat_eq_grid (by decide), ofNat_eq_grid (by decide), hdouble, abs_sub_grid (by omega) (by omega),
    sub_grid_of_le (by omega) (by omega), ← ht, hfactor]
  exact mul_grid (by ring) (by omega)

/-- The intermediate value on the grid: hue' `n / 8`, chroma `k / 16`. -/
theorem intermediateOf_grid {n k : Nat} (hk : k ≤ 16) :
    intermediateOf .binary32 (grid (16 * n)) (grid (8 * k)) = grid (k * rampEighths n) := by
  have hfactor : 1 * 128 - (((16 * n % 256 : Nat) : Int) - (1 * 128 : Nat)).natAbs = 16 * rampEighths n := by
    unfold rampEighths
    omega
  have hx : k * rampEighths n ≤ 16 * 8 := Nat.mul_le_mul hk (Nat.sub_le _ _)
  unfold intermediateOf
  rw [ofNat_eq_grid (by decide), fmod2_grid, abs_sub_grid (by omega) (by omega),
    sub_grid_of_le (by omega) (by omega), hfactor]
  exact mul_grid (by ring) (by omega)

/-- The offset on the grid: lightness `j / 4`, chroma `k / 16`. -/
theorem offsetOf_grid {j k : Nat} (hj : j ≤ 4) (hk : k ≤ 16) (h : 4 * k ≤ 32 * j) :
    offsetOf .binary32 (grid (32 * j)) (grid (8 * k)) = grid (32 * j - 4 * k) := by
  have hhalf : (grid (8 * k)).div .binary32 (grid (2 * 128)) = grid (4 * k) :=
    div_grid (by decide) (by ring) (by omega)
  unfold offsetOf
  rw [ofNat_eq_grid (by decide), hhalf]
  exact sub_grid_of_le (by omega) h

/-- The sextant of hue' `n / 8` (R106), for `n` up to 48. -/
def exactSextant (n : Nat) : Sextant :=
  if n ≤ 8 then .s1 else if n ≤ 16 then .s2 else if n ≤ 24 then .s3 else if n ≤ 32 then .s4
  else if n ≤ 40 then .s5 else .s6

theorem sextantOf_grid {n : Nat} (hn : n ≤ 48) : sextantOf .binary32 (grid (16 * n)) = some (exactSextant n) := by
  unfold sextantOf exactSextant
  simp only [ofNat_eq_grid, Nat.reducePow, Nat.reduceLT, Flt.lt, le_grid, Bool.and_eq_true, Bool.not_eq_true',
    decide_eq_true_eq, decide_eq_false_iff_not]
  by_cases h1 : n ≤ 8
  · rw [if_pos (by omega), if_pos h1]
  rw [if_neg (by omega), if_neg h1]
  by_cases h2 : n ≤ 16
  · rw [if_pos (by omega), if_pos h2]
  rw [if_neg (by omega), if_neg h2]
  by_cases h3 : n ≤ 24
  · rw [if_pos (by omega), if_pos h3]
  rw [if_neg (by omega), if_neg h3]
  by_cases h4 : n ≤ 32
  · rw [if_pos (by omega), if_pos h4]
  rw [if_neg (by omega), if_neg h4]
  by_cases h5 : n ≤ 40
  · rw [if_pos (by omega), if_pos h5]
  rw [if_neg (by omega), if_neg h5]
  rw [if_pos (by omega)]

/-- The sextant table on Floats (R106) and in `exactHsl` on 128ths: one component each, none above chroma. -/
theorem tuple_grid (n i j : Nat) : ∃ r g b,
    (exactSextant n).tuple (grid (8 * chromaSixteenths i j)) (grid (chromaSixteenths i j * rampEighths n)) (grid 0) =
      (grid r, grid g, grid b) ∧
    exactHsl n i j = (exactChannel (32 * j - 4 * chromaSixteenths i j) r,
      exactChannel (32 * j - 4 * chromaSixteenths i j) g, exactChannel (32 * j - 4 * chromaSixteenths i j) b) ∧
    r ≤ 8 * chromaSixteenths i j ∧ g ≤ 8 * chromaSixteenths i j ∧ b ≤ 8 * chromaSixteenths i j := by
  have hk : (4 - ((2 * j : Int) - 4).natAbs) * i = chromaSixteenths i j := rfl
  have hw : 8 - ((n % 16 : Int) - 8).natAbs = rampEighths n := rfl
  have hx : 8 * chromaSixteenths i j * rampEighths n / 8 = chromaSixteenths i j * rampEighths n := by
    rw [Nat.mul_assoc, Nat.mul_div_cancel_left _ (by decide)]
  have hm : 8 * chromaSixteenths i j / 2 = 4 * chromaSixteenths i j := by omega
  have hxk : chromaSixteenths i j * rampEighths n ≤ 8 * chromaSixteenths i j := by
    rw [Nat.mul_comm]
    exact Nat.mul_le_mul_right _ (Nat.sub_le _ _)
  unfold exactHsl exactSextant
  simp only [hk, hw, hx, hm]
  split_ifs <;> exact ⟨_, _, _, rfl, rfl, by omega, by omega, by omega⟩

theorem toNat_channelsToRgb (r g b : Byte) :
    (channelsToRgb r g b).toNat = r.toNat * 65536 + g.toNat * 256 + b.toNat := by
  unfold channelsToRgb
  rw [BitVec.toNat_append, BitVec.toNat_append, ← Nat.shiftLeft_add_eq_or_of_lt g.isLt,
    ← Nat.shiftLeft_add_eq_or_of_lt b.isLt, Nat.shiftLeft_eq, Nat.shiftLeft_eq]
  ring

theorem channelsToRgb_ofNat {g b : Nat} (r : Nat) (hg : g ≤ 255) (hb : b ≤ 255) :
    channelsToRgb (BitVec.ofNat 8 r) (BitVec.ofNat 8 g) (BitVec.ofNat 8 b) =
      BitVec.ofNat 24 (r * 65536 + g * 256 + b) := by
  apply BitVec.eq_of_toNat_eq
  simp only [toNat_channelsToRgb, BitVec.toNat_ofNat]
  omega

theorem eq_grid_zero (k : Nat) : Flt.eq (grid k) (.ofNat .binary32 0) = decide (k = 0) := by
  rw [ofNat_eq_grid (by decide)]
  simp [Flt.eq]

/-- Without saturation chroma is zero, and every component of every sextant is the offset alone. -/
theorem exactHsl_grey (n j : Nat) :
    exactHsl n 0 j = (exactChannel (32 * j) 0, exactChannel (32 * j) 0, exactChannel (32 * j) 0) := by
  unfold exactHsl
  simp only [Nat.mul_zero, Nat.zero_mul, Nat.zero_div, Nat.sub_zero, ite_self]
  rfl

/-- The grey of a lightness on the grid. -/
theorem hslToRgb_grid_grey {j : Nat} (hj : j ≤ 4) (hue : Flt) :
    hslToRgb .binary32 hue (grid 0) (grid (32 * j)) =
      some (channelsToRgb (BitVec.ofNat 8 (exactChannel (32 * j) 0)) (BitVec.ofNat 8 (exactChannel (32 * j) 0))
        (BitVec.ofNat 8 (exactChannel (32 * j) 0))) := by
  have hmul : (grid (32 * j)).mul .binary32 (grid (255 * 128)) = grid ((0 + 32 * j) * 255) :=
    mul_grid (by ring) (by omega)
  rw [hslToRgb_grey (inUnit_grid (by decide)) (inUnit_grid (by omega)) (eq_grid_zero 0), ofNat_eq_grid (by decide), hmul,
    channelOf_of_trunc (trunc_grid _) (exactChannel_le (by omega))]
  rfl

/-- With saturation, `hsl_to_rgb` on the grid is the exact colour. -/
theorem hslToRgb_grid_coloured {n i j : Nat} (hn : n ≤ 48) (hi : i ≤ 4) (hi0 : i ≠ 0) (hj : j ≤ 4) :
    hslToRgb .binary32 (grid (960 * n)) (grid (32 * i)) (grid (32 * j)) =
      some (channelsToRgb (BitVec.ofNat 8 (exactHsl n i j).1) (BitVec.ofNat 8 (exactHsl n i j).2.1)
        (BitVec.ofNat 8 (exactHsl n i j).2.2)) := by
  obtain ⟨hlight, hdark⟩ := chromaSixteenths_le hi hj
  obtain ⟨r, g, b, htuple, hexact, hr, hg, hb⟩ := tuple_grid n i j
  have hp : (grid (960 * n)).div .binary32 (.ofNat .binary32 60) = grid (16 * n) := by
    rw [ofNat_eq_grid (by decide)]
    exact div_grid (by decide) (by ring) (by omega)
  have hoffset : offsetOf .binary32 (grid (32 * j)) (chromaOf .binary32 (grid (32 * i)) (grid (32 * j))) =
      grid (32 * j - 4 * chromaSixteenths i j) := by
    rw [chromaOf_grid hi hj]
    exact offsetOf_grid hj (by omega) (by omega)
  have hcomponents : componentsOf .binary32 (grid (960 * n)) (grid (32 * i)) (grid (32 * j)) (exactSextant n) =
      (grid r, grid g, grid b) := by
    unfold componentsOf
    rw [chromaOf_grid hi hj, hp, intermediateOf_grid (by omega), ofNat_eq_grid (by decide)]
    exact htuple
  have h0 : Flt.eq (grid (32 * i)) (.ofNat .binary32 0) = false := by
    rw [eq_grid_zero]
    exact decide_eq_false (by omega)
  rw [hexact]
  refine hslToRgb_coloured (inUnit_grid (by omega)) (inUnit_grid (by omega)) h0 (hp ▸ sextantOf_grid hn) ?_ ?_ ?_
  all_goals
    rw [hcomponents, hoffset]
    exact componentChannel_grid (by omega)

theorem exactHsl_le (n : Nat) {i j : Nat} (hi : i ≤ 4) (hj : j ≤ 4) :
    (exactHsl n i j).1 ≤ 255 ∧ (exactHsl n i j).2.1 ≤ 255 ∧ (exactHsl n i j).2.2 ≤ 255 := by
  obtain ⟨hlight, hdark⟩ := chromaSixteenths_le hi hj
  obtain ⟨r, g, b, -, hexact, hr, hg, hb⟩ := tuple_grid n i j
  rw [hexact]
  exact ⟨exactChannel_le (by omega), exactChannel_le (by omega), exactChannel_le (by omega)⟩

/-- `hsl_to_rgb` on the grid is the exact colour. -/
theorem hslToRgb_grid {n i j : Nat} (hn : n ≤ 48) (hi : i ≤ 4) (hj : j ≤ 4) :
    hslToRgb .binary32 (grid (960 * n)) (grid (32 * i)) (grid (32 * j)) =
      some (BitVec.ofNat 24 ((exactHsl n i j).1 * 65536 + (exactHsl n i j).2.1 * 256 + (exactHsl n i j).2.2)) := by
  obtain ⟨-, hg, hb⟩ := exactHsl_le n hi hj
  rw [← channelsToRgb_ofNat _ hg hb]
  rcases Nat.eq_zero_or_pos i with rfl | hpos
  · rw [exactHsl_grey]
    exact hslToRgb_grid_grey hj _
  · exact hslToRgb_grid_coloured hn hi hpos.ne' hj

/-! ### Saturation 1 at lightness one half -/

/-- At saturation 1 and lightness 1/2 chroma is 1 and the offset 0. -/
theorem chromaOf_full : chromaOf .binary32 (grid 128) (grid 64) = grid 128 :=
  chromaOf_grid (i := 4) (j := 2) le_rfl (by decide)

theorem offsetOf_full : offsetOf .binary32 (grid 64) (grid 128) = grid 0 :=
  offsetOf_grid (j := 2) (k := 16) (by decide) le_rfl le_rfl

/-- A component between 0 and 1 with offset 0 has a channel. -/
theorem componentChannel_upTo {v : Flt} (hv : UpTo 128 v) : ∃ b, componentChannel .binary32 (grid 0) v = some b := by
  have hsum : UpTo 128 (v.add .binary32 (grid 0)) := hv.add (b := 0) (upTo_grid le_rfl) (by decide)
  obtain ⟨b, hb, -⟩ := channelOf_upTo (mul_255_upTo hsum)
  exact ⟨b, hb⟩

theorem hslToRgb_full_total (hue : Flt) : ∃ c, hslToRgb .binary32 hue (grid 128) (grid 64) = some c := by
  have hs : inUnit .binary32 (grid 128) = true := inUnit_grid le_rfl
  have hl : inUnit .binary32 (grid 64) = true := inUnit_grid (by decide)
  have h0 : Flt.eq (grid 128) (.ofNat .binary32 0) = false := eq_grid_zero 128
  cases hsx : sextantOf .binary32 (hue.div .binary32 (.ofNat .binary32 60)) with
  | none => exact ⟨_, hslToRgb_black hs hl h0 hsx⟩
  | some sx =>
    obtain ⟨k, hhp⟩ := upTo_of_sextantOf hsx
    have hchroma : UpTo 128 (chromaOf .binary32 (grid 128) (grid 64)) := by
      rw [chromaOf_full]
      exact upTo_grid le_rfl
    have hzero : UpTo 128 (.ofNat .binary32 0) := by
      rw [ofNat_eq_grid (by decide)]
      exact upTo_grid (by decide)
    have hoffset : offsetOf .binary32 (grid 64) (chromaOf .binary32 (grid 128) (grid 64)) = grid 0 := by
      rw [chromaOf_full, offsetOf_full]
    obtain ⟨hr, hg, hb⟩ := sx.tuple_forall (P := UpTo 128) hchroma (intermediateOf_upTo hhp hchroma) hzero
    obtain ⟨r, hr⟩ := componentChannel_upTo hr
    obtain ⟨g, hg⟩ := componentChannel_upTo hg
    obtain ⟨b, hb⟩ := componentChannel_upTo hb
    rw [← hoffset] at hr hg hb
    exact ⟨_, hslToRgb_coloured hs hl h0 hsx hr hg hb⟩

/-! ### Saturation zero, and a hue of minus zero -/

theorem inUnit_zero (neg : Bool) : inUnit .binary32 (.fin neg 0) = true := by
  have h : inUnit .binary32 (.fin false 0) = true := inUnit_grid (k := 0) (by decide)
  cases neg
  · exact h
  · simpa [inUnit] using h

theorem hslToRgb_zero_saturation (hue : Flt) {lightness : Flt} (neg : Bool) (hl : inUnit .binary32 lightness = true) :
    ∃ v : Byte, hslToRgb .binary32 hue (.fin neg 0) lightness = some (channelsToRgb v v v) ∧
      (lightness.mul .binary32 (.ofNat .binary32 255)).trunc .binary32 = some (v.toNat : Int) := by
  obtain ⟨v, hv, ht⟩ := channelOf_upTo (mul_255_upTo (upTo_of_inUnit hl))
  refine ⟨v, ?_, ht⟩
  have h0 : Flt.eq (.fin neg 0) (.ofNat .binary32 0) = true := by
    rw [Flt.ofNat_zero]
    cases neg <;> rfl
  rw [hslToRgb_grey (inUnit_zero neg) hl h0, hv]
  rfl

theorem hslToRgb_minus_zero (s l : Flt) :
    hslToRgb .binary32 (.fin true 0) s l = hslToRgb .binary32 (.fin false 0) s l := by
  have hp (neg : Bool) : (Flt.fin neg 0).div .binary32 (.ofNat .binary32 60) = .fin neg 0 := by
    rw [ofNat_eq_grid (by decide), grid, div_fin _ _ _ _ (by decide), Nat.zero_mul, round_zero _ _ (by decide),
      Bool.xor_false]
  refine hslToRgb_congr_hue s l ?_ ?_
  · rw [hp, hp, sextantOf_minus_zero]
  · rw [hp, hp]
    rfl

/-- Settles O57: saturation 0 is grey, saturation 1 at lightness 1/2 has a colour at every hue, minus zero is a hue
of zero, and on the grid nothing is rounded. -/
theorem zeroSaturationIsGreyAndFullSaturationInRange : Obligations.ZeroSaturationIsGreyAndFullSaturationInRange := by
  unfold Obligations.ZeroSaturationIsGreyAndFullSaturationInRange
  refine ⟨fun hue _ neg hl => hslToRgb_zero_saturation hue neg hl, fun hue => ?_, hslToRgb_minus_zero,
    fun n i j hn hi hj => ?_⟩
  · have hhalf : (Flt.ofNat .binary32 1).div .binary32 (.ofNat .binary32 2) = grid 64 := by
      rw [ofNat_eq_grid (by decide), ofNat_eq_grid (by decide)]
      exact div_grid (by decide) (by decide) (by decide)
    rw [hhalf, ofNat_eq_grid (by decide)]
    exact hslToRgb_full_total hue
  · have hhue : 60 * n * 2 ^ 146 = 960 * n * 2 ^ 142 := by ring
    have hquarter (q : Nat) : q * 2 ^ 147 = 32 * q * 2 ^ 142 := by ring
    rw [hhue, hquarter i, hquarter j]
    exact hslToRgb_grid hn hi hj

end Sys2Proof.Machine
end

/-! # What a step can do, said once

`ExecEffect` lists what a command can make of a state, `Move` what any agent can. A step is one move, before and after
which only what stands outside the block may change (`step_move`), so an invariant of the block is one case split over
`Move`, in which only the moves that touch its registers say anything. -/

section
namespace Sys2Proof.Machine

/-! ### Commands -/

/-- A channel as PWM.START leaves it (R124). -/
def Channel.start (ch : Channel) (x : Slice) (top init : Half) : Channel :=
  { ch.setCmp x init with en := true, top := PwmReg.of top }

/-- The three writes of PWM.START, all to one channel, come to one. -/
theorem start_eq_setChan (s : State) (p : Pin) (init : Half) :
    ((s.setTop (s.chanOf p) s.cfg.pwmTop).setCmpreg p init).enableChan (s.chanOf p) =
      s.setChan (s.chanOf p) ((s.chan (s.chanOf p)).start (s.sliceOf p) s.cfg.pwmTop init) := by
  have setChan_setChan (c : Chan) (a b : Channel) : (s.setChan c a).setChan c b = s.setChan c b := by
    simp [State.setChan]
  have hchan (c : Chan) (ch : Channel) : (s.setChan c ch).chanOf p = s.chanOf p := rfl
  have hslice (c : Chan) (ch : Channel) : (s.setChan c ch).sliceOf p = s.sliceOf p := rfl
  simp only [State.enableChan, State.setCmpreg, State.setTop, hchan, hslice, State.chan_setChan_same, setChan_setChan]
  cases s.sliceOf p <;> rfl

/-- What the execution of a command in `s` can answer: a failure with one of the command's codes, which is the record
alone, or the command's effect. -/
inductive ExecEffect (s : State) : Instr → State → Prop where
  | failed {i : Instr} {k : ResultCode} (hk : k ∈ possibleCodes i) : ExecEffect s i (s.complete k)
  | pwmStart {pin : BitVec 5} {init : Half} (p : Pin) (hpin : pin.toNat = p.val) (hp : p.val < s.cfg.nPins) :
      ExecEffect s (.pwmStart pin init)
        ((s.setChan (s.chanOf p) ((s.chan (s.chanOf p)).start (s.sliceOf p) s.cfg.pwmTop init)).complete .ok)
  | pwmSet {pin : BitVec 5} {raw : Half} (p : Pin) (hpin : pin.toNat = p.val) (hp : p.val < s.cfg.nPins) :
      ExecEffect s (.pwmSet pin raw) ((s.setCmpreg p raw).complete .ok)
  | pwmSetp {pin : BitVec 5} (p : Pin) (hpin : pin.toNat = p.val) (hp : p.val < s.cfg.nPins) (raw : Half) :
      ExecEffect s (.pwmSetp pin) ((s.setCmpreg p raw).complete .ok)
  | pwmSetpDrawn {pin : BitVec 5} (p : Pin) (hpin : pin.toNat = p.val) (hp : p.val < s.cfg.nPins) :
      ExecEffect s (.pwmSetp pin) ((s.takeDraw.setCmpreg p (Config.freeCompare s.draws)).complete .ok)
  | spiSolve (q : Nat) (hq : solvePrescale s.arg0.toNat s.arg1.toNat = some q) :
      ExecEffect s .spiSolve ((s.setRet0 (packDivider q (solvePostdiv s.arg0.toNat s.arg1.toNat q))).complete .ok)
  | spiApply {sel : BitVec 4} {prescale postdiv : Byte} (i : SpiIx) (hi : selOf s.cfg sel = some i)
      (hmin : 2 ≤ prescale.toNat) (heven : prescale.toNat % 2 = 0) :
      ExecEffect s (.spiApply sel prescale postdiv)
        ((s.setPort i { s.port i with cpsdvsr := prescale, scr := postdiv }).complete .ok)
  | spiSendNothing {dss sel : BitVec 4} {count : Half} (i : SpiIx) (hi : selOf s.cfg sel = some i)
      (hdss : 3 ≤ dss.toNat) (hcount : count.toNat = 0) :
      ExecEffect s (.spiSend dss sel count) ((s.setPort i ((s.port i).configure dss)).complete .ok)
  | spiSend {dss sel : BitVec 4} {count : Half} (i : SpiIx) (hi : selOf s.cfg sel = some i) (hdss : 3 ≤ dss.toNat)
      (hcount : 0 < count.toNat) (hcap : count.toNat ≤ s.cfg.bufCap) :
      ExecEffect s (.spiSend dss sel count)
        ((s.setPort i ((s.port i).configure dss)).setSeq (.sending i count.toNat 0 .push))
  | gpioSet {pin : BitVec 5} {mode : BitVec 2} (p : Pin) (v : PinCtrl) (hp : pinOf s.cfg pin = some p)
      (hv : pinval mode = some v) : ExecEffect s (.gpioSet pin mode) ((s.setPinCtrl p v).complete .ok)
  | ledEncode {count : Half} (colours : List Colour) (hcount : count.toNat ≤ s.cfg.colCap)
      (hcap : encodedLength count.toNat ≤ s.cfg.bufCap) (hread : s.col.readRange 0 count.toNat = .ok colours) :
      ExecEffect s (.ledEncode count)
        (((s.setBuf (s.buf.putAll 0 (encodeFrame s.cfg colours))).setEncLen
          (BitVec.ofNat 16 (encodedLength count.toNat))).complete .ok)

theorem exec_effect {i : Instr} {s t : State} (h : exec i s = .next t) : ExecEffect s i t := by
  cases i with
  | pwmStart pin init =>
    rcases execPwmStart_cases pin init s with ⟨-, e⟩ | ⟨p, hpin, hp, e⟩ <;> (rw [exec, e] at h; cases h)
    · exact .failed (by simp [possibleCodes])
    · rw [start_eq_setChan]
      exact .pwmStart p hpin hp
  | pwmSet pin raw =>
    rcases execPwmSet_cases pin raw s with ⟨-, e⟩ | ⟨p, hpin, hp, e⟩ <;> (rw [exec, e] at h; cases h)
    · exact .failed (by simp [possibleCodes])
    · exact .pwmSet p hpin hp
  | pwmSetp pin =>
    rcases execPwmSetp_cases pin s with ⟨-, e⟩ | ⟨p, hpin, hp, f, -, ⟨raw, -, e⟩ | ⟨-, e⟩⟩ <;>
      (rw [exec, e] at h; cases h)
    · exact .failed (by simp [possibleCodes])
    · exact .pwmSetp p hpin hp raw
    · exact .pwmSetpDrawn p hpin hp
  | spiSolve =>
    rcases execSpiSolve_cases s with ⟨-, e⟩ | ⟨q, hq, e⟩ <;> (rw [exec, e] at h; cases h)
    · exact .failed (by simp [possibleCodes])
    · exact .spiSolve q hq
  | spiApply sel prescale postdiv =>
    rcases execSpiApply_cases sel prescale postdiv s with ⟨k, hk, e⟩ | ⟨i, hi, hmin, heven, e⟩ <;>
      (rw [exec, e] at h; cases h)
    · exact .failed (by simpa [possibleCodes] using hk)
    · exact .spiApply i hi hmin heven
  | spiSend dss sel count =>
    rcases execSpiSend_cases dss sel count s with ⟨k, hk, e⟩ | ⟨i, hi, hdss, hcap, ⟨hcount, e⟩ | ⟨hcount, e⟩⟩ <;>
      (rw [exec, e] at h; cases h)
    · exact .failed (by simpa [possibleCodes] using hk)
    · exact .spiSendNothing i hi hdss hcount
    · exact .spiSend i hi hdss hcount hcap
  | gpioSet pin mode =>
    rcases execGpioSet_cases pin mode s with ⟨k, hk, e⟩ | ⟨p, v, hp, hv, e⟩ <;> (rw [exec, e] at h; cases h)
    · exact .failed (by simpa [possibleCodes] using hk)
    · exact .gpioSet p v hp hv
  | ledEncode count =>
    rcases execLedEncode_cases count s with e | ⟨hcount, -, hcap, ⟨k, -, e⟩ | ⟨colours, hread, e⟩⟩ <;>
      (rw [exec, e] at h; cases h)
    · exact .failed (by simp [possibleCodes])
    · exact .ledEncode colours hcount hcap hread

/-- R215: no command has `DivisionByZero` among its codes. -/
theorem ne_divisionByZero_of_mem_possibleCodes {i : Instr} {k : ResultCode} (h : k ∈ possibleCodes i) :
    k ≠ .divisionByZero := by
  rintro rfl
  cases i <;> simp [possibleCodes] at h

/-! ### All agents -/

/-- What one agent can do to the block in `s`. -/
inductive Move (s : State) : State → Prop where
  | stay : Move s s
  | storeArg0 (v : Word) : Move s (s.setArg0 v)
  | storeArg1 (v : Word) : Move s (s.setArg1 v)
  | storeCol (k : Nat) (v : Colour) (hk : k < s.cfg.colCap) : Move s (s.setCol (s.col.put k v))
  | storeBuf (j : Nat) (v : Half) (hj : j < s.cfg.bufCap) : Move s (s.setBuf (s.buf.put j v))
  | illegalWord : Move s (s.complete .illegalCommand)
  | command {i : Instr} {t : State} (he : ExecEffect s i t) : Move s t
  | push (i : SpiIx) (n idx : Nat) (w : Half) (hseq : s.seq = .sending i n idx .push) (hidx : idx < n)
      (hw : s.buf.get idx = some w) (hroom : (s.port i).fifo.length < s.cfg.fifoDepth) :
      Move s ((s.setPort i { s.port i with fifo := (s.port i).fifo ++ [w] }).setSeq (.sending i n (idx + 1) .wait))
  | nextWord (i : SpiIx) (n idx : Nat) (hseq : s.seq = .sending i n idx .wait)
      (hroom : (s.port i).fifo.length < s.cfg.fifoDepth) (hidx : idx < n) : Move s (s.setSeq (.sending i n idx .push))
  | sendDone (i : SpiIx) (n idx : Nat) (hseq : s.seq = .sending i n idx .wait)
      (hroom : (s.port i).fifo.length < s.cfg.fifoDepth) (hidx : n ≤ idx) : Move s ((s.setSeq .idle).complete .ok)
  | shift (i : SpiIx) : Move s (s.setPort i (s.port i).shifterStep)
  | tick (c : Chan) : Move s (s.setChan c (s.chan c).tick)
  | reset : Move s { State.atReset s.cfg (s.epoch + 1) with host := s.host, turns := s.turns, draws := s.draws }

/-- What stands outside the block: the host's accesses to come, the schedule, the bus's last answer. -/
structure Surroundings where
  host : List Access
  turns : List Turn
  reply : Reply

/-- The block of `s` in other surroundings. -/
def State.within (s : State) (e : Surroundings) : State :=
  { s with host := e.host, turns := e.turns, reply := e.reply }

/-- The surroundings of the block in `s`. -/
def State.surroundings (s : State) : Surroundings := ⟨s.host, s.turns, s.reply⟩

theorem writeReg_move {s s' : State} {v : Word} {r : Reg} (hr : r.present s.cfg = true) (h : writeReg s v r = some s') :
    Move s s' := by
  rcases writeReg_cases h with rfl | rfl | ⟨k, rfl, rfl⟩ | ⟨j, rfl, rfl⟩
  · exact .storeArg0 v
  · exact .storeArg1 v
  · exact .storeCol _ _ (by simpa [Reg.present] using hr)
  · exact .storeBuf _ _ (by simpa [Reg.present] using hr)

theorem sequencerTurn_move {s t : State} (h : sequencerTurn s = .next t) : Move s t := by
  rcases sequencerTurn_cases h with rfl | ⟨i, n, idx, w, hseq, hidx, hw, hroom, rfl⟩ |
    ⟨i, n, idx, hseq, hroom, hidx, rfl⟩ | ⟨i, n, idx, hseq, hroom, hidx, rfl⟩
  · exact .stay
  · exact .push i n idx w hseq hidx hw hroom
  · exact .nextWord i n idx hseq hroom hidx
  · exact .sendDone i n idx hseq hroom hidx

theorem issue_move {a : Access} {s t : State} (h : (issue a s).outcome = .next t) :
    ∃ e e' u, Move (s.within e) u ∧ t = u.within e' := by
  rcases issue_cases a s with ⟨err, e⟩ | ⟨off, size, r, v, -, -, e⟩ | ⟨off, size, r, v, s', -, hd, hw, e⟩ |
    ⟨off, size, w, why, -, -, e⟩ | ⟨off, size, w, i, -, -, -, e⟩ <;> rw [e] at h
  · cases h
    exact ⟨s.surroundings, ⟨s.host, s.turns, .error err⟩, s, .stay, rfl⟩
  · cases h
    exact ⟨s.surroundings, ⟨s.host, s.turns, .data v⟩, s, .stay, rfl⟩
  · cases h
    exact ⟨s.surroundings, ⟨s'.host, s'.turns, .done⟩, s', writeReg_move (decodeAddress_ok hd).2.2.1 hw, rfl⟩
  · cases h
    exact ⟨s.surroundings, ⟨s.host, s.turns, .done⟩, _, .illegalWord, rfl⟩
  · exact ⟨⟨s.host, s.turns, .pending⟩, t.surroundings, t, .command (exec_effect h), rfl⟩

theorem hostTurn_move {s t : State} (h : hostTurn s = .next t) :
    ∃ e e' u, Move (s.within e) u ∧ t = u.within e' := by
  by_cases hi : s.seq = .idle
  · cases hh : s.host with
    | nil =>
      rw [hostTurn_nil hh] at h
      cases h
      exact ⟨s.surroundings, s.surroundings, s, .stay, rfl⟩
    | cons a rest =>
      rw [hostTurn_cons hi hh] at h
      exact issue_move (s := { s with host := rest }) h
  · rw [hostTurn_held hi] at h
    cases h
    exact ⟨s.surroundings, s.surroundings, s, .stay, rfl⟩

/-- A step is one move of the block, before and after which its surroundings may change. -/
theorem step_move {s t : State} (h : step s = .next t) : ∃ e e' u, Move (s.within e) u ∧ t = u.within e' := by
  cases hturns : s.turns with
  | nil =>
    rw [step_nil hturns] at h
    cases h
    exact ⟨s.surroundings, s.surroundings, s, .stay, rfl⟩
  | cons trn rest =>
    rw [step_cons hturns] at h
    cases trn with
    | host => exact hostTurn_move (s := { s with turns := rest }) h
    | sequencer => exact ⟨⟨s.host, rest, s.reply⟩, t.surroundings, t, sequencerTurn_move h, rfl⟩
    | shifter i =>
      cases h
      exact ⟨⟨s.host, rest, s.reply⟩, ⟨s.host, rest, s.reply⟩, _, .shift i, rfl⟩
    | counter c =>
      cases h
      exact ⟨⟨s.host, rest, s.reply⟩, ⟨s.host, rest, s.reply⟩, _, .tick c, rfl⟩
    | reset =>
      cases h
      exact ⟨⟨s.host, rest, s.reply⟩, ⟨s.host, rest, .none⟩, _, .reset, rfl⟩

/-- R42: no agent changes a parameter. -/
theorem Move.cfg_eq {s t : State} (m : Move s t) : t.cfg = s.cfg := by
  cases m with
  | command he => cases he <;> rfl
  | _ => rfl

theorem step_cfg {s t : State} (h : step s = .next t) : t.cfg = s.cfg := by
  obtain ⟨_, _, _, m, rfl⟩ := step_move h
  exact m.cfg_eq

end Sys2Proof.Machine
end

/-! # The invariants of the state (R25 to R40), kept by every step -/

section
namespace Sys2Proof.Machine

/-! ### Pin control registers -/

theorem pinval_legal {mode : BitVec 2} {v : PinCtrl} (h : pinval mode = some v) : v.Legal := by
  unfold pinval at h
  split at h <;> cases h <;> simp [PinCtrl.Legal]

theorem State.PinsLegal.setPinCtrl {s : State} (h : s.PinsLegal) {p : Pin} (hp : p.val < s.cfg.nPins) {v : PinCtrl}
    (hv : v.Legal) : (s.setPinCtrl p v).PinsLegal := by
  obtain ⟨hlegal, habsent⟩ := h
  refine ⟨fun q => ?_, fun q (hq : s.cfg.nPins ≤ q.val) => ?_⟩
  · by_cases hqp : q = p
    · subst hqp
      rwa [State.pinCtrl_setPinCtrl_same]
    · rw [State.pinCtrl_setPinCtrl_ne _ _ hqp]
      exact hlegal q
  · rw [State.pinCtrl_setPinCtrl_ne _ _ (by rintro rfl; omega)]
    exact habsent q hq

theorem State.pinsLegal_atReset (c : Config) (e : Nat) : (State.atReset c e).PinsLegal :=
  ⟨fun p => .inl (State.pinCtrl_atReset c e p), fun p _ => State.pinCtrl_atReset c e p⟩

/-- Only GPIO.SET and a reset write pin control registers. -/
theorem State.PinsLegal.move {s t : State} (h : s.PinsLegal) (m : Move s t) : t.PinsLegal := by
  cases m with
  | command he =>
    cases he with
    | gpioSet p v hp hv => exact h.setPinCtrl (pinOf_eq_some.1 hp).2 (pinval_legal hv)
    | _ => exact h
  | reset => exact pinsLegal_atReset s.cfg (s.epoch + 1)
  | _ => exact h

/-- R174: of the four values each has an output, and only `0x000` leaves the pin undriven. -/
theorem pinOut_of_legal {s : State} {p : Pin} (h : (s.pinCtrl p).Legal) :
    ∃ o, s.pinOut p = some o ∧ (o = .z ↔ (s.pinCtrl p).word = 0#32) := by
  unfold State.pinOut
  rcases h with e | e | e | e <;> rw [e]
  · exact ⟨.z, rfl, by decide⟩
  · exact ⟨.low, rfl, by decide⟩
  · exact ⟨.high, rfl, by decide⟩
  · exact ⟨.pwm _, rfl, by simp [PinCtrl.word, FuncSel.code, OeOver.code, OutOver.code]⟩

/-- Settles O45: of the moves of a step only GPIO.SET and a reset write pin control registers, both with legal values. -/
theorem stepKeepsPinsLegal : Obligations.StepKeepsPinsLegal := by
  unfold Obligations.StepKeepsPinsLegal
  intro s hs
  refine ⟨fun t h => ?_, fun p => pinOut_of_legal (hs.1 p)⟩
  obtain ⟨e, _, u, m, rfl⟩ := step_move h
  have hu : u.PinsLegal := State.PinsLegal.move (s := s.within e) hs m
  exact hu

/-! ### The record -/

/-- The invariant of the record is about `RESULT` and the two fields of `STATUS`. -/
theorem State.RecordInv.congr {s t : State} (h : s.RecordInv) (hresult : t.result = s.result)
    (hfault : t.statusFault = s.statusFault) (hfirst : t.firstErr = s.firstErr) : t.RecordInv := by
  obtain ⟨hiff, hfailed, hresult', hfirst'⟩ := h
  constructor
  · rwa [hfault, hfirst]
  · rwa [hresult, hfault]
  · rwa [hresult]
  · rwa [hfirst]

theorem State.recordInv_atReset (c : Config) (e : Nat) : (State.atReset c e).RecordInv :=
  ⟨iff_of_true rfl rfl, fun hne => absurd rfl hne, nofun, nofun⟩

theorem State.RecordInv.complete {s : State} (h : s.RecordInv) {k : ResultCode} (hk : k ≠ .divisionByZero) :
    (s.complete k).RecordInv := by
  obtain ⟨hiff, hfailed, hresult, hfirst⟩ := h
  by_cases hok : k = .ok
  · subst hok
    rw [State.complete_ok]
    exact ⟨hiff, fun hne => absurd rfl hne, hk, hfirst⟩
  · rw [State.complete_failed s hok]
    cases hf : s.statusFault with
    | true => exact ⟨by simpa [hf] using hiff, fun _ => rfl, hk, hfirst⟩
    | false => exact ⟨by simpa using hok, fun _ => rfl, hk, hk⟩

/-- A command writes the record by completing, and only so. -/
theorem State.RecordInv.exec {i : Instr} {s t : State} (h : s.RecordInv) (he : ExecEffect s i t) : t.RecordInv := by
  have hok {u : State} (hresult : u.result = s.result) (hfault : u.statusFault = s.statusFault)
      (hfirst : u.firstErr = s.firstErr) : (u.complete .ok).RecordInv :=
    (h.congr hresult hfault hfirst).complete (by decide)
  cases he with
  | failed hk => exact h.complete (ne_divisionByZero_of_mem_possibleCodes hk)
  | spiSend => exact h.congr rfl rfl rfl
  | _ => exact hok rfl rfl rfl

theorem State.RecordInv.move {s t : State} (h : s.RecordInv) (m : Move s t) : t.RecordInv := by
  cases m with
  | command he => exact h.exec he
  | illegalWord => exact h.complete (by decide)
  | sendDone => exact (h.congr (t := s.setSeq .idle) rfl rfl rfl).complete (by decide)
  | reset => exact (recordInv_atReset s.cfg (s.epoch + 1)).congr rfl rfl rfl
  | _ => exact h.congr rfl rfl rfl

/-- Settles O50: every move that writes the record completes a command, with a code that is not `DivisionByZero`, or
is a reset. -/
theorem stepKeepsRecordInv : Obligations.StepKeepsRecordInv := by
  unfold Obligations.StepKeepsRecordInv
  intro s t hs h
  obtain ⟨e, _, u, m, rfl⟩ := step_move h
  have hu : u.RecordInv := (hs.congr (t := s.within e) rfl rfl rfl).move m
  exact hu.congr rfl rfl rfl

/-! ### The buffers -/

theorem Buffer.Inv.put {w cap k : Nat} {b : Buffer w} (h : b.Inv cap) (v : BitVec w) (hk : k < cap) :
    (b.put k v).Inv cap := by
  refine ⟨Buffer.put_wf b k v h.1, fun e he => ?_⟩
  rcases Buffer.mem_put he with rfl | he
  · exact hk
  · exact h.2 e he

theorem Buffer.Inv.putAll {w cap k : Nat} {b : Buffer w} (h : b.Inv cap) {vs : List (BitVec w)}
    (hk : k + vs.length ≤ cap) : (b.putAll k vs).Inv cap := by
  refine ⟨Buffer.putAll_wf vs b k h.1, fun e he => ?_⟩
  rcases Buffer.mem_putAll he with he | ⟨-, hlt⟩
  · exact h.2 e he
  · omega

theorem Buffer.inv_nil {w : Nat} (cap : Nat) : Buffer.Inv (w := w) cap [] := ⟨rfl, nofun⟩

theorem State.BuffersInv.move {s t : State} (h : s.BuffersInv) (m : Move s t) : t.BuffersInv := by
  cases m with
  | storeCol k v hk => exact ⟨h.1.put v hk, h.2⟩
  | storeBuf j v hj => exact ⟨h.1, h.2.put v hj⟩
  | command he =>
    cases he with
    | ledEncode colours hcount hcap hread =>
      refine ⟨h.1, h.2.putAll ?_⟩
      rwa [length_encodeFrame, (Buffer.readRange_ok hread).1, Nat.zero_add]
    | _ => exact h
  | reset => exact ⟨Buffer.inv_nil _, Buffer.inv_nil _⟩
  | _ => exact h

/-- Settles O49: the bus writes entries the block has, and LED.ENCODE a frame that fits `BUF`. -/
theorem stepKeepsBuffersCanonical : Obligations.StepKeepsBuffersCanonical := by
  unfold Obligations.StepKeepsBuffersCanonical
  intro s t hs h
  obtain ⟨e, _, u, m, rfl⟩ := step_move h
  have hu : u.BuffersInv := State.BuffersInv.move (s := s.within e) hs m
  exact hu

/-! ### The result registers -/

/-- The bits of a concatenation, as a number. -/
theorem toNat_append_eq_add {m n : Nat} (x : BitVec m) (y : BitVec n) :
    (x ++ y).toNat = x.toNat * 2 ^ n + y.toNat := by
  rw [BitVec.toNat_append, ← Nat.shiftLeft_add_eq_or_of_lt y.isLt, Nat.shiftLeft_eq]

theorem toNat_packDivider {q d : Nat} (hq : q ≤ 255) (hd : d ≤ 255) : (packDivider q d).toNat = q * 256 + d := by
  unfold packDivider
  simp only [toNat_append_eq_add, BitVec.toNat_ofNat]
  omega

/-- R143: the first scan looks at the even values 2 to 254. -/
theorem solvePrescale_range {clk baud q : Nat} (h : solvePrescale clk baud = some q) : 2 ≤ q ∧ q ≤ 254 ∧ q % 2 = 0 := by
  obtain ⟨hmin, heven, hmax, -, -⟩ := scanPrescale_some h
  omega

theorem solvePostdiv_le (clk baud q : Nat) : solvePostdiv clk baud q ≤ 255 := (scanPostdiv_spec clk baud q 255).1

theorem State.ResultsInv.move {s t : State} (hc : s.cfg.Legal) (h : s.ResultsInv) (m : Move s t) : t.ResultsInv := by
  cases m with
  | command he =>
    cases he with
    | spiSolve q hq =>
      obtain ⟨hmin, hmax, heven⟩ := solvePrescale_range hq
      have hd := solvePostdiv_le s.arg0.toNat s.arg1.toNat q
      exact ⟨.inr ⟨q, _, hmin, hmax, heven, hd, toNat_packDivider (by omega) hd⟩, h.2⟩
    | ledEncode colours hcount hcap hread =>
      have hcol : s.cfg.colCap ≤ 1024 := hc.buffers.1
      refine ⟨h.1, .inr ⟨_, hcount, ?_⟩⟩
      exact Nat.mod_eq_of_lt (by unfold encodedLength; omega)
    | _ => exact h
  | reset => exact ⟨.inl rfl, .inl rfl⟩
  | _ => exact h

/-- Settles O51: `RET0` is written by SPI.SOLVE, from scans over its range, and `ENC_LEN` by LED.ENCODE, where R9
keeps the length below 2^16. -/
theorem stepKeepsResultsInv : Obligations.StepKeepsResultsInv := by
  unfold Obligations.StepKeepsResultsInv
  intro s t hc hs h
  obtain ⟨e, _, u, m, rfl⟩ := step_move h
  have hu : u.ResultsInv := State.ResultsInv.move (s := s.within e) hc hs m
  exact hu

/-! ### PWM channels -/

/-- The invariant of a channel is about its enable, its top and its counter. -/
theorem Channel.Inv.congr {top : Half} {ch ch' : Channel} (h : ch.Inv top) (hen : ch'.en = ch.en)
    (htop : ch'.top = ch.top) (hctr : ch'.ctr = ch.ctr) : ch'.Inv top := by
  obtain ⟨hrun, hoff⟩ := h
  constructor
  · rw [hen, htop, hctr]
    exact hrun
  · rw [hen, htop, hctr]
    exact hoff

theorem Channel.Inv.start {top : Half} {ch : Channel} (h : ch.Inv top) (x : Slice) (init : Half) :
    (ch.start x top init).Inv top := by
  have hctr : ch.ctr.toNat ≤ top.toNat := by
    cases hen : ch.en with
    | true => exact (h.running hen).2
    | false =>
      rw [(h.unconfigured hen).2]
      exact Nat.zero_le _
  exact ⟨fun _ => ⟨rfl, by simpa [Channel.start] using hctr⟩, nofun⟩

theorem Channel.tick_of_disabled {ch : Channel} (h : ch.en = false) : ch.tick = ch := by simp [Channel.tick, h]

/-- R129: a running counter goes back to 0 at its top and stays below it before. -/
theorem Channel.tick_ctr_le {ch : Channel} (hen : ch.en = true) : ch.tick.ctr.toNat ≤ ch.top.value.toNat := by
  unfold Channel.tick
  rw [if_pos hen]
  split
  · exact Nat.zero_le _
  · have := ch.top.value.isLt
    rw [BitVec.toNat_add]
    simp only [BitVec.toNat_ofNat]
    omega

theorem Channel.Inv.tick {top : Half} {ch : Channel} (h : ch.Inv top) : ch.tick.Inv top := by
  cases hen : ch.en with
  | true =>
    obtain ⟨htop, -⟩ := h.running hen
    have hle := Channel.tick_ctr_le hen
    rw [htop] at hle
    exact ⟨fun _ => ⟨by rw [Channel.tick_top, htop], hle⟩, fun hoff => by simp [hen] at hoff⟩
  | false =>
    rw [Channel.tick_of_disabled hen]
    exact h

theorem State.PwmInv.setChan {s : State} (h : s.PwmInv) {c : Chan} {ch : Channel} (hinv : ch.Inv s.cfg.pwmTop)
    (habsent : s.cfg.nChannels ≤ c.val → ch = s.chan c) : (s.setChan c ch).PwmInv := by
  obtain ⟨hchans, hreset⟩ := h
  refine ⟨fun d => ?_, fun d (hd : s.cfg.nChannels ≤ d.val) => ?_⟩
  · by_cases hdc : d = c
    · subst hdc
      rwa [State.chan_setChan_same]
    · rw [State.chan_setChan_ne _ _ hdc]
      exact hchans d
  · by_cases hdc : d = c
    · subst hdc
      rw [State.chan_setChan_same, habsent hd]
      exact hreset d hd
    · rw [State.chan_setChan_ne _ _ hdc]
      exact hreset d hd

/-- A pin is bound to a channel the block has (R120). -/
theorem State.chanOf_present {s : State} (hc : s.cfg.Legal) {p : Pin} (hp : p.val < s.cfg.nPins) :
    ¬ s.cfg.nChannels ≤ (s.chanOf p).val := Nat.not_le_of_lt (hc.bind_channel p hp)

theorem State.PwmInv.setCmpreg {s : State} (hc : s.cfg.Legal) (h : s.PwmInv) {p : Pin} (hp : p.val < s.cfg.nPins)
    (v : Half) : (s.setCmpreg p v).PwmInv :=
  h.setChan ((h.1 _).congr (Channel.setCmp_en _ _ _) (Channel.setCmp_top _ _ _) (Channel.setCmp_ctr _ _ _))
    fun habsent => absurd habsent (chanOf_present hc hp)

theorem State.pwmInv_atReset (c : Config) (e : Nat) : (State.atReset c e).PwmInv := by
  refine ⟨fun x => ?_, fun x _ => State.chan_atReset c e x⟩
  rw [State.chan_atReset]
  exact ⟨nofun, fun _ => ⟨rfl, rfl⟩⟩

theorem State.PwmInv.move {s t : State} (hc : s.cfg.Legal) (h : s.PwmInv) (m : Move s t) : t.PwmInv := by
  cases m with
  | command he =>
    cases he with
    | pwmStart p hpin hp => exact h.setChan ((h.1 _).start _ _) fun habsent => absurd habsent (chanOf_present hc hp)
    | pwmSet p hpin hp => exact h.setCmpreg hc hp _
    | pwmSetp p hpin hp raw => exact h.setCmpreg hc hp raw
    | pwmSetpDrawn p hpin hp => exact State.PwmInv.setCmpreg (s := s.takeDraw) hc h hp _
    | _ => exact h
  | tick c =>
    refine h.setChan (h.1 c).tick fun habsent => Channel.tick_of_disabled ?_
    rw [h.2 c habsent]
    rfl
  | reset => exact pwmInv_atReset s.cfg (s.epoch + 1)
  | _ => exact h

/-- Settles O29: PWM.START gives a channel the one top there is and leaves its counter, a tick keeps the counter at
most the top, and the other commands write compare registers only. -/
theorem stepKeepsPwmInv : Obligations.StepKeepsPwmInv := by
  unfold Obligations.StepKeepsPwmInv
  intro s t hc hs h
  obtain ⟨e, _, u, m, rfl⟩ := step_move h
  have hu : u.PwmInv := State.PwmInv.move (s := s.within e) hc hs m
  exact hu

end Sys2Proof.Machine
end

/-! # The bus, the send loop and the values of the registers -/

section
namespace Sys2Proof.Machine

/-! ### A step whose turn is known -/

theorem step_give (trn : Turn) (s : State) : step (give trn s) = turnOf trn s := rfl

/-- An idle block's host issues the access it is offered. -/
theorem step_offer {s : State} (hi : s.seq = .idle) (a : Access) : step (offer a s) = (issue a s).outcome :=
  hostTurn_cons (s := { s with host := a :: s.host }) hi rfl

theorem Reg.offset_aligned (r : Reg) : r.offset % 4 = 0 := by
  cases r <;> simp only [Reg.offset] <;> omega

/-- An aligned 32-bit access at the offset of a row names that row's register. -/
theorem MapRow.decodeAddress_eq {c : Config} {off : Nat} {r : Reg} (h : MapRow c off r) :
    decodeAddress c off 4 = .ok r := by
  have haligned : off % 4 = 0 := (mapRow_iff.1 h).2 ▸ r.offset_aligned
  simp [decodeAddress, haligned, h.regAt_eq]

/-- Every register but `CMD` can be read. -/
theorem readReg_isSome {r : Reg} (h : r ≠ .cmd) (s : State) : ∃ v, readReg s r = some v := by
  cases r with
  | cmd => exact absurd rfl h
  | _ => exact ⟨_, rfl⟩

theorem issue_read {s : State} {off : Nat} {r : Reg} {v : Word} (hrow : MapRow s.cfg off r) (hv : readReg s r = some v) :
    issue (.read off 4) s = .done (s.setReply (.data v)) := by
  simp only [issue, hrow.decodeAddress_eq, hv]

theorem issue_command {s : State} {w : Word} {i : Instr} (hw : decode w = .command i) :
    issue (.write 0x0000 4 w) s = .run i (s.setReply .pending) := by
  simp only [issue, (MapRow.cmd (c := s.cfg)).decodeAddress_eq, issueCommand, hw]

/-- Settles O11: the bus decodes the offset of a row to its register, and only `CMD` has no value to read. -/
theorem readReturnsTheRegister : Obligations.ReadReturnsTheRegister := by
  unfold Obligations.ReadReturnsTheRegister
  intro s off r hi hrow hr
  obtain ⟨v, hv⟩ := readReg_isSome hr s
  refine ⟨v, hv, ?_⟩
  rw [step_offer hi, issue_read hrow hv]
  rfl

/-- Settles O6: offset 0 is `CMD`, and a word that decodes is handed on to `exec`. -/
theorem stepRunsTheDecodedCommand : Obligations.StepRunsTheDecodedCommand := by
  unfold Obligations.StepRunsTheDecodedCommand
  intro s w i hi hw
  rw [step_offer hi, issue_command hw]
  rfl

/-! ### The send loop -/

theorem sequencerTurn_push {s : State} {i : SpiIx} {n idx : Nat} (h : s.seq = .sending i n idx .push) :
    sequencerTurn s = sendPush i n idx s := by
  simp only [sequencerTurn, h]

theorem sequencerTurn_wait {s : State} {i : SpiIx} {n idx : Nat} (h : s.seq = .sending i n idx .wait) :
    sequencerTurn s = sendWait i n idx s := by
  simp only [sequencerTurn, h]

theorem sendPush_written {s : State} {i : SpiIx} {n idx : Nat} {w : Half} (hidx : idx < n)
    (hw : s.buf.get idx = some w) (hroom : (s.port i).fifo.length < s.cfg.fifoDepth) :
    sendPush i n idx s =
      .next ((s.setPort i { s.port i with fifo := (s.port i).fifo ++ [w] }).setSeq (.sending i n (idx + 1) .wait)) := by
  have hpush := (SpiPort.fifoPush_eq_some (p := s.port i) (w := w)).2 ⟨hroom, rfl⟩
  simp only [sendPush, hidx, hw, hpush, if_true]

theorem sendPush_unwritten {s : State} (i : SpiIx) {n idx : Nat} (hidx : idx < n) (hw : s.buf.get idx = none) :
    sendPush i n idx s = .fault (.unwrittenWord idx) := by
  simp only [sendPush, hidx, hw, if_true]

theorem sendWait_full {s : State} {i : SpiIx} (n idx : Nat) (h : s.cfg.fifoDepth ≤ (s.port i).fifo.length) :
    sendWait i n idx s = .next s := by
  have hfull : ¬ (s.port i).tnf s.cfg.fifoDepth = true := fun ht => absurd (SpiPort.tnf_iff.1 ht) (Nat.not_lt_of_le h)
  rw [sendWait, if_neg hfull]

theorem sendWait_more {s : State} {i : SpiIx} {n idx : Nat} (hroom : (s.port i).fifo.length < s.cfg.fifoDepth)
    (hidx : idx < n) : sendWait i n idx s = .next (s.setSeq (.sending i n idx .push)) := by
  rw [sendWait, if_pos (SpiPort.tnf_iff.2 hroom), if_pos hidx]

theorem sendWait_last {s : State} {i : SpiIx} {n idx : Nat} (hroom : (s.port i).fifo.length < s.cfg.fifoDepth)
    (hidx : n ≤ idx) : sendWait i n idx s = .next ((s.setSeq .idle).complete .ok) := by
  rw [sendWait, if_pos (SpiPort.tnf_iff.2 hroom), if_neg (Nat.not_lt_of_le hidx)]

/-- Settles O33, one equation of the loop for each of its steps. -/
theorem sequencerPushesThenWaits : Obligations.SequencerPushesThenWaits := by
  unfold Obligations.SequencerPushesThenWaits
  intro s i n idx
  rw [step_give]
  refine ⟨fun hseq hidx hroom => ⟨fun w hw => ?_, fun hw => ?_⟩, fun hseq => ⟨?_, ?_, ?_⟩⟩
  · refine ⟨_, (sequencerTurn_push hseq).trans (sendPush_written hidx hw hroom), rfl, ?_, fun j hj => ?_⟩
    · exact State.port_setPort_same s i _
    · exact State.port_setPort_ne s _ hj
  · exact (sequencerTurn_push hseq).trans (sendPush_unwritten i hidx hw)
  · exact fun hfull => (sequencerTurn_wait hseq).trans (sendWait_full n idx hfull)
  · exact fun hroom hidx => (sequencerTurn_wait hseq).trans (sendWait_more hroom hidx)
  · intro hroom hidx
    exact ((sequencerTurn_wait hseq).trans (sendWait_last hroom hidx)).trans
      (congrArg Host.Outcome.next (State.complete_ok _))

/-! ### Register words as numbers (R21) -/

theorem toNat_halfWord (v : Half) : (halfWord v).toNat = v.toNat := BitVec.toNat_setWidth_of_le (by decide)

theorem State.toNat_statusWord (s : State) :
    s.statusWord.toNat = s.statusFault.toNat + 256 * s.firstErr.code.toNat := by
  unfold State.statusWord
  simp only [toNat_append_eq_add, BitVec.toNat_ofNat, BitVec.toNat_ofBool]
  omega

theorem PinCtrl.toNat_word (v : PinCtrl) :
    v.word.toNat = v.funcsel.code.toNat + 16 * v.oeover.code.toNat + 256 * v.outover.code.toNat := by
  unfold PinCtrl.word
  simp only [toNat_append_eq_add, BitVec.toNat_ofNat]
  omega

theorem SpiPort.toNat_crWord (p : SpiPort) :
    p.crWord.toNat = p.dss.toNat + 256 * p.scr.toNat + 65536 * p.mstr.toNat + 131072 * p.sse.toNat := by
  unfold SpiPort.crWord
  simp only [toNat_append_eq_add, BitVec.toNat_ofNat, BitVec.toNat_ofBool]
  omega

/-- R94: the bytes of a word that holds `q * 256 + d`. -/
theorem bytes_of_toNat_eq {v : Word} {q d : Nat} (hq : q ≤ 255) (hd : d ≤ 255) (h : v.toNat = q * 256 + d) :
    (v.extractLsb' 8 8).toNat = q ∧ (v.extractLsb' 0 8).toNat = d ∧ (v.extractLsb' 16 16).toNat = 0 := by
  simp only [BitVec.extractLsb'_toNat, Nat.shiftRight_eq_div_pow, h]
  omega

theorem readReg_col {s : State} {k : Fin Config.maxCol} {x : Colour} (h : s.col.get k.val = some x) :
    readReg s (.col k) = some (x.setWidth 32) := by
  simp only [readReg, h, Option.getD_some]

theorem readReg_buf {s : State} {j : Fin Config.maxBuf} {x : Half} (h : s.buf.get j.val = some x) :
    readReg s (.buf j) = some (halfWord x) := by
  simp only [readReg, h, Option.getD_some]

/-- Settles O20: a register's word is a concatenation of its fields and zeros, or a field widened to 32 bits. -/
theorem registerWordsHoldTheirFieldsInPlace : Obligations.RegisterWordsHoldTheirFieldsInPlace := by
  unfold Obligations.RegisterWordsHoldTheirFieldsInPlace
  refine ⟨by decide, fun s => ?_⟩
  have widened {w : Nat} (hw : w ≤ 32) (x : BitVec w) : (x.setWidth 32).toNat = x.toNat := BitVec.toNat_setWidth_of_le hw
  refine ⟨rfl, rfl, ?ret0, ?result, ?status, ?encLen, ?pwm, ?pins, ?spiCr, ?spiCpsr, ?col, ?buf⟩
  case ret0 => exact ⟨_, rfl, rfl, fun q d hq hd h => bytes_of_toNat_eq hq hd h⟩
  case result => exact ⟨_, rfl, widened (by decide) _⟩
  case status => exact ⟨_, rfl, s.toNat_statusWord⟩
  case encLen => exact ⟨_, rfl, toNat_halfWord _⟩
  case pwm =>
    refine fun c => ⟨_, _, _, _, rfl, ?_, rfl, toNat_halfWord _, rfl, toNat_halfWord _, rfl, toNat_halfWord _⟩
    rw [widened (by decide), BitVec.toNat_ofBool]
  case pins => exact fun p => ⟨_, rfl, PinCtrl.toNat_word _⟩
  case spiCr => exact fun i => ⟨_, rfl, SpiPort.toNat_crWord _⟩
  case spiCpsr => exact fun i => ⟨_, rfl, widened (by decide) _⟩
  case col => exact fun k x hx => ⟨_, readReg_col hx, widened (by decide) x⟩
  case buf => exact fun j x hx => ⟨_, readReg_buf hx, toNat_halfWord x⟩

theorem SpiPort.bsy_iff {p : SpiPort} : p.bsy = true ↔ 0 < p.fifo.length ∨ p.sh ≠ .empty := by
  unfold SpiPort.bsy SpiPort.fifoCount
  rw [Bool.or_eq_true, decide_eq_true_iff, decide_eq_true_iff]

theorem SpiPort.getLsbD_srWord (depth : Nat) (p : SpiPort) : (p.srWord depth).getLsbD 0 = p.tnf depth ∧
    (p.srWord depth).getLsbD 1 = p.bsy ∧ ∀ b, 2 ≤ b → (p.srWord depth).getLsbD b = false := by
  unfold SpiPort.srWord
  refine ⟨?_, ?_, fun b hb => ?_⟩
  · rw [BitVec.getLsbD_append, if_pos (by decide), BitVec.getLsbD_ofBool]
    simp
  · rw [BitVec.getLsbD_append, if_neg (by decide), BitVec.getLsbD_append, if_pos (by decide), BitVec.getLsbD_ofBool]
    simp
  · rw [BitVec.getLsbD_append, if_neg (by omega), BitVec.getLsbD_append, if_neg (by omega)]
    exact BitVec.getLsbD_zero

/-- Settles O35: bit 0 of `SPI_SR` is `TNF`, bit 1 is `BSY`, and both follow FIFO and shifter. -/
theorem statusBitsFollowFifoAndShifter : Obligations.StatusBitsFollowFifoAndShifter := by
  unfold Obligations.StatusBitsFollowFifoAndShifter
  intro s i
  obtain ⟨htnf, hbsy, hzero⟩ := (s.port i).getLsbD_srWord s.cfg.fifoDepth
  refine ⟨_, rfl, ?_, ?_, hzero⟩
  · rw [htnf, SpiPort.tnf_iff]
  · rw [hbsy, SpiPort.bsy_iff]

/-! ### Which commands write a register (R21, R22) -/

section
variable {i : Instr} {s t : State}

theorem ExecEffect.writes_ret0 (he : ExecEffect s i t) (h : t.ret0 ≠ s.ret0) : i = .spiSolve := by
  cases he with
  | spiSolve => rfl
  | _ => exact absurd rfl h

theorem ExecEffect.writes_encLen (he : ExecEffect s i t) (h : t.encLen ≠ s.encLen) : ∃ c, i = .ledEncode c := by
  cases he with
  | ledEncode => exact ⟨_, rfl⟩
  | _ => exact absurd rfl h

theorem ExecEffect.writes_buf (he : ExecEffect s i t) (h : t.buf ≠ s.buf) : ∃ c, i = .ledEncode c := by
  cases he with
  | ledEncode => exact ⟨_, rfl⟩
  | _ => exact absurd rfl h

theorem ExecEffect.writes_pins (he : ExecEffect s i t) (h : t.pins ≠ s.pins) : ∃ p m, i = .gpioSet p m := by
  cases he with
  | gpioSet => exact ⟨_, _, rfl⟩
  | _ => exact absurd rfl h

theorem ExecEffect.writes_pwm (he : ExecEffect s i t) (h : t.pwm ≠ s.pwm) :
    (∃ p v, i = .pwmStart p v) ∨ (∃ p v, i = .pwmSet p v) ∨ ∃ p, i = .pwmSetp p := by
  cases he with
  | pwmStart => exact .inl ⟨_, _, rfl⟩
  | pwmSet => exact .inr (.inl ⟨_, _, rfl⟩)
  | pwmSetp => exact .inr (.inr ⟨_, rfl⟩)
  | pwmSetpDrawn => exact .inr (.inr ⟨_, rfl⟩)
  | _ => exact absurd rfl h

/-- Writing a compare register leaves every enable and top. -/
theorem setCmpreg_sameEnableAndTop (s : State) (p : Pin) (v : Half) : SameEnableAndTop s (s.setCmpreg p v) := by
  intro c
  unfold State.setCmpreg
  by_cases hc : c = s.chanOf p
  · subst hc
    rw [State.chan_setChan_same, Channel.setCmp_en, Channel.setCmp_top]
    exact ⟨rfl, rfl⟩
  · rw [State.chan_setChan_ne _ _ hc]
    exact ⟨rfl, rfl⟩

theorem ExecEffect.sameEnableAndTop (he : ExecEffect s i t) : (∃ p v, i = .pwmStart p v) ∨ SameEnableAndTop s t := by
  cases he with
  | pwmStart => exact .inl ⟨_, _, rfl⟩
  | pwmSet p => exact .inr (setCmpreg_sameEnableAndTop s p _)
  | pwmSetp p _ _ raw => exact .inr (setCmpreg_sameEnableAndTop s p raw)
  | pwmSetpDrawn p => exact .inr (setCmpreg_sameEnableAndTop s.takeDraw p _)
  | _ => exact .inr fun _ => ⟨rfl, rfl⟩

/-- What a command can write of a port: the divider, or the control fields, and nothing else. -/
inductive PortEffect (p : SpiPort) : Instr → SpiPort → Prop where
  | same {i : Instr} : PortEffect p i p
  | divider {sel : BitVec 4} {prescale postdiv : Byte} :
      PortEffect p (.spiApply sel prescale postdiv) { p with cpsdvsr := prescale, scr := postdiv }
  | control {dss sel : BitVec 4} {count : Half} : PortEffect p (.spiSend dss sel count) (p.configure dss)

/-- A write of one port, seen from any port. -/
theorem PortEffect.setPort {k : SpiIx} {p : SpiPort} (h : PortEffect (s.port k) i p) (j : SpiIx) :
    PortEffect (s.port j) i ((s.setPort k p).port j) := by
  by_cases hj : j = k
  · subst hj
    rwa [State.port_setPort_same]
  · rw [State.port_setPort_ne _ _ hj]
    exact .same

theorem ExecEffect.port (he : ExecEffect s i t) (j : SpiIx) : PortEffect (s.port j) i (t.port j) := by
  cases he with
  | spiApply => exact PortEffect.divider.setPort j
  | spiSendNothing => exact PortEffect.control.setPort j
  | spiSend => exact PortEffect.control.setPort j
  | _ => exact .same

variable {p q : SpiPort}

theorem PortEffect.writes_divider (h : PortEffect p i q) (hne : q.cpsdvsr ≠ p.cpsdvsr ∨ q.scr ≠ p.scr) :
    ∃ x y z, i = .spiApply x y z := by
  cases h with
  | divider => exact ⟨_, _, _, rfl⟩
  | _ => exact hne.elim (absurd rfl) (absurd rfl)

theorem PortEffect.writes_control (h : PortEffect p i q)
    (hne : q.dss ≠ p.dss ∨ q.mstr ≠ p.mstr ∨ q.sse ≠ p.sse) : ∃ x y z, i = .spiSend x y z := by
  cases h with
  | control => exact ⟨_, _, _, rfl⟩
  | _ => exact hne.elim (absurd rfl) fun hne => hne.elim (absurd rfl) (absurd rfl)

theorem PortEffect.keeps_line (h : PortEffect p i q) :
    q.fifo = p.fifo ∧ q.sh = p.sh ∧ q.sdo = p.sdo ∧ q.txlog = p.txlog := by
  cases h <;> exact ⟨rfl, rfl, rfl, rfl⟩

end

/-- Settles O19, from the effects of the commands register by register; the parameters no move changes. -/
theorem registerIsWrittenOnlyByItsCommands : Obligations.RegisterIsWrittenOnlyByItsCommands := by
  unfold Obligations.RegisterIsWrittenOnlyByItsCommands
  refine ⟨fun i s t h => ?_, fun s t h => step_cfg h⟩
  obtain ⟨harg0, harg1, hcol, hhost, hturns, hepoch, hcfg⟩ := exec_keeps_environment h
  have he := exec_effect h
  refine ⟨harg0, harg1, hcol, he.writes_ret0, he.writes_encLen, he.writes_buf, he.writes_pins, ?enable, he.writes_pwm,
    ?divider, ?control, fun j => (he.port j).keeps_line, hhost, hturns, hepoch, hcfg⟩
  case enable =>
    rintro ⟨c, hne⟩
    refine he.sameEnableAndTop.resolve_right fun hsame => ?_
    exact hne.elim (absurd (hsame c).1) (absurd (hsame c).2)
  case divider => exact fun ⟨j, hne⟩ => (he.port j).writes_divider hne
  case control => exact fun ⟨j, hne⟩ => (he.port j).writes_control hne

end Sys2Proof.Machine
end

/-! # What the host's accesses do (20_memory.md) -/

section
namespace Sys2Proof.Machine

/-- An access that comes to no command is a step by itself. -/
theorem step_offer_done {s t : State} {a : Access} (hi : s.seq = .idle) (h : issue a s = .done t) :
    step (offer a s) = .next t := by
  rw [step_offer hi, h]
  rfl

/-! ### Refused accesses (R61 to R63) -/

theorem issue_read_error {s : State} {off size : Nat} {e : BusError} (h : decodeAddress s.cfg off size = .error e) :
    issue (.read off size) s = .done (s.setReply (.error e)) := by
  simp only [issue, h]

theorem issue_write_error {s : State} {off size : Nat} {e : BusError} (v : Word)
    (h : decodeAddress s.cfg off size = .error e) : issue (.write off size v) s = .done (s.setReply (.error e)) := by
  simp only [issue, h]

/-- R62. -/
theorem decodeAddress_narrow_or_misaligned (c : Config) {off size : Nat} (h : size ≠ 4 ∨ off % 4 ≠ 0) :
    ∃ e, decodeAddress c off size = .error e := by
  cases hd : decodeAddress c off size with
  | error e => exact ⟨e, rfl⟩
  | ok r =>
    obtain ⟨hsize, haligned, -, -⟩ := decodeAddress_ok hd
    exact (h.elim (· hsize) (· haligned)).elim

/-- R63 (a). -/
theorem decodeAddress_unmapped {c : Config} {off : Nat} (haligned : off % 4 = 0) (h : ∀ r, ¬ MapRow c off r) :
    decodeAddress c off 4 = .error .unmapped := by
  simp [decodeAddress, haligned, regAt_eq_none haligned h]

theorem unmapped_of_no_row {s : State} {off : Nat} (v : Word) (hi : s.seq = .idle) (haligned : off % 4 = 0)
    (h : ∀ r, ¬ MapRow s.cfg off r) : Unmapped s off v := by
  have hd := decodeAddress_unmapped haligned h
  exact ⟨step_offer_done hi (issue_read_error hd), step_offer_done hi (issue_write_error v hd)⟩

/-- R63 (c). -/
theorem issue_read_cmd (s : State) : issue (.read 0x0000 4) s = .done (s.setReply (.error .writeOnly)) := by
  simp only [issue, (MapRow.cmd (c := s.cfg)).decodeAddress_eq, readReg]

/-- R21, R69: in each window the index of a row is in the range the parameters give it. The bounds of R9 keep the rows
of one window out of the next. -/
theorem MapRow.index_lt {c : Config} {off : Nat} {r : Reg} (h : MapRow c off r) :
    (0x100 ≤ off → off < 0x200 → (off - 0x100) / 0x10 < c.nChannels) ∧
    (0x200 ≤ off → off < 0x300 → (off - 0x200) / 4 < c.nPins) ∧
    (0x300 ≤ off → off < 0x400 → (off - 0x300) / 0x10 < c.nSpi) ∧
    (0x1000 ≤ off → off < 0x10000 → (off - 0x1000) / 4 < c.colCap) ∧
    (0x10000 ≤ off → (off - 0x10000) / 4 < c.bufCap) := by
  have widest : Config.maxChannels = 16 ∧ Config.maxPins = 31 ∧ Config.maxSpi = 16 ∧ Config.maxCol = 1024 :=
    ⟨rfl, rfl, rfl, rfl⟩
  cases h <;> omega

/-! ### Writes (R65) -/

theorem issue_write_stored {s s' : State} {off : Nat} {r : Reg} {v : Word} (hrow : MapRow s.cfg off r)
    (hw : writeReg s v r = some s') : issue (.write off 4 v) s = .done (s'.setReply .done) := by
  cases r with
  | cmd => cases hw
  | _ => simp only [issue, hrow.decodeAddress_eq, hw]

/-- R63 (b). -/
theorem issue_write_readOnly {s : State} {off : Nat} {r : Reg} {v : Word} (hrow : MapRow s.cfg off r) (hr : r ≠ .cmd)
    (hw : writeReg s v r = none) : issue (.write off 4 v) s = .done (s.setReply (.error .readOnly)) := by
  cases r with
  | cmd => exact absurd rfl hr
  | _ => simp only [issue, hrow.decodeAddress_eq, hw]

/-- The host's storage registers are the operands and the buffers (R21). -/
theorem writeReg_eq_none (s : State) (v : Word) {r : Reg} (harg0 : r ≠ .arg0) (harg1 : r ≠ .arg1)
    (hcol : ∀ k, r ≠ .col k) (hbuf : ∀ j, r ≠ .buf j) : writeReg s v r = none := by
  cases r with
  | arg0 => exact absurd rfl harg0
  | arg1 => exact absurd rfl harg1
  | col k => exact absurd rfl (hcol k)
  | buf j => exact absurd rfl (hbuf j)
  | _ => rfl

theorem step_offer_stored {s s' : State} {off : Nat} {r : Reg} {v : Word} (hi : s.seq = .idle)
    (hrow : MapRow s.cfg off r) (hw : writeReg s v r = some s') :
    step (offer (.write off 4 v) s) = .next (s'.setReply .done) :=
  step_offer_done hi (issue_write_stored hrow hw)

/-- What a buffer reads after an entry was given the low bits of a bus word (R65). -/
theorem Buffer.get_put_truncated {w : Nat} (hw : w ≤ 32) (b : Buffer w) (k : Nat) (v : Word) :
    (b.put k (v.setWidth w)).get k = some (v.extractLsb' 0 w) ∧
      ∀ k', k' ≠ k → (b.put k (v.setWidth w)).get k' = b.get k' :=
  ⟨by rw [Buffer.get_put_same, BitVec.setWidth_eq_extractLsb' hw], fun _ hne => Buffer.get_put_other b _ hne⟩

/-- Settles O12: the bus decodes each offset to its register, and the write puts one value and no other. -/
theorem writeStoresAndDoesNothingElse : Obligations.WriteStoresAndDoesNothingElse := by
  unfold Obligations.WriteStoresAndDoesNothingElse
  intro s v hi hlegal
  obtain ⟨hcol, hbuf⟩ := hlegal.buffers
  refine ⟨step_offer_stored hi .arg0 rfl, step_offer_stored hi .arg1 rfl, fun k hk => ?_, fun j hj => ?_⟩
  · refine ⟨s.col.put k (v.setWidth 24), ?_, Buffer.get_put_truncated (by decide) s.col k v⟩
    exact step_offer_stored hi (.col ⟨k, hk.trans_le hcol⟩ hk) rfl
  · refine ⟨s.buf.put j (v.setWidth 16), ?_, Buffer.get_put_truncated (by decide) s.buf j v⟩
    exact step_offer_stored hi (.buf ⟨j, hj.trans_le hbuf⟩ hj) rfl

/-- Settles O13: no row of R21 has an index from the parameter of its window on, and the bus answers alike for every
offset without a row; of the registers with a row only the storage registers are stored to, and only `CMD` has
nothing to read. -/
theorem refusedAccessChangesNothing : Obligations.RefusedAccessChangesNothing := by
  unfold Obligations.RefusedAccessChangesNothing
  intro s v hi
  have unmapped {off : Nat} := unmapped_of_no_row (s := s) (off := off) v hi
  refine ⟨fun off => unmapped, ?pwm, ?pins, ?spi, ?col, ?buf, ?readOnly, ?writeOnly⟩
  case pwm =>
    intro c hc hmax o ho
    simp only [List.mem_cons, List.not_mem_nil, or_false] at ho
    refine unmapped (by omega) fun r hrow => ?_
    obtain ⟨hpwm, -⟩ := hrow.index_lt
    omega
  case pins =>
    intro p hp hmax
    refine unmapped (by omega) fun r hrow => ?_
    obtain ⟨-, hpin, -⟩ := hrow.index_lt
    omega
  case spi =>
    intro i hn hmax o ho
    simp only [List.mem_cons, List.not_mem_nil, or_false] at ho
    refine unmapped (by omega) fun r hrow => ?_
    obtain ⟨-, -, hspi, -⟩ := hrow.index_lt
    omega
  case col =>
    intro k hk hmax
    refine unmapped (by omega) fun r hrow => ?_
    obtain ⟨-, -, -, hcol, -⟩ := hrow.index_lt
    omega
  case buf =>
    intro j hj
    refine unmapped (by omega) fun r hrow => ?_
    obtain ⟨-, -, -, -, hbuf⟩ := hrow.index_lt
    omega
  case readOnly =>
    intro off r hrow hcmd harg0 harg1 hcol hbuf
    exact step_offer_done hi (issue_write_readOnly hrow hcmd (writeReg_eq_none s v harg0 harg1 hcol hbuf))
  case writeOnly => exact step_offer_done hi (issue_read_cmd s)

/-! ### Accesses that change nothing -/

/-- Settles O9: the host's turn is held in a send. -/
theorem hostIsHeldWhileACommandRuns : Obligations.HostIsHeldWhileACommandRuns := by
  unfold Obligations.HostIsHeldWhileACommandRuns
  intro s hbusy
  exact (step_give .host s).trans (hostTurn_held hbusy)

/-- A read comes to an answer on the bus, and to nothing else (R62 to R64). -/
theorem issue_read_reply (off size : Nat) (s : State) : ∃ r, issue (.read off size) s = .done (s.setReply r) := by
  rcases issue_cases (.read off size) s with ⟨e, h⟩ | ⟨_, _, _, v, -, -, h⟩ | ⟨_, _, _, _, _, ha, -⟩ |
    ⟨_, _, _, _, ha, -⟩ | ⟨_, _, _, _, ha, -⟩
  · exact ⟨_, h⟩
  · exact ⟨_, h⟩
  · cases ha
  · cases ha
  · cases ha

/-- Settles O10: whatever the bus makes of a read, it is an answer and nothing else. -/
theorem readHasNoSideEffect : Obligations.ReadHasNoSideEffect := by
  unfold Obligations.ReadHasNoSideEffect
  intro s off size hi
  obtain ⟨r, hr⟩ := issue_read_reply off size s
  exact ⟨r, step_offer_done hi hr⟩

/-- Settles O14: the bus decodes no such access, and answers a read and a write with the same reason. -/
theorem narrowOrMisalignedAccessChangesNothing : Obligations.NarrowOrMisalignedAccessChangesNothing := by
  unfold Obligations.NarrowOrMisalignedAccessChangesNothing
  intro s v off size hi hbad
  obtain ⟨e, he⟩ := decodeAddress_narrow_or_misaligned s.cfg hbad
  exact ⟨e, step_offer_done hi (issue_read_error he), step_offer_done hi (issue_write_error v he)⟩

end Sys2Proof.Machine
end

/-! # Command words and commands (30_encoding.md)

A row of the opcode map fixes bits of the word it selects (`Row.field_eq_of_selects`), the opcode among them, so a word
has at most one row. Decoding is then said per row (`decode_of_selects`, `selects_of_decode`), and with it encoding and
decoding meet in `Instr.readFields`: the fields a command's format has in a word. -/

section
namespace Sys2Proof

open Machine Laws

/-! ### The rows of the opcode map (R83) -/

theorem Row.selects_iff {r : Row} {w : Word} : r.selects w = true ↔ w &&& r.mask = r.pattern := beq_iff_eq

/-- Where the mask of a row is all ones, a word the row selects has the bits of the row's pattern. -/
theorem Row.field_eq_of_selects (r : Row) {w : Word} {lo n : Nat} {x : BitVec n} (h : r.selects w = true)
    (hmask : r.mask.extractLsb' lo n = BitVec.allOnes n) (hpattern : r.pattern.extractLsb' lo n = x) :
    w.extractLsb' lo n = x := by
  rw [← hpattern, ← Row.selects_iff.1 h, BitVec.extractLsb'_and, hmask, BitVec.and_allOnes]

/-- Every row fixes the whole opcode. -/
theorem opcodeOf_of_selects {r : Row} {w : Word} (hr : r ∈ opcodeMap) (h : r.selects w = true) :
    opcodeOf w = opcodeOf r.pattern := by
  have hmask : ∀ r ∈ opcodeMap, r.mask.extractLsb' 24 8 = BitVec.allOnes 8 := by decide
  exact r.field_eq_of_selects h (hmask r hr) rfl

/-- The opcodes of the map. -/
theorem opcodes_of_opcodeMap : (opcodeMap.map fun r => opcodeOf r.pattern) =
    [0x21#8, 0x22#8, 0x23#8, 0x31#8, 0x32#8, 0x33#8, 0x41#8, 0x51#8] := by decide

theorem opcodes_nodup : (opcodeMap.map fun r => opcodeOf r.pattern).Nodup := by
  rw [opcodes_of_opcodeMap]
  decide

theorem row_eq_of_opcode_eq {r r' : Row} (hr : r ∈ opcodeMap) (hr' : r' ∈ opcodeMap)
    (h : opcodeOf r.pattern = opcodeOf r'.pattern) : r = r' :=
  List.inj_on_of_nodup_map opcodes_nodup hr hr' h

theorem rowOf_mem (i : Instr) : rowOf i ∈ opcodeMap := by
  cases i <;> simp [rowOf, opcodeMap]

theorem exists_rowOf_eq {r : Row} (hr : r ∈ opcodeMap) : ∃ i, rowOf i = r := by
  simp only [opcodeMap, List.mem_cons, List.not_mem_nil, or_false] at hr
  rcases hr with rfl | rfl | rfl | rfl | rfl | rfl | rfl | rfl
  · exact ⟨.pwmStart 0#5 0#16, rfl⟩
  · exact ⟨.pwmSet 0#5 0#16, rfl⟩
  · exact ⟨.pwmSetp 0#5, rfl⟩
  · exact ⟨.spiSolve, rfl⟩
  · exact ⟨.spiApply 0#4 0#8 0#8, rfl⟩
  · exact ⟨.spiSend 0#4 0#4 0#16, rfl⟩
  · exact ⟨.gpioSet 0#5 0#2, rfl⟩
  · exact ⟨.ledEncode 0#16, rfl⟩

theorem encode_selected (i : Instr) : (rowOf i).selects (encode i) = true := by
  cases i with
  | pwmStart pin init => exact EncodeSelectsRow.pwmStart pin init
  | pwmSet pin raw => exact EncodeSelectsRow.pwmSet pin raw
  | pwmSetp pin => exact EncodeSelectsRow.pwmSetp pin
  | spiSolve => exact EncodeSelectsRow.spiSolve
  | spiApply sel prescale postdiv => exact EncodeSelectsRow.spiApply sel prescale postdiv
  | spiSend dss sel count => exact EncodeSelectsRow.spiSend dss sel count
  | gpioSet pin mode => exact EncodeSelectsRow.gpioSet pin mode
  | ledEncode count => exact EncodeSelectsRow.ledEncode count

/-- Once one row is known to select a word, the opcode alone tells whether a row does. -/
theorem selects_eq_of_selects {i : Instr} {r : Row} {w : Word} (hi : (rowOf i).selects w = true) (hr : r ∈ opcodeMap) :
    r.selects w = decide (opcodeOf r.pattern = opcodeOf (rowOf i).pattern) := by
  rw [Bool.eq_iff_iff, decide_eq_true_iff]
  constructor
  · intro h
    rw [← opcodeOf_of_selects hr h, opcodeOf_of_selects (rowOf_mem i) hi]
  · intro h
    rwa [row_eq_of_opcode_eq hr (rowOf_mem i) h]

/-! ### Decoding (R92) -/

/-- The command of the same row whose fields are those of the word `w` (R82). -/
def Instr.readFields (w : Word) : Instr → Instr
  | .pwmStart _ _ => .pwmStart (w.extractLsb' 16 5) (w.extractLsb' 0 16)
  | .pwmSet _ _ => .pwmSet (w.extractLsb' 16 5) (w.extractLsb' 0 16)
  | .pwmSetp _ => .pwmSetp (w.extractLsb' 16 5)
  | .spiSolve => .spiSolve
  | .spiApply _ _ _ => .spiApply (w.extractLsb' 16 4) (w.extractLsb' 8 8) (w.extractLsb' 0 8)
  | .spiSend _ _ _ => .spiSend (w.extractLsb' 20 4) (w.extractLsb' 16 4) (w.extractLsb' 0 16)
  | .gpioSet _ _ => .gpioSet (w.extractLsb' 16 5) (w.extractLsb' 0 2)
  | .ledEncode _ => .ledEncode (w.extractLsb' 0 16)

/-- A selected word decodes to the command of its row: every test of `decode` is the comparison of two opcodes. -/
theorem decode_of_selects {i : Instr} {w : Word} (h : (rowOf i).selects w = true) :
    decode w = .command (i.readFields w) := by
  have hrows : ∀ r ∈ opcodeMap, r.selects w = decide (opcodeOf r.pattern = opcodeOf (rowOf i).pattern) :=
    fun r hr => selects_eq_of_selects h hr
  simp only [opcodeMap, List.forall_mem_cons] at hrows
  obtain ⟨hstart, hset, hsetp, hsolve, happly, hsend, hgpio, hled, -⟩ := hrows
  rw [decode, hstart, hset, hsetp, hsolve, happly, hsend, hgpio, hled]
  cases i <;> simp +decide only [rowOf, Instr.readFields, if_true, if_false]

/-- A word that decodes is selected by the row of its command, which has the word's fields. -/
theorem selects_of_decode {i : Instr} {w : Word} (h : decode w = .command i) :
    (rowOf i).selects w = true ∧ i.readFields w = i := by
  unfold decode at h
  split_ifs at h with hstart hset hsetp hsolve happly hsend hgpio hled <;> cases h
  · exact ⟨hstart, rfl⟩
  · exact ⟨hset, rfl⟩
  · exact ⟨hsetp, rfl⟩
  · exact ⟨hsolve, rfl⟩
  · exact ⟨happly, rfl⟩
  · exact ⟨hsend, rfl⟩
  · exact ⟨hgpio, rfl⟩
  · exact ⟨hled, rfl⟩

theorem decode_illegal {w : Word} (h : ∀ r ∈ opcodeMap, ¬ r.selects w = true) : ∃ why, decode w = .illegal why := by
  cases hw : decode w with
  | illegal why => exact ⟨why, rfl⟩
  | command i => exact absurd (selects_of_decode hw).1 (h _ (rowOf_mem i))

/-- Settles O1: the decoder is run on the ten words. -/
theorem commandWordsDecodeAsTheSpecWritesThem : Obligations.CommandWordsDecodeAsTheSpecWritesThem := by
  unfold Obligations.CommandWordsDecodeAsTheSpecWritesThem
  decide

/-! ### The fields of an encoded word (R82) -/

/-- The field in the middle of a word. -/
theorem extractLsb'_append_append {m n k : Nat} (hi : BitVec m) (x : BitVec n) (lo : BitVec k) :
    (hi ++ x ++ lo).extractLsb' k n = x := by
  rw [BitVec.extractLsb'_append_eq_of_le (Nat.le_refl k), Nat.sub_self, BitVec.extractLsb'_append_eq_right]

theorem readFields_encode (i : Instr) : i.readFields (encode i) = i := by
  cases i with
  | pwmStart pin init =>
    rw [Instr.readFields, Instr.pwmStart.injEq]
    exact ⟨extractLsb'_append_append _ pin init, BitVec.extractLsb'_append_eq_right⟩
  | pwmSet pin raw =>
    rw [Instr.readFields, Instr.pwmSet.injEq]
    exact ⟨extractLsb'_append_append _ pin raw, BitVec.extractLsb'_append_eq_right⟩
  | pwmSetp pin =>
    rw [Instr.readFields, Instr.pwmSetp.injEq]
    exact extractLsb'_append_append _ pin 0#16
  | spiSolve => rfl
  | spiApply sel prescale postdiv =>
    rw [Instr.readFields, Instr.spiApply.injEq]
    exact ⟨(BitVec.extractLsb'_append_eq_of_le (by decide)).trans (extractLsb'_append_append _ sel prescale),
      extractLsb'_append_append _ prescale postdiv, BitVec.extractLsb'_append_eq_right⟩
  | spiSend dss sel count =>
    rw [Instr.readFields, Instr.spiSend.injEq]
    exact ⟨(BitVec.extractLsb'_append_eq_of_le (by decide)).trans (extractLsb'_append_append _ dss sel),
      extractLsb'_append_append _ sel count, BitVec.extractLsb'_append_eq_right⟩
  | gpioSet pin mode =>
    rw [Instr.readFields, Instr.gpioSet.injEq]
    exact ⟨(BitVec.extractLsb'_append_eq_of_le (by decide)).trans (extractLsb'_append_append _ pin 0#14),
      BitVec.extractLsb'_append_eq_right⟩
  | ledEncode count =>
    rw [Instr.readFields, Instr.ledEncode.injEq]
    exact BitVec.extractLsb'_append_eq_right

/-- Settles O2: the row of the command selects the encoding, and the encoding's fields are the command's operands. -/
theorem encodedCommandDecodesToItself : Obligations.EncodedCommandDecodesToItself := by
  unfold Obligations.EncodedCommandDecodesToItself
  intro i
  rw [decode_of_selects (encode_selected i), readFields_encode]

/-! ### A word put together from its fields (R82) -/

/-- Two neighbouring pieces of a word, `m` and `n` bits wide, make one piece. -/
theorem extractLsb'_eq_append (m n : Nat) {l k : Nat} {a : BitVec m} {b : BitVec n} {w : BitVec l}
    (ha : w.extractLsb' (k + n) m = a) (hb : w.extractLsb' k n = b) : w.extractLsb' k (m + n) = a ++ b := by
  rw [← ha, ← hb, BitVec.extractLsb'_append_extractLsb'_eq_extractLsb' rfl]

/-- What the row of a command does not fix in a word is fields, so the fields give the word back. -/
theorem encode_readFields {i : Instr} {w : Word} (h : (rowOf i).selects w = true) : encode (i.readFields w) = w := by
  suffices hw : w.extractLsb' 0 32 = encode (i.readFields w) by rw [← hw, BitVec.extractLsb'_eq_self]
  cases i with
  | pwmStart pin init =>
    have hhead : w.extractLsb' 21 11 = 0x21#8 ++ 0#3 := rowPwmStart.field_eq_of_selects h (by decide) (by decide)
    exact extractLsb'_eq_append 16 16 (extractLsb'_eq_append 11 5 hhead rfl) rfl
  | pwmSet pin raw =>
    have hhead : w.extractLsb' 21 11 = 0x22#8 ++ 0#3 := rowPwmSet.field_eq_of_selects h (by decide) (by decide)
    exact extractLsb'_eq_append 16 16 (extractLsb'_eq_append 11 5 hhead rfl) rfl
  | pwmSetp pin =>
    have hhead : w.extractLsb' 21 11 = 0x23#8 ++ 0#3 := rowPwmSetp.field_eq_of_selects h (by decide) (by decide)
    have hlow : w.extractLsb' 0 16 = 0#16 := rowPwmSetp.field_eq_of_selects h (by decide) (by decide)
    exact extractLsb'_eq_append 16 16 (extractLsb'_eq_append 11 5 hhead rfl) hlow
  | spiSolve =>
    have hword : w.extractLsb' 0 32 = 0x31#8 ++ 0#24 := rowSpiSolve.field_eq_of_selects h (by decide) (by decide)
    exact hword
  | spiApply sel prescale postdiv =>
    have hhead : w.extractLsb' 20 12 = 0x32#8 ++ 0#4 := rowSpiApply.field_eq_of_selects h (by decide) (by decide)
    exact extractLsb'_eq_append 24 8 (extractLsb'_eq_append 16 8 (extractLsb'_eq_append 12 4 hhead rfl) rfl) rfl
  | spiSend dss sel count =>
    have hhead : w.extractLsb' 24 8 = 0x33#8 := rowSpiSend.field_eq_of_selects h (by decide) (by decide)
    exact extractLsb'_eq_append 16 16 (extractLsb'_eq_append 12 4 (extractLsb'_eq_append 8 4 hhead rfl) rfl) rfl
  | gpioSet pin mode =>
    have hhead : w.extractLsb' 21 11 = 0x41#8 ++ 0#3 := rowGpioSet.field_eq_of_selects h (by decide) (by decide)
    have hmid : w.extractLsb' 2 14 = 0#14 := rowGpioSet.field_eq_of_selects h (by decide) (by decide)
    exact extractLsb'_eq_append 30 2 (extractLsb'_eq_append 16 14 (extractLsb'_eq_append 11 5 hhead rfl) hmid) rfl
  | ledEncode count =>
    have hhead : w.extractLsb' 16 16 = 0x51#8 ++ 0#8 := rowLedEncode.field_eq_of_selects h (by decide) (by decide)
    exact extractLsb'_eq_append 16 16 hhead rfl

/-- Settles O3: the row of the command selects the word, and fixes every bit of it that is in no field. -/
theorem decodedWordIsTheEncodingOfItsCommand : Obligations.DecodedWordIsTheEncodingOfItsCommand := by
  unfold Obligations.DecodedWordIsTheEncodingOfItsCommand
  intro w i h
  obtain ⟨hrow, hfields⟩ := selects_of_decode h
  rw [← hfields, encode_readFields hrow]

/-! ### One row or none (R83, R85, R86) -/

/-- The rows that select a word all have the word's opcode, and no opcode stands in the map twice. -/
theorem length_selecting_rows_le_one (w : Word) : (opcodeMap.filter fun r => r.selects w).length ≤ 1 := by
  have hnodup : ((opcodeMap.filter fun r => r.selects w).map fun r => opcodeOf r.pattern).Nodup :=
    opcodes_nodup.sublist (List.filter_sublist.map _)
  have hsame : ∀ o ∈ (opcodeMap.filter fun r => r.selects w).map fun r => opcodeOf r.pattern, o = opcodeOf w := by
    intro o ho
    obtain ⟨r, hr, rfl⟩ := List.mem_map.1 ho
    obtain ⟨hmem, hsel⟩ := List.mem_filter.1 hr
    exact (opcodeOf_of_selects hmem hsel).symm
  rw [List.eq_replicate_of_mem hsame, List.nodup_replicate, List.length_map] at hnodup
  exact hnodup

/-- Settles O4: rows differ in the opcode, and decoding tries each row. -/
theorem oneRowOrNoneSelectsAWord : Obligations.OneRowOrNoneSelectsAWord := by
  unfold Obligations.OneRowOrNoneSelectsAWord
  refine fun w => ⟨length_selecting_rows_le_one w, ?_, ?_⟩
  · rintro ⟨i, hi⟩
    exact ⟨rowOf i, rowOf_mem i, Row.selects_iff.1 (selects_of_decode hi).1⟩
  · rintro ⟨r, hr, hw⟩
    obtain ⟨i, rfl⟩ := exists_rowOf_eq hr
    exact ⟨_, decode_of_selects (Row.selects_iff.2 hw)⟩

/-! ### Commands that fail (R85 to R87) -/

/-- Completion with a non-zero code is the failed command of the statements. -/
theorem complete_eq_failed (s : State) {k : ResultCode} (h : k ≠ .ok) : s.complete k = failed s k :=
  State.complete_failed s h

theorem issue_illegal {s : State} {w : Word} {why : IllegalWord} (hw : decode w = .illegal why) :
    issue (.write 0x0000 4 w) s = .done (s.complete .illegalCommand) := by
  simp only [issue, (MapRow.cmd (c := s.cfg)).decodeAddress_eq, issueCommand, hw]

/-- The host's write of a word that no row selects. -/
theorem step_offer_unselected {s : State} {w : Word} (hi : s.seq = .idle) (h : ∀ r ∈ opcodeMap, ¬ r.selects w = true) :
    step (offer (.write 0x0000 4 w) s) = .next (failed s .illegalCommand) := by
  obtain ⟨why, hw⟩ := decode_illegal h
  rw [step_offer_done hi (issue_illegal hw), complete_eq_failed s (by decide)]

/-- Settles O7: the row of the opcode does not select the word, and every other row has another opcode. -/
theorem reservedBitMakesTheCommandFail : Obligations.ReservedBitMakesTheCommandFail := by
  unfold Obligations.ReservedBitMakesTheCommandFail
  intro s w r hi hr hop hbits
  refine step_offer_unselected hi fun r' hr' hsel => ?_
  have hrow : r' = r := row_eq_of_opcode_eq hr' hr (by rw [← opcodeOf_of_selects hr' hsel, hop])
  exact hbits (Row.selects_iff.1 (hrow ▸ hsel))

/-- Settles O8: a row selects only words with its own opcode. -/
theorem unknownOpcodeMakesTheCommandFail : Obligations.UnknownOpcodeMakesTheCommandFail := by
  unfold Obligations.UnknownOpcodeMakesTheCommandFail
  intro s w hi hop
  refine step_offer_unselected hi fun r hr hsel => hop ?_
  have hmem : opcodeOf r.pattern ∈ opcodeMap.map fun r => opcodeOf r.pattern := List.mem_map_of_mem hr
  rwa [← opcodeOf_of_selects hr hsel, opcodes_of_opcodeMap] at hmem

/-- A command whose field is out of range does not reach its effect: it fails with one of its codes. -/
theorem exec_eq_complete_of_not_wellFormed {i : Instr} {s : State} (hbad : i.wellFormed s.cfg = false) :
    ∃ k ∈ [ResultCode.illegalCommand, .badPin, .badSelector, .badFrameSize, .badDivider, .bufferSize],
      k ∈ possibleCodes i ∧ exec i s = .next (s.complete k) := by
  cases i with
  | pwmStart pin init =>
    rcases execPwmStart_cases pin init s with ⟨-, e⟩ | ⟨p, hpin, hp, -⟩
    · exact ⟨.badPin, by simp, by simp [possibleCodes], e⟩
    · simp [Instr.wellFormed, hpin, hp] at hbad
  | pwmSet pin raw =>
    rcases execPwmSet_cases pin raw s with ⟨-, e⟩ | ⟨p, hpin, hp, -⟩
    · exact ⟨.badPin, by simp, by simp [possibleCodes], e⟩
    · simp [Instr.wellFormed, hpin, hp] at hbad
  | pwmSetp pin =>
    rcases execPwmSetp_cases pin s with ⟨-, e⟩ | ⟨p, hpin, hp, -⟩
    · exact ⟨.badPin, by simp, by simp [possibleCodes], e⟩
    · simp [Instr.wellFormed, hpin, hp] at hbad
  | spiSolve => cases hbad
  | spiApply sel prescale postdiv =>
    rcases execSpiApply_cases sel prescale postdiv s with ⟨k, hk, e⟩ | ⟨i, hi, hmin, heven, -⟩
    · exact ⟨k, by rcases hk with rfl | rfl <;> simp, by simpa [possibleCodes] using hk, e⟩
    · obtain ⟨hsel, hlt⟩ := selOf_eq_some.1 hi
      simp [Instr.wellFormed, hsel, hlt, hmin, heven] at hbad
  | spiSend dss sel count =>
    rcases execSpiSend_cases dss sel count s with ⟨k, hk, e⟩ | ⟨i, hi, hdss, hcap, -⟩
    · exact ⟨k, by rcases hk with rfl | rfl | rfl <;> simp, by simpa [possibleCodes] using hk, e⟩
    · obtain ⟨hsel, hlt⟩ := selOf_eq_some.1 hi
      simp [Instr.wellFormed, hsel, hlt, hdss, hcap] at hbad
  | gpioSet pin mode =>
    rcases execGpioSet_cases pin mode s with ⟨k, hk, e⟩ | ⟨p, v, hp, hv, -⟩
    · exact ⟨k, by rcases hk with rfl | rfl <;> simp, by simpa [possibleCodes] using hk, e⟩
    · obtain ⟨hpin, hlt⟩ := pinOf_eq_some.1 hp
      have hmode : mode.toNat ≠ 3 := fun h3 => by simp [pinval, h3] at hv
      simp [Instr.wellFormed, hpin, hlt, hmode] at hbad
  | ledEncode count => cases hbad

/-- Settles O5: a field-check code is not `Ok`, so completing with it writes the failed record. -/
theorem illFormedCommandFailsAndChangesNothingElse : Obligations.IllFormedCommandFailsAndChangesNothingElse := by
  unfold Obligations.IllFormedCommandFailsAndChangesNothingElse
  intro i s hbad
  obtain ⟨k, hk, hcode, e⟩ := exec_eq_complete_of_not_wellFormed hbad
  have hok : k ≠ .ok := by
    rintro rfl
    simp at hk
  exact ⟨k, hk, hcode, e.trans (congrArg _ (complete_eq_failed s hok))⟩

end Sys2Proof
end

/-! # The colour model's arithmetic (41_color_model.md)

Each statement turns on one fact. Every test of a sextant bounds hue' between 0 and 6, so outside them no test holds. No
number of a format's precision lies strictly between the two neighbours that rounding chooses from, so the nearer of the
two is a nearest number. -/

section
namespace Sys2Proof.Machine

open Flt

/-! ### RGBColor (R102 to R104) -/

theorem rgbToChannels_channelsToRgb (r g b : Byte) : rgbToChannels (channelsToRgb r g b) = (r, g, b) := by
  have hr : (r ++ g ++ b).extractLsb' 16 8 = r :=
    (BitVec.extractLsb'_append_eq_of_le (by decide)).trans BitVec.extractLsb'_append_eq_left
  rw [rgbToChannels, Prod.mk.injEq, Prod.mk.injEq]
  exact ⟨hr, extractLsb'_append_append r g b, BitVec.extractLsb'_append_eq_right⟩

theorem channelsToRgb_rgbToChannels (c : Colour) :
    channelsToRgb (rgbToChannels c).1 (rgbToChannels c).2.1 (rgbToChannels c).2.2 = c := by
  have h : c.extractLsb' 0 24 = channelsToRgb (rgbToChannels c).1 (rgbToChannels c).2.1 (rgbToChannels c).2.2 :=
    extractLsb'_eq_append 16 8 (extractLsb'_eq_append 8 8 rfl rfl) rfl
  rw [← h, BitVec.extractLsb'_eq_self]

/-- Settles O56: a colour is its three channels side by side. -/
theorem colourChannelsRoundTrip : Obligations.ColourChannelsRoundTrip := by
  unfold Obligations.ColourChannelsRoundTrip
  exact ⟨fun c => ⟨rfl, rfl, rfl, channelsToRgb_rgbToChannels c⟩,
    fun r g b => ⟨rgbToChannels_channelsToRgb r g b, toNat_channelsToRgb r g b⟩⟩

/-! ### A hue outside the sextants (R106) -/

namespace Flt

theorem le_fin_inf (a b : Bool) (m : Nat) : le (fin a m) (inf b) = !b := rfl

theorem le_inf_fin (a b : Bool) (n : Nat) : le (inf a) (fin b n) = a := rfl

theorem le_of_grid_le {a b : Nat} {x : Flt} (hba : b ≤ a) (h : le (grid a) x = true) : le (grid b) x = true := by
  unfold grid at h ⊢
  cases x with
  | nan => cases h
  | inf neg => rwa [le_fin_inf] at h ⊢
  | fin neg m =>
    rw [le_fin, signed_false] at h ⊢
    exact (Int.ofNat_le.2 (Nat.mul_le_mul_right _ hba)).trans h

theorem le_grid_of_le {a b : Nat} {x : Flt} (hab : a ≤ b) (h : le x (grid a) = true) : le x (grid b) = true := by
  unfold grid at h ⊢
  cases x with
  | nan => cases h
  | inf neg => rwa [le_inf_fin] at h ⊢
  | fin neg m =>
    rw [le_fin, signed_false] at h ⊢
    exact h.trans (Int.ofNat_le.2 (Nat.mul_le_mul_right _ hab))

end Flt

/-- Every sextant begins at 0 or above. -/
theorem sextantOf_eq_none_of_not_zero_le {hp : Flt} (h : Flt.le (.ofNat .binary32 0) hp = false) :
    sextantOf .binary32 hp = none := by
  rw [ofNat_eq_grid (by decide)] at h
  have hbelow (a : Nat) : Flt.le (grid a) hp = false :=
    Bool.eq_false_iff.2 fun hle => Bool.eq_false_iff.1 h (le_of_grid_le (by omega) hle)
  simp [sextantOf, Flt.lt, ofNat_eq_grid, hbelow]

/-- Every sextant ends at 6 or below. -/
theorem sextantOf_eq_none_of_not_le_six {hp : Flt} (h : Flt.le hp (.ofNat .binary32 6) = false) :
    sextantOf .binary32 hp = none := by
  rw [ofNat_eq_grid (by decide)] at h
  have habove {k : Nat} (hk : k ≤ 6 * 128) : Flt.le hp (grid k) = false :=
    Bool.eq_false_iff.2 fun hle => Bool.eq_false_iff.1 h (le_grid_of_le hk hle)
  simp [sextantOf, ofNat_eq_grid, habove]

/-- Settles O58: no sextant reaches below 0 or above 6, and without a sextant the colour is black. -/
theorem hueOutsideAllSextantsIsBlack : Obligations.HueOutsideAllSextantsIsBlack := by
  unfold Obligations.HueOutsideAllSextantsIsBlack
  intro hue s l hs hl h0 hout
  refine hslToRgb_black hs hl h0 ?_
  rcases hout with hbelow | habove
  · exact sextantOf_eq_none_of_not_zero_le hbelow
  · exact sextantOf_eq_none_of_not_le_six habove

/-! ### Integer `rescale` (R108, R109) -/

theorem rescaleInt_eq_ok (v : Int) {il ih : Int} (ol oh : Int) (h : ih ≠ il) :
    rescaleInt v il ih ol oh = .ok (ol + ((v - il) * (oh - ol)).tdiv (ih - il)) := if_neg h

theorem rescaleInt_eq_error_iff (v il ih ol oh : Int) :
    rescaleInt v il ih ol oh = .error .divisionByZero ↔ ih = il := by
  unfold rescaleInt
  split
  · exact iff_of_true rfl ‹_›
  · exact iff_of_false nofun ‹_›

theorem natAbs_tdiv_mul (a b : Int) : (a.tdiv b * b).natAbs = a.natAbs / b.natAbs * b.natAbs := by
  rw [Int.natAbs_mul, Int.natAbs_tdiv]
  rfl

/-- A truncated quotient never has the other sign. -/
theorem tdiv_mul_mul_self_nonneg (a b : Int) : 0 ≤ a.tdiv b * b * a := by
  have hmul : a.tdiv b * b = a - a.tmod b := by
    have := Int.mul_tdiv_add_tmod a b
    rw [Int.mul_comm]
    omega
  have hrest : (a.tmod b).natAbs ≤ a.natAbs := by
    rw [Int.natAbs_tmod]
    exact Nat.mod_le _ _
  rw [hmul]
  rcases Int.le_total 0 a with ha | ha
  · exact Int.mul_nonneg (by omega) ha
  · exact Int.mul_nonneg_of_nonpos_of_nonpos (by omega) ha

/-- Settles O59: at the ends of the input range the quotient is exact, elsewhere its magnitude is a quotient of
naturals. -/
theorem integerRescaleTruncatesTowardZero : Obligations.IntegerRescaleTruncatesTowardZero := by
  unfold Obligations.IntegerRescaleTruncatesTowardZero
  refine fun v il ih ol oh => ⟨rescaleInt_eq_error_iff v il ih ol oh, fun hne => ?_⟩
  refine ⟨?_, ?_, _, rescaleInt_eq_ok v ol oh hne, ?_⟩
  · rw [rescaleInt_eq_ok il ol oh hne, Int.sub_self, Int.zero_mul, Int.zero_tdiv, Int.add_zero]
  · rw [rescaleInt_eq_ok ih ol oh hne, Int.mul_tdiv_cancel_left _ (by omega), add_sub_cancel]
  · rw [add_sub_cancel_left, natAbs_tdiv_mul]
    exact ⟨Nat.div_mul_le_self _ _, Nat.lt_div_mul_add (by omega), tdiv_mul_mul_self_nonneg _ _⟩

/-! ### Rounding to nearest even (R111, D11) -/

namespace Flt

/-- The exponent of the spacing at the size of `num / den` units: the least that leaves the whole part of the quotient at
most `fracWidth + 1` significant bits. -/
def lowExponent (f : FloatFormat) (num den : Nat) : Nat := (num / den).log2 - f.fracWidth

/-- The spacing there, in parts of which `den` make a unit. -/
def lowStep (f : FloatFormat) (num den : Nat) : Nat := den * 2 ^ lowExponent f num den

/-- The number of spacings in `num / den`; so many of them are the lower of the two neighbours in the format. -/
def lowCount (f : FloatFormat) (num den : Nat) : Nat := num / lowStep f num den

/-- What `num / den` has beyond the lower neighbour, in parts of which `den` make a unit. -/
def lowRest (f : FloatFormat) (num den : Nat) : Nat := num % lowStep f num den

theorem lowStep_mul_lowCount_add_lowRest (f : FloatFormat) (num den : Nat) :
    lowStep f num den * lowCount f num den + lowRest f num den = num := Nat.div_add_mod _ _

theorem lowRest_lt_lowStep (f : FloatFormat) (num : Nat) {den : Nat} (hden : 0 < den) :
    lowRest f num den < lowStep f num den := Nat.mod_lt _ (Nat.mul_pos hden (Nat.two_pow_pos _))

theorem lowCount_eq (f : FloatFormat) (num den : Nat) :
    lowCount f num den = num / den / 2 ^ lowExponent f num den := (Nat.div_div_eq_div_mul _ _ _).symm

theorem lowCount_lt (f : FloatFormat) (num den : Nat) : lowCount f num den < 2 ^ (f.fracWidth + 1) := by
  rw [lowCount_eq, Nat.div_lt_iff_lt_mul (Nat.two_pow_pos _), ← Nat.pow_add]
  refine Nat.lt_log2_self.trans_le (Nat.pow_le_pow_right Nat.two_pos ?_)
  unfold lowExponent
  omega

/-- Where the spacing is more than a unit, the lower neighbour has all the significant bits of the format. -/
theorem le_lowCount {f : FloatFormat} {num den : Nat} (h : 0 < lowExponent f num den) :
    2 ^ f.fracWidth ≤ lowCount f num den := by
  have hlog : f.fracWidth + lowExponent f num den = (num / den).log2 := by
    unfold lowExponent at h ⊢
    omega
  have hq : num / den ≠ 0 := by
    intro h0
    rw [h0, Nat.log2_zero] at hlog
    omega
  rw [lowCount_eq, Nat.le_div_iff_mul_le (Nat.two_pow_pos _), ← Nat.pow_add, hlog]
  exact Nat.log2_self_le hq

/-- No number of the format's precision lies strictly between two neighbours: a multiple of the spacing cannot, and a
number that is none is too small. -/
theorem le_lower_or_upper_le (f : FloatFormat) (num den : Nat) {k : Nat} (j : Nat) (hk : k < 2 ^ (f.fracWidth + 1)) :
    k * 2 ^ j ≤ lowCount f num den * 2 ^ lowExponent f num den ∨
      (lowCount f num den + 1) * 2 ^ lowExponent f num den ≤ k * 2 ^ j := by
  rcases Nat.lt_or_ge j (lowExponent f num den) with hlt | hge
  · left
    calc k * 2 ^ j ≤ 2 ^ (f.fracWidth + 1) * 2 ^ (lowExponent f num den - 1) :=
          Nat.mul_le_mul hk.le (Nat.pow_le_pow_right Nat.two_pos (by omega))
      _ = 2 ^ f.fracWidth * 2 ^ lowExponent f num den := by
          rw [← Nat.pow_add, ← Nat.pow_add]
          congr 1
          omega
      _ ≤ _ := Nat.mul_le_mul_right _ (le_lowCount (by omega))
  · have hmul : k * 2 ^ j = k * 2 ^ (j - lowExponent f num den) * 2 ^ lowExponent f num den := by
      rw [Nat.mul_assoc, ← Nat.pow_add, Nat.sub_add_cancel hge]
    rw [hmul]
    rcases Nat.lt_or_ge (lowCount f num den) (k * 2 ^ (j - lowExponent f num den)) with h | h
    · exact .inr (Nat.mul_le_mul_right _ h)
    · exact .inl (Nat.mul_le_mul_right _ h)

theorem roundsUp_nearestEven (neg odd : Bool) (rest d : Nat) :
    roundsUp .nearestEven neg odd rest d = true ↔ d < 2 * rest ∨ 2 * rest = d ∧ odd = true := by
  rw [roundsUp, Bool.or_eq_true, Bool.and_eq_true, decide_eq_true_iff, decide_eq_true_iff]

/-- Rounding to nearest even takes the lower neighbour when the rest is at most half the spacing, the upper one when it
is at least half, and at one half the one with an even count. -/
theorem roundMag_nearestEven {f : FloatFormat} (neg : Bool) (num den : Nat) (hf : f.rounding = .nearestEven) :
    ∃ c, roundMag f neg num den = c * 2 ^ lowExponent f num den ∧
      (c = lowCount f num den ∧ 2 * lowRest f num den ≤ lowStep f num den ∨
        c = lowCount f num den + 1 ∧ lowStep f num den ≤ 2 * lowRest f num den) ∧
      (2 * lowRest f num den = lowStep f num den → c % 2 = 0) := by
  have hmag : roundMag f neg num den = (if roundsUp f.rounding neg (decide (lowCount f num den % 2 = 1))
      (lowRest f num den) (lowStep f num den) then lowCount f num den + 1 else lowCount f num den) *
        2 ^ lowExponent f num den := rfl
  rw [hmag, hf]
  refine ⟨_, rfl, ?_⟩
  split
  · rename_i hup
    rw [roundsUp_nearestEven, decide_eq_true_iff] at hup
    exact ⟨.inr ⟨rfl, by omega⟩, by omega⟩
  · rename_i hdown
    rw [roundsUp_nearestEven, decide_eq_true_iff] at hdown
    exact ⟨.inl ⟨rfl, by omega⟩, by omega⟩

/-- An even count up to `2 ^ p` makes a number of `p` significant bits with an even last one; at the bound itself the
spacing is taken twice as large. -/
theorem exists_even_significand {p c : Nat} (e : Nat) (hp : 2 ≤ p) (hc : c ≤ 2 ^ p) (heven : c % 2 = 0) :
    ∃ m' e', 2 * m' < 2 ^ p ∧ c * 2 ^ e = 2 * m' * 2 ^ e' := by
  rcases Nat.lt_or_eq_of_le hc with hlt | rfl
  · exact ⟨c / 2, e, by omega, by rw [Nat.mul_div_cancel' (Nat.dvd_of_mod_eq_zero heven)]⟩
  · obtain ⟨q, rfl⟩ := Nat.exists_eq_add_of_le hp
    refine ⟨2 ^ q, e + 1, ?_, by ring⟩
    rw [Nat.pow_add]
    have := Nat.two_pow_pos q
    omega

/-- A number of spacings, in parts of which `den` make a unit. -/
theorem spacings_mul_den (f : FloatFormat) (num den c : Nat) :
    c * 2 ^ lowExponent f num den * den = lowStep f num den * c := by
  unfold lowStep
  ring

/-- Every number of the format's precision is at least as far from `num / den` as the neighbour on its side: the rest
below it, or above it what the rest lacks of a spacing. -/
theorem distance_cases (f : FloatFormat) (num den : Nat) {k : Nat} (j : Nat) (hk : k < 2 ^ (f.fracWidth + 1)) :
    k * 2 ^ j * den + lowRest f num den ≤ num ∨
      num + lowStep f num den ≤ k * 2 ^ j * den + lowRest f num den := by
  have hnum := lowStep_mul_lowCount_add_lowRest f num den
  rcases le_lower_or_upper_le f num den j hk with h | h
  · have hle := Nat.mul_le_mul_right den h
    rw [spacings_mul_den] at hle
    omega
  · have hle := Nat.mul_le_mul_right den h
    rw [spacings_mul_den, Nat.mul_succ] at hle
    omega

/-- The number that rounding to nearest even answers is one of the neighbours, at just that distance. -/
theorem roundMag_distance {f : FloatFormat} (neg : Bool) (num den : Nat) (hf : f.rounding = .nearestEven) :
    roundMag f neg num den * den + lowRest f num den = num ∧ 2 * lowRest f num den ≤ lowStep f num den ∨
      roundMag f neg num den * den + lowRest f num den = num + lowStep f num den ∧
        lowStep f num den ≤ 2 * lowRest f num den := by
  have hnum := lowStep_mul_lowCount_add_lowRest f num den
  obtain ⟨c, hc, hnear, -⟩ := roundMag_nearestEven neg num den hf
  rw [hc, spacings_mul_den]
  rcases hnear with ⟨rfl, hhalf⟩ | ⟨rfl, hhalf⟩
  · exact .inl ⟨hnum, hhalf⟩
  · rw [Nat.mul_succ]
    exact .inr ⟨by omega, hhalf⟩

/-- No number of the format's precision is nearer than the one that rounding answers, and one as near is the same number
unless the rest is half a spacing. -/
theorem roundMag_nearest {f : FloatFormat} (neg : Bool) (num den : Nat) (hden : 0 < den) (hf : f.rounding = .nearestEven)
    {k : Nat} (j : Nat) (hk : k < 2 ^ (f.fracWidth + 1)) :
    (((roundMag f neg num den * den : Nat) : Int) - num).natAbs ≤ (((k * 2 ^ j * den : Nat) : Int) - num).natAbs ∧
      ((((k * 2 ^ j * den : Nat) : Int) - num).natAbs = (((roundMag f neg num den * den : Nat) : Int) - num).natAbs →
        k * 2 ^ j = roundMag f neg num den ∨ 2 * lowRest f num den = lowStep f num den) := by
  have hrest := lowRest_lt_lowStep f num hden
  have hother := distance_cases f num den j hk
  have hround := roundMag_distance neg num den hf
  refine ⟨by omega, fun heq => ?_⟩
  rw [← Nat.mul_left_inj hden.ne']
  omega

/-- At a rest of half a spacing rounding answers a number of the format's precision with an even last significant bit. -/
theorem roundMag_even_of_tie {f : FloatFormat} (neg : Bool) (num den : Nat) (hfrac : 1 ≤ f.fracWidth)
    (hf : f.rounding = .nearestEven) (htie : 2 * lowRest f num den = lowStep f num den) :
    ∃ m' e', 2 * m' < 2 ^ (f.fracWidth + 1) ∧ roundMag f neg num den = 2 * m' * 2 ^ e' := by
  have hlt := lowCount_lt f num den
  obtain ⟨c, hc, hnear, heven⟩ := roundMag_nearestEven neg num den hf
  rw [hc]
  exact exists_even_significand _ (by omega) (by omega) (heven htie)

/-- Rounding to nearest even answers a number of the format's precision: a count one too large for it is a power of
two. -/
theorem roundMag_significand {f : FloatFormat} (neg : Bool) (num den : Nat) (hf : f.rounding = .nearestEven) :
    ∃ m e, m < 2 ^ (f.fracWidth + 1) ∧ roundMag f neg num den = m * 2 ^ e := by
  have hlt := lowCount_lt f num den
  obtain ⟨c, hc, hnear, -⟩ := roundMag_nearestEven neg num den hf
  rcases Nat.lt_or_eq_of_le (show c ≤ 2 ^ (f.fracWidth + 1) by omega) with hlt | rfl
  · exact ⟨c, _, hlt, hc⟩
  · exact ⟨1, _, Nat.one_lt_two_pow (Nat.succ_ne_zero _), by rw [hc, Nat.one_mul, ← Nat.pow_add]⟩

end Flt

/-- Settles O60: every number of the format's precision lies beyond one of the two neighbours, rounding takes the nearer
of these, and they are as near as each other only at a tie. -/
theorem roundingGivesANearestValue : Obligations.RoundingGivesANearestValue := by
  unfold Obligations.RoundingGivesANearestValue
  intro f neg num den hden hfrac hf
  refine ⟨roundMag_significand neg num den hf, fun m e hm => ?_⟩
  obtain ⟨hle, htie⟩ := roundMag_nearest neg num den hden hf e hm
  push_cast at hle htie
  refine ⟨hle, fun heq hne => ?_⟩
  exact roundMag_even_of_tie neg num den hfrac hf ((htie heq).resolve_left hne)

end Sys2Proof.Machine
end

/-! # The PWM commands and counters (42_pwm.md)

Every command writes at most one channel, and a write of one channel keeps, in every channel, each field it keeps in
its own (`chan_setChan_field`). A running counter is a count modulo the period (`Channel.atCount`), so a period of the
output is a count of the remainders below the compare value. -/

section
namespace Sys2Proof.Machine

/-! ### The binding (R120, R121) -/

theorem Config.bind_default (p : Pin) : Config.default.bind p = defaultBinding p := by
  simp [Config.bind, Config.default]

/-- Pins `2k` and `2k + 1` of the default binding have channel `k`, and its two slices. -/
theorem defaultBinding_channel (p : Pin) : (defaultBinding p).1.val = p.val / 2 := rfl

theorem defaultBinding_slice (p : Pin) : (defaultBinding p).2 = .a ↔ p.val % 2 = 0 := by
  unfold defaultBinding
  split <;> simp [*]

theorem defaultBinding_injective : Function.Injective defaultBinding := by
  intro p q h
  have hchannel : p.val / 2 = q.val / 2 := congrArg (fun b => b.1.val) h
  have hslice : p.val % 2 = 0 ↔ q.val % 2 = 0 := by rw [← defaultBinding_slice, h, defaultBinding_slice]
  exact Fin.ext (by omega)

/-- The defaults of R7 and R8 meet R9. -/
theorem Config.legal_default : Config.default.Legal where
  pins := by decide
  channels := by decide
  bind_channel p _ := by
    have hp : p.val < 31 := p.isLt
    rw [bind_default, defaultBinding_channel]
    show p.val / 2 < 16
    omega
  bind_slice p _ := by rw [bind_default, defaultBinding_slice]
  bind_pairs p q _ _ h := by rw [bind_default, bind_default]; exact Fin.ext h
  bind_injective p q _ _ h := by
    rw [bind_default, bind_default] at h
    exact defaultBinding_injective h
  spi := by decide
  fifo := by decide
  buffers := by decide
  symbols := by decide
  symbol_width := by decide
  float_exponent := by decide
  float_fraction := by decide
  float_width := by decide

/-- Settles O21: the four conditions are part of R9, and the default table is `p div 2` with slice A for even pins. -/
theorem bindingIsInjectiveAndPairsPins : Obligations.BindingIsInjectiveAndPairsPins := by
  unfold Obligations.BindingIsInjectiveAndPairsPins
  refine ⟨fun c hc => ⟨hc.bind_channel, hc.bind_slice, hc.bind_pairs, hc.bind_injective⟩, Config.legal_default,
    rfl, rfl, rfl, rfl, rfl, rfl, rfl, rfl, rfl, rfl, rfl, rfl, rfl, rfl, rfl, rfl, fun p => ?_⟩
  rw [Config.bind_default]
  exact ⟨defaultBinding_channel p, defaultBinding_slice p⟩

/-! ### A write of one channel, seen from any channel -/

theorem State.chan_setChan_field {α : Type} (field : Channel → α) {s : State} {c : Chan} {ch : Channel}
    (h : field ch = field (s.chan c)) (d : Chan) : field ((s.setChan c ch).chan d) = field (s.chan d) := by
  by_cases hd : d = c
  · subst hd
    rw [State.chan_setChan_same, h]
  · rw [State.chan_setChan_ne _ _ hd]

/-- A write of a pin's channel that amounts, for the compare registers and the counter, to a write of the pin's compare
register. -/
theorem onlyCompare_setChan {s : State} {p : Pin} {v : Half} {ch : Channel}
    (hcmp : ∀ x, ch.cmp x = ((s.chan (s.chanOf p)).setCmp (s.sliceOf p) v).cmp x)
    (hctr : ch.ctr = (s.chan (s.chanOf p)).ctr) : OnlyCompare s (s.setChan (s.chanOf p) ch) p v := by
  refine ⟨?_, fun c x hne => ?_, State.chan_setChan_field Channel.ctr hctr⟩
  · show ((s.setChan (s.chanOf p) ch).chan (s.chanOf p)).cmp (s.sliceOf p) = PwmReg.of v
    rw [State.chan_setChan_same, hcmp, Channel.cmp_setCmp_same]
  · by_cases hc : c = s.chanOf p
    · subst hc
      have hx : x ≠ s.sliceOf p := fun hx => hne (Prod.ext rfl hx)
      rw [State.chan_setChan_same, hcmp, Channel.cmp_setCmp_ne _ _ hx]
    · rw [State.chan_setChan_ne _ _ hc]

theorem setCmpreg_onlyCompare (s : State) (p : Pin) (v : Half) : OnlyCompare s (s.setCmpreg p v) p v :=
  onlyCompare_setChan (fun _ => rfl) (Channel.setCmp_ctr _ _ _)

/-! ### PWM.START and PWM.SET (R124, R125) -/

@[simp] theorem Channel.start_cmp (ch : Channel) (x y : Slice) (top init : Half) :
    (ch.start x top init).cmp y = (ch.setCmp x init).cmp y := by
  cases y <;> rfl

@[simp] theorem Channel.start_ctr (ch : Channel) (x : Slice) (top init : Half) : (ch.start x top init).ctr = ch.ctr :=
  Channel.setCmp_ctr ch x init

theorem complete_ok_eq_succeeded (s : State) : s.complete .ok = succeeded s := State.complete_ok s

/-- A command whose only failure is a bad pin fails with it when it is not well formed. -/
theorem exec_badPin {i : Instr} {s : State} (hbad : i.wellFormed s.cfg = false) (hcodes : possibleCodes i = [.badPin]) :
    exec i s = .next (failed s .badPin) := by
  obtain ⟨k, -, hk, e⟩ := exec_eq_complete_of_not_wellFormed hbad
  obtain rfl : k = .badPin := by simpa [hcodes] using hk
  rw [e, complete_eq_failed s (by decide)]

/-- PWM.START on a pin the block has is one write of the pin's channel. -/
theorem exec_pwmStart {s : State} {pin : BitVec 5} {p : Pin} (hp : pinOf s.cfg pin = some p) (init : Half) :
    exec (.pwmStart pin init) s = .next (succeeded
      (s.setChan (s.chanOf p) ((s.chan (s.chanOf p)).start (s.sliceOf p) s.cfg.pwmTop init))) := by
  rw [← complete_ok_eq_succeeded, ← start_eq_setChan]
  simp only [exec, execPwmStart, hp]

theorem exec_pwmSet {s : State} {pin : BitVec 5} {p : Pin} (hp : pinOf s.cfg pin = some p) (raw : Half) :
    exec (.pwmSet pin raw) s = .next (succeeded (s.setCmpreg p raw)) := by
  rw [← complete_ok_eq_succeeded]
  simp only [exec, execPwmSet, hp]

/-- Settles O22: the three writes of PWM.START come to one write of the pin's channel. -/
theorem pwmStartConfiguresAndEnables : Obligations.PwmStartConfiguresAndEnables := by
  unfold Obligations.PwmStartConfiguresAndEnables
  refine fun pin init s => ⟨fun h => exec_badPin (by simpa [Instr.wellFormed] using h) rfl, fun p hpin hp => ?_⟩
  refine ⟨_, exec_pwmStart (pinOf_eq_some.2 ⟨hpin.symm, hp⟩) init, rfl,
    onlyCompare_setChan (Channel.start_cmp _ _ · _ _) (Channel.start_ctr _ _ _ _), ?_, ?_, fun c hc => ?_⟩
  · exact congrArg Channel.en (State.chan_setChan_same s (s.chanOf p) _)
  · exact congrArg Channel.top (State.chan_setChan_same s (s.chanOf p) _)
  · have hkept := State.chan_setChan_ne s ((s.chan (s.chanOf p)).start (s.sliceOf p) s.cfg.pwmTop init) hc
    exact ⟨congrArg Channel.en hkept, congrArg Channel.top hkept⟩

/-- Settles O23: PWM.SET is a write of the pin's compare register. -/
theorem pwmSetStoresTheValueAsGiven : Obligations.PwmSetStoresTheValueAsGiven := by
  unfold Obligations.PwmSetStoresTheValueAsGiven
  refine fun pin raw s => ⟨fun h => exec_badPin (by simpa [Instr.wellFormed] using h) rfl, fun p hpin hp => ?_⟩
  exact ⟨_, exec_pwmSet (pinOf_eq_some.2 ⟨hpin.symm, hp⟩) raw, rfl, setCmpreg_onlyCompare s p raw,
    setCmpreg_sameEnableAndTop s p raw⟩

/-! ### The enable (R29, R123) -/

/-- What the host's turn may do to the enables: nothing, or a PWM.START of pin `p` was written to `CMD` and set that of
its channel. -/
inductive EnableEffect (s t : State) : Prop where
  | same (hen : ∀ c, (t.chan c).en = (s.chan c).en)
  | start (p : Pin) (pin : BitVec 5) (init : Half) (w : Word) (rest : List Access) (hpin : p.val = pin.toNat)
      (hp : p.val < s.cfg.nPins) (hhost : s.host = .write 0x0000 4 w :: rest)
      (hw : decode w = .command (.pwmStart pin init))
      (hset : (t.chan (s.chanOf p)).en = true) (hkept : ∀ c, c ≠ s.chanOf p → (t.chan c).en = (s.chan c).en)

theorem EnableEffect.of_pwm_eq {s t : State} (h : t.pwm = s.pwm) : EnableEffect s t :=
  .same fun c => by rw [State.chan_congr h c]

/-- The bus takes a write to `CMD` at offset 0 only (R21). -/
theorem decodeAddress_cmd {c : Config} {off size : Nat} (h : decodeAddress c off size = .ok .cmd) :
    off = 0x0000 ∧ size = 4 := by
  obtain ⟨hsize, haligned, -, hmap⟩ := decodeAddress_ok h
  exact ⟨(offset_of_mapAt haligned hmap).symm, hsize⟩

/-- The host writes no PWM register itself (R21). -/
theorem writeReg_pwm {s s' : State} {v : Word} {r : Reg} (h : writeReg s v r = some s') : s'.pwm = s.pwm := by
  rcases writeReg_cases h with rfl | rfl | ⟨_, -, rfl⟩ | ⟨_, -, rfl⟩ <;> rfl

theorem hostTurn_enableEffect {s t : State} (h : hostTurn s = .next t) : EnableEffect s t := by
  by_cases hi : s.seq = .idle
  swap
  · rw [hostTurn_held hi] at h
    cases h
    exact .of_pwm_eq rfl
  cases hh : s.host with
  | nil =>
    rw [hostTurn_nil hh] at h
    cases h
    exact .of_pwm_eq rfl
  | cons a rest =>
    rw [hostTurn_cons hi hh] at h
    rcases issue_cases a { s with host := rest } with ⟨err, e⟩ | ⟨off, size, r, v, -, -, e⟩ |
      ⟨off, size, r, v, s', -, -, hw, e⟩ | ⟨off, size, w, why, -, -, e⟩ | ⟨off, size, w, i, rfl, hd, hw, e⟩ <;>
      rw [e] at h
    · cases h; exact .of_pwm_eq rfl
    · cases h; exact .of_pwm_eq rfl
    · have hpwm := writeReg_pwm hw
      cases h
      exact .of_pwm_eq hpwm
    · cases h; exact .of_pwm_eq rfl
    · obtain ⟨rfl, rfl⟩ := decodeAddress_cmd hd
      have he := exec_effect h
      rcases he.sameEnableAndTop with ⟨pin, init, rfl⟩ | hsame
      · cases he with
        | failed => exact .of_pwm_eq rfl
        | pwmStart p hpin hp =>
          refine .start p pin init w rest hpin.symm hp hh hw ?_ fun c hc => ?_
          · exact congrArg Channel.en (State.chan_setChan_same s (s.chanOf p) _)
          · exact congrArg Channel.en (State.chan_setChan_ne s _ hc)
      · exact .same fun c => (hsame c).1

theorem sequencerTurn_pwm {s t : State} (h : sequencerTurn s = .next t) : t.pwm = s.pwm := by
  rcases sequencerTurn_cases h with rfl | ⟨_, _, _, _, -, -, -, -, rfl⟩ | ⟨_, _, _, -, -, -, rfl⟩ |
    ⟨_, _, _, -, -, -, rfl⟩ <;> rfl

/-- An enable that is the same afterwards stays set, and was not set by the step. -/
theorem stays_set_of_eq {a b : Bool} {P : Prop} (h : b = a) : (a = true → b = true) ∧ (a = false → b = true → P) := by
  subst h
  exact ⟨id, fun h0 h1 => absurd (h0.symm.trans h1) Bool.false_ne_true⟩

/-- Settles O25: only a command writes an enable, and of the commands only PWM.START, which sets it. -/
theorem enableIsSetByStartAndClearedByResetOnly : Obligations.EnableIsSetByStartAndClearedByResetOnly := by
  unfold Obligations.EnableIsSetByStartAndClearedByResetOnly
  intro s t trn c htrn h
  rw [step_give] at h
  cases trn with
  | reset => exact absurd rfl htrn
  | host =>
    cases hostTurn_enableEffect h with
    | same hen => exact stays_set_of_eq (hen c)
    | start p pin init w rest hpin hp hhost hw hset hkept =>
      by_cases hc : c = s.chanOf p
      · subst hc
        exact ⟨fun _ => hset, fun _ _ => ⟨rfl, w, rest, pin, init, p, hpin, hp, hhost, hw, rfl⟩⟩
      · exact stays_set_of_eq (hkept c hc)
  | sequencer => exact stays_set_of_eq (congrArg Channel.en (State.chan_congr (sequencerTurn_pwm h) c))
  | shifter i =>
    cases h
    exact stays_set_of_eq rfl
  | counter d =>
    cases h
    exact stays_set_of_eq (State.chan_setChan_field Channel.en (Channel.tick_en (s.chan d)) c)

/-! ### The counter (R129) -/

/-- A channel that differs in its counter only. -/
def Channel.withCtr (ch : Channel) (n : Nat) : Channel := { ch with ctr := BitVec.ofNat 16 n }

@[simp] theorem Channel.withCtr_en (ch : Channel) (n : Nat) : (ch.withCtr n).en = ch.en := rfl

@[simp] theorem Channel.withCtr_cmp (ch : Channel) (x : Slice) (n : Nat) : (ch.withCtr n).cmp x = ch.cmp x := by
  cases x <;> rfl

theorem Channel.toNat_withCtr_ctr {ch : Channel} {n : Nat} (h : n ≤ ch.top.value.toNat) :
    (ch.withCtr n).ctr.toNat = n :=
  Nat.mod_eq_of_lt (h.trans_lt ch.top.value.isLt)

theorem Channel.withCtr_ctr (ch : Channel) : ch.withCtr ch.ctr.toNat = ch := by
  simp [withCtr]

theorem Channel.tick_wrap {ch : Channel} (hen : ch.en = true) (h : ch.top.value.toNat ≤ ch.ctr.toNat) :
    ch.tick = ch.withCtr 0 := by
  simp [tick, hen, h, withCtr]

theorem Channel.tick_count {ch : Channel} (hen : ch.en = true) (h : ch.ctr.toNat < ch.top.value.toNat) :
    ch.tick = ch.withCtr (ch.ctr.toNat + 1) := by
  simp [tick, hen, Nat.not_le_of_lt h, withCtr, BitVec.ofNat_add]

/-- A tick changes the counter at most. -/
theorem Channel.tick_eq (ch : Channel) : ch.tick = { ch with ctr := ch.tick.ctr } := by
  unfold Channel.tick
  split <;> [split; skip] <;> rfl

theorem ExecEffect.ctr {i : Instr} {s t : State} (he : ExecEffect s i t) (c : Chan) :
    (t.chan c).ctr = (s.chan c).ctr := by
  cases he with
  | pwmStart p => exact State.chan_setChan_field Channel.ctr (Channel.start_ctr _ _ _ _) c
  | pwmSet p => exact (setCmpreg_onlyCompare s p _).2.2 c
  | pwmSetp p hpin hp raw => exact (setCmpreg_onlyCompare s p raw).2.2 c
  | pwmSetpDrawn p => exact (setCmpreg_onlyCompare s.takeDraw p _).2.2 c
  | _ => rfl

/-- Settles O26, from the two cases of a tick; a command writes compare registers, tops and enables only. -/
theorem counterCountsToTopAndWraps : Obligations.CounterCountsToTopAndWraps := by
  unfold Obligations.CounterCountsToTopAndWraps
  refine ⟨fun s c => ?_, fun i s t c h => (exec_effect h).ctr c⟩
  have hchan : (s.setChan c (s.chan c).tick).chan c = (s.chan c).tick := State.chan_setChan_same _ _ _
  refine ⟨s.setChan c (s.chan c).tick, rfl, rfl, fun d hd => State.chan_setChan_ne _ _ hd, ?_⟩
  rw [hchan]
  refine ⟨Channel.tick_eq _, fun hoff => ?_, fun hen hwrap => ?_, fun hen hcount => ?_⟩
  · rw [Channel.tick_of_disabled hoff]
  · rw [Channel.tick_wrap hen hwrap]
    rfl
  · rw [Channel.tick_count hen hcount, Channel.toNat_withCtr_ctr hcount]

/-! ### Whole periods (R130, R131) -/

/-- A running counter counts modulo the period. -/
theorem Channel.tick_withCtr {ch : Channel} (hen : ch.en = true) {n : Nat} (hn : n < ch.period) :
    (ch.withCtr n).tick = ch.withCtr ((n + 1) % ch.period) := by
  have htop : n ≤ ch.top.value.toNat := Nat.le_of_lt_succ hn
  have hctr : (ch.withCtr n).ctr.toNat = n := toNat_withCtr_ctr htop
  rcases Nat.eq_or_lt_of_le htop with heq | hlt
  · have hperiod : n + 1 = ch.period := congrArg (· + 1) heq
    rw [tick_wrap (ch := ch.withCtr n) hen (heq.ge.trans_eq hctr.symm), hperiod, Nat.mod_self]
    rfl
  · have hnext : (n + 1) % ch.period = n + 1 := Nat.mod_eq_of_lt (Nat.succ_lt_succ hlt)
    rw [tick_count (ch := ch.withCtr n) hen (hctr.trans_lt hlt), hctr, hnext]
    rfl

section
variable {ch : Channel} (hen : ch.en = true) (hctr : ch.ctr.toNat ≤ ch.top.value.toNat)
include hen hctr

theorem Channel.iterate_tick (k : Nat) : Channel.tick^[k] ch = ch.withCtr ((ch.ctr.toNat + k) % ch.period) := by
  induction k with
  | zero =>
    have hmod : (ch.ctr.toNat + 0) % ch.period = ch.ctr.toNat := Nat.mod_eq_of_lt (Nat.lt_succ_of_le hctr)
    rw [hmod, Channel.withCtr_ctr, Function.iterate_zero_apply]
  | succ k ih =>
    rw [Function.iterate_succ_apply', ih, Channel.tick_withCtr hen (Nat.mod_lt _ (Nat.succ_pos _)), Nat.mod_add_mod,
      Nat.add_assoc]

theorem Channel.iterate_tick_period : Channel.tick^[ch.period] ch = ch := by
  have hmod : (ch.ctr.toNat + ch.period) % ch.period = ch.ctr.toNat :=
    (Nat.add_mod_right _ _).trans (Nat.mod_eq_of_lt (Nat.lt_succ_of_le hctr))
  rw [Channel.iterate_tick hen hctr, hmod, Channel.withCtr_ctr]

/-- The output after `k` ticks: the count is below the compare value. -/
theorem Channel.out_iterate_tick (x : Slice) (k : Nat) :
    (Channel.tick^[k] ch).out x = decide ((ch.ctr.toNat + k) % ch.period < (ch.cmp x).value.toNat) := by
  have hle : (ch.ctr.toNat + k) % ch.period ≤ ch.top.value.toNat := Nat.le_of_lt_succ (Nat.mod_lt _ (Nat.succ_pos _))
  rw [Channel.iterate_tick hen hctr, Channel.out, Channel.withCtr_en, hen, Channel.withCtr_cmp,
    Channel.toNat_withCtr_ctr hle, Bool.true_and]

end

/-- Over a whole period it does not matter where the count begins. -/
theorem count_add_of_periodic {p : Nat → Prop} [DecidablePred p] {n : Nat} (h : Function.Periodic p n) (a : Nat) :
    Nat.count (fun k => p (a + k)) n = Nat.count p n := by
  have hfront := Nat.count_add p a n
  have hback : Nat.count p (a + n) = Nat.count p a + Nat.count p n := by simpa only [h _] using Nat.count_add' p a n
  omega

theorem count_lt_eq_min (m n : Nat) : Nat.count (· < m) n = min m n := by
  induction n with
  | zero => simp
  | succ n ih =>
    rw [Nat.count_succ, ih]
    split <;> omega

/-- The remainders modulo `n` below `m`, in any `n` successive numbers. -/
theorem count_mod_lt (a m n : Nat) : Nat.count (fun k => (a + k) % n < m) n = min m n := by
  have hperiodic : Function.Periodic (fun k => k % n < m) n := fun k => by simp
  rw [count_add_of_periodic hperiodic, ← count_lt_eq_min]
  exact List.countP_congr fun k hk => by simp [Nat.mod_eq_of_lt (List.mem_range.1 hk)]

theorem Channel.duty_of_enabled {ch : Channel} (hen : ch.en = true) (x : Slice) :
    ch.duty x = (min (ch.cmp x).value.toNat ch.period : Nat) / (ch.period : Rat) := by
  rw [Channel.duty, Channel.highTicks, if_pos hen, Channel.period]

/-- Settles O27: over a period the counter takes every count once. -/
theorem dutyIsTheShareOfHighTicks : Obligations.DutyIsTheShareOfHighTicks := by
  unfold Obligations.DutyIsTheShareOfHighTicks
  refine fun ch x => ⟨fun hen hctr => ⟨?_, Channel.iterate_tick_period hen hctr, ?_⟩, fun hoff => ?_⟩
  · simp only [Channel.out_iterate_tick hen hctr]
    exact count_mod_lt _ _ _
  · rw [Channel.duty_of_enabled hen, Channel.period]
    push_cast
    rfl
  · simp [Channel.out, Channel.duty, Channel.highTicks, hoff]

/-- Settles O28: every count is at most `TOP`. -/
theorem compareAboveTopSaturates : Obligations.CompareAboveTopSaturates := by
  unfold Obligations.CompareAboveTopSaturates
  intro ch x k hen hctr hcmp
  have hperiod : ch.period ≤ (ch.cmp x).value.toNat := hcmp
  constructor
  · rw [Channel.out_iterate_tick hen hctr, decide_eq_true_iff]
    exact (Nat.mod_lt _ (Nat.succ_pos _)).trans_le hperiod
  · rw [Channel.duty_of_enabled hen, Nat.min_eq_right hperiod]
    exact div_self (Nat.cast_ne_zero.2 (Nat.succ_ne_zero _))

end Sys2Proof.Machine
end

/-! # PWM.SETP (R126, R127)

Every Float the scaling meets is a value of the format, so subtracting 0, dividing by 1 and adding 0 round nothing and
change at most the sign of a zero (`SameNumber`), which truncation does not see. What is left of R126 is one product. With
the default format and `PWM_TOP` the product is by a power of two, and exact below the overflow threshold. -/

section
namespace Sys2Proof.Machine.Flt

/-! ### The Floats of a format -/

/-- A Float that the format can hold. -/
def OfFormat (f : FloatFormat) : Flt → Prop
  | nan | inf _ => True
  | fin _ m => IsValue f m

/-- The overflow threshold in terms of the largest spacing. -/
theorem overflow_eq (f : FloatFormat) : overflow f = 2 ^ (f.fracWidth + 1) * 2 ^ (bias f - 1 + bias f) := by
  unfold overflow unit
  rw [← Nat.pow_add, ← Nat.pow_add]
  congr 1
  omega

theorem isValue_of_exponent_le {f : FloatFormat} {k e : Nat} (hk : k < 2 ^ (f.fracWidth + 1))
    (he : e ≤ bias f - 1 + bias f) : IsValue f (k * 2 ^ e) := by
  refine isValue_of_lt hk ?_
  rw [overflow_eq]
  exact Nat.mul_lt_mul_of_lt_of_le hk (Nat.pow_le_pow_right Nat.two_pos he) (Nat.two_pow_pos _)

theorem isValue_of_le {f : FloatFormat} {k e : Nat} (hk : k ≤ 2 ^ (f.fracWidth + 1)) (ho : k * 2 ^ e < overflow f) :
    IsValue f (k * 2 ^ e) := by
  rcases Nat.lt_or_eq_of_le hk with hlt | rfl
  · exact isValue_of_lt hlt ho
  · rw [← Nat.pow_add, ← Nat.one_mul (2 ^ _)] at ho ⊢
    exact isValue_of_lt (Nat.one_lt_two_pow (Nat.succ_ne_zero _)) ho

theorem isValue_largest (f : FloatFormat) : IsValue f (largest f) := by
  have hspacing : unit f * 2 ^ bias f / 2 ^ f.fracWidth = 2 ^ (bias f - 1 + bias f) := by
    refine Nat.div_eq_of_eq_mul_right (Nat.two_pow_pos _) ?_
    unfold unit
    rw [← Nat.pow_add, ← Nat.pow_add]
    congr 1
    omega
  have hlargest : largest f = (2 ^ (f.fracWidth + 1) - 1) * 2 ^ (bias f - 1 + bias f) := by
    rw [largest, hspacing, overflow_eq, Nat.sub_one_mul]
  rw [hlargest]
  exact isValue_of_exponent_le (Nat.sub_lt (Nat.two_pow_pos _) Nat.one_pos) le_rfl

theorem isValue_roundMag {f : FloatFormat} {neg : Bool} {num den : Nat} (h : roundMag f neg num den < overflow f) :
    IsValue f (roundMag f neg num den) := by
  have hcount := lowCount_lt f num den
  refine isValue_of_le (e := lowExponent f num den) ?_ h
  split
  · exact hcount
  · exact hcount.le

theorem overflowed_ofFormat (f : FloatFormat) (neg : Bool) : OfFormat f (overflowed f neg) := by
  unfold overflowed
  cases f.rounding <;> cases neg <;> simp [OfFormat, isValue_largest f]

/-- Rounding answers a Float of the format, in every direction. -/
theorem round_ofFormat (f : FloatFormat) (neg : Bool) (num den : Nat) : OfFormat f (round f neg num den) := by
  unfold round
  split
  · exact overflowed_ofFormat f neg
  split
  · exact overflowed_ofFormat f neg
  · rename_i h
    exact isValue_roundMag (Nat.lt_of_not_le h)

theorem ofNat_ofFormat (f : FloatFormat) (n : Nat) : OfFormat f (ofNat f n) := round_ofFormat _ _ _ _

theorem mul_ofFormat (f : FloatFormat) (x y : Flt) : OfFormat f (mul f x y) := by
  cases x <;> cases y
  case fin.fin => exact round_ofFormat _ _ _ _
  case inf.fin => rw [mul]; split <;> exact trivial
  case fin.inf => rw [mul]; split <;> exact trivial
  all_goals exact trivial

/-! ### The fields of a bit pattern (R93) -/

theorem ofBits_eq_fieldsValue (f : FloatFormat) (b : Word) :
    ofBits f b = fieldsValue f (b.getLsbD (f.expWidth + f.fracWidth)) (b.toNat / 2 ^ f.fracWidth % 2 ^ f.expWidth)
      (b.toNat % 2 ^ f.fracWidth) := rfl

theorem two_pow_expWidth {f : FloatFormat} (h : 2 ≤ f.expWidth) : 1 ≤ bias f ∧ 2 ^ f.expWidth = 2 * bias f + 2 := by
  obtain ⟨n, hn⟩ := Nat.exists_eq_add_of_le' h
  have hpos := Nat.two_pow_pos n
  have hbias : bias f = 2 ^ n * 2 - 1 := by rw [bias, hn, ← Nat.pow_succ]; rfl
  rw [hbias, hn, Nat.pow_succ, Nat.pow_succ]
  omega

theorem fieldsValue_ofFormat {f : FloatFormat} (h : 2 ≤ f.expWidth) (neg : Bool) {e m : Nat} (he : e < 2 ^ f.expWidth)
    (hm : m < 2 ^ f.fracWidth) : OfFormat f (fieldsValue f neg e m) := by
  obtain ⟨hbias, hpow⟩ := two_pow_expWidth h
  have hfrac : 2 ^ (f.fracWidth + 1) = 2 ^ f.fracWidth * 2 := Nat.pow_succ ..
  unfold fieldsValue
  split
  · split <;> exact trivial
  split
  · show IsValue f m
    simpa using isValue_of_exponent_le (k := m) (e := 0) (by omega) (Nat.zero_le _)
  · exact isValue_of_exponent_le (by omega) (by omega)

theorem ofBits_ofFormat {f : FloatFormat} (h : 2 ≤ f.expWidth) (b : Word) : OfFormat f (ofBits f b) := by
  rw [ofBits_eq_fieldsValue]
  exact fieldsValue_ofFormat h _ (Nat.mod_lt _ (Nat.two_pow_pos _)) (Nat.mod_lt _ (Nat.two_pow_pos _))

/-- A pattern put together from a sign, an exponent and a fraction stands for their value. -/
theorem ofBits_fields {f : FloatFormat} (hwidth : f.expWidth + f.fracWidth ≤ 31) (neg : Bool) {e m : Nat}
    (he : e < 2 ^ f.expWidth) (hm : m < 2 ^ f.fracWidth) :
    ofBits f (BitVec.ofNat 32 ((neg.toNat * 2 ^ f.expWidth + e) * 2 ^ f.fracWidth + m)) = fieldsValue f neg e m := by
  have hneg := neg.toNat_lt
  have hhigh : neg.toNat * 2 ^ f.expWidth + e < 2 ^ (f.expWidth + 1) := by
    rw [Nat.pow_succ]
    nlinarith
  have hlt : (neg.toNat * 2 ^ f.expWidth + e) * 2 ^ f.fracWidth + m < 2 ^ 32 :=
    calc _ < 2 ^ (f.expWidth + 1) * 2 ^ f.fracWidth := by nlinarith
      _ = 2 ^ (f.expWidth + f.fracWidth + 1) := by rw [← Nat.pow_add]; congr 1; omega
      _ ≤ 2 ^ 32 := Nat.pow_le_pow_right Nat.two_pos (by omega)
  have hfrac : ((neg.toNat * 2 ^ f.expWidth + e) * 2 ^ f.fracWidth + m) / 2 ^ f.fracWidth =
      neg.toNat * 2 ^ f.expWidth + e := by
    rw [Nat.mul_comm, Nat.mul_add_div (Nat.two_pow_pos _), Nat.div_eq_of_lt hm, Nat.add_zero]
  have hexp : (neg.toNat * 2 ^ f.expWidth + e) / 2 ^ f.expWidth = neg.toNat := by
    rw [Nat.mul_comm, Nat.mul_add_div (Nat.two_pow_pos _), Nat.div_eq_of_lt he, Nat.add_zero]
  rw [ofBits_eq_fieldsValue, BitVec.getLsbD_ofNat, BitVec.toNat_ofNat, Nat.mod_eq_of_lt hlt, hfrac,
    Nat.testBit_eq_decide_div_mod_eq, Nat.add_comm f.expWidth, Nat.pow_add, ← Nat.div_div_eq_div_mul, hfrac, hexp,
    Nat.mul_add_mod_self_right, Nat.mul_add_mod_self_right, Nat.mod_eq_of_lt he, Nat.mod_eq_of_lt hm]
  have hsign : (decide (f.fracWidth + f.expWidth < 32) && decide (neg.toNat % 2 = 1)) = neg := by
    have hbit : f.fracWidth + f.expWidth < 32 := by omega
    cases neg <;> simp [hbit]
  rw [hsign]

/-- The exponent equal to the bias stands for 1. -/
theorem fieldsValue_bias {f : FloatFormat} (h : 2 ≤ f.expWidth) : fieldsValue f false (bias f) 0 = ofNat f 1 := by
  obtain ⟨hbias, hpow⟩ := two_pow_expWidth h
  rw [fieldsValue, if_neg (by omega), if_neg (by omega), ofNat_one, unit, Nat.add_zero, ← Nat.pow_add, Nat.add_comm]

/-! ### Equal but for the sign of a zero -/

/-- The same number; the zeros of either sign are one. -/
inductive SameNumber : Flt → Flt → Prop where
  | refl (x : Flt) : SameNumber x x
  | zero (a b : Bool) : SameNumber (fin a 0) (fin b 0)

theorem SameNumber.trans {x y z : Flt} (h : SameNumber x y) (h' : SameNumber y z) : SameNumber x z := by
  cases h with
  | refl => exact h'
  | zero a =>
    cases h' with
    | refl => exact .zero a _
    | zero _ c => exact .zero a c

theorem SameNumber.eq_of_ne_zero {x : Flt} {a : Bool} {m : Nat} (h : SameNumber x (fin a m)) (hm : m ≠ 0) :
    x = fin a m := by
  cases h with
  | refl => rfl
  | zero => exact absurd rfl hm

theorem SameNumber.trunc_eq {x y : Flt} (h : SameNumber x y) (f : FloatFormat) : x.trunc f = y.trunc f := by
  cases h with
  | refl => rfl
  | zero a b => cases a <;> cases b <;> simp [trunc_fin, signed]

theorem mul_inf_fin (f : FloatFormat) (a b : Bool) {n : Nat} (h : n ≠ 0) :
    mul f (inf a) (fin b n) = inf (xor a b) := if_neg h

protected theorem mul_comm (f : FloatFormat) (x y : Flt) : mul f x y = mul f y x := by
  cases x <;> cases y <;> simp [mul, Bool.xor_comm, Nat.mul_comm]

protected theorem add_comm (f : FloatFormat) (x y : Flt) : add f x y = add f y x := by
  have hsign (a b : Bool) : zeroSign f.rounding a b = zeroSign f.rounding b a := by
    cases f.rounding <;> simp [zeroSign, Bool.or_comm, Bool.and_comm]
  cases x <;> cases y
  case inf.inf a b => cases a <;> cases b <;> rfl
  case fin.fin a m b n => rw [add_fin, add_fin, Int.add_comm, hsign]
  all_goals rfl

theorem SameNumber.mul_left {x x' : Flt} (h : SameNumber x x') (f : FloatFormat) (y : Flt) :
    SameNumber (mul f x y) (mul f x' y) := by
  cases h with
  | refl => exact .refl _
  | zero a b =>
    cases y with
    | nan => exact .refl _
    | inf => exact .refl _
    | fin c n =>
      rw [mul_fin, mul_fin, Nat.zero_mul, round_zero f _ (unit_pos f), round_zero f _ (unit_pos f)]
      exact .zero _ _

theorem SameNumber.mul {x x' y y' : Flt} (hx : SameNumber x x') (hy : SameNumber y y') (f : FloatFormat) :
    SameNumber (mul f x y) (mul f x' y') := by
  refine (hx.mul_left f y).trans ?_
  rw [Flt.mul_comm f x', Flt.mul_comm f x']
  exact hy.mul_left f x'

/-! ### Operations that round nothing -/

/-- Adding a zero changes at most the sign of a zero. -/
theorem add_zero_same {f : FloatFormat} {x : Flt} (hx : OfFormat f x) (b : Bool) : SameNumber (add f x (fin b 0)) x := by
  cases x with
  | nan => exact .refl _
  | inf => exact .refl _
  | fin a m =>
    have hzero (c : Bool) : signed c 0 = 0 := signed_of_neg_zero fun _ => rfl
    rw [add_fin, hzero b, Int.add_zero]
    rcases Nat.eq_zero_or_pos m with rfl | hm
    · rw [if_pos (hzero a)]
      exact .zero _ _
    · have hround : round f (decide (signed a m < 0)) (signed a m).natAbs 1 = fin a m := by
        have hsign : decide (signed a m < 0) = a := by cases a <;> simp [signed, hm]
        have hmag : (signed a m).natAbs = m * 1 := by cases a <;> simp [signed]
        rw [hsign, hmag, IsValue.round_mul hx a Nat.one_pos]
      have hne : signed a m ≠ 0 := by cases a <;> simp [signed, hm.ne']
      rw [if_neg hne, hround]
      exact .refl _

theorem sub_zero_same {f : FloatFormat} {x : Flt} (hx : OfFormat f x) : SameNumber (sub f x (ofNat f 0)) x := by
  rw [ofNat_zero]
  exact add_zero_same hx true

theorem zero_add_same {f : FloatFormat} {x : Flt} (hx : OfFormat f x) : SameNumber (add f (ofNat f 0) x) x := by
  rw [ofNat_zero, Flt.add_comm]
  exact add_zero_same hx false

theorem one_sub_zero (f : FloatFormat) : sub f (ofNat f 1) (ofNat f 0) = fin false (unit f) := by
  have h := sub_zero_same (ofNat_ofFormat f 1)
  rw [ofNat_one] at h ⊢
  exact h.eq_of_ne_zero (unit_pos f).ne'

theorem div_unit {f : FloatFormat} {x : Flt} (hx : OfFormat f x) : div f x (fin false (unit f)) = x := by
  cases x with
  | nan => rfl
  | inf a => cases a <;> rfl
  | fin a m => rw [div_fin f a false m (unit_pos f).ne', Bool.xor_false, IsValue.round_mul hx a (unit_pos f)]

end Sys2Proof.Machine.Flt

namespace Sys2Proof.Machine

open Flt

/-! ### The scaling (R126) -/

/-- The scaling of a Float of the format is its product with `PWM_TOP`. -/
theorem scalePercent_same (c : Config) {x : Flt} (hx : OfFormat c.floatFormat x) :
    ∃ y, scalePercent c x = .ok y ∧ SameNumber y (x.mul c.floatFormat (.ofNat c.floatFormat c.pwmTop.toNat)) := by
  have hproduct := mul_ofFormat c.floatFormat (x.sub c.floatFormat (.ofNat c.floatFormat 0))
    ((ofNat c.floatFormat c.pwmTop.toNat).sub c.floatFormat (.ofNat c.floatFormat 0))
  refine ⟨_, by unfold scalePercent rescaleFlt; rw [one_ne_zero, one_sub_zero, div_unit hproduct]; rfl, ?_⟩
  exact (zero_add_same hproduct).trans ((sub_zero_same hx).mul (sub_zero_same (ofNat_ofFormat _ _)) _)

theorem toU16_eq_compareOf (c : Config) (x : Flt) : toU16 c x = compareOf (x.trunc c.floatFormat) := by
  unfold toU16 compareOf
  cases x.trunc c.floatFormat <;> rfl

/-- The product that PWM.SETP truncates, as a compare value. -/
def percentProduct (c : Config) (b : Word) : Option Half :=
  compareOf (((ofBits c.floatFormat b).mul c.floatFormat (.ofNat c.floatFormat c.pwmTop.toNat)).trunc c.floatFormat)

theorem scalePercent_compare {c : Config} (h : 2 ≤ c.floatFormat.expWidth) (b : Word) :
    ∃ y, scalePercent c (ofBits c.floatFormat b) = .ok y ∧ toU16 c y = percentProduct c b := by
  obtain ⟨y, hy, hsame⟩ := scalePercent_same c (ofBits_ofFormat h b)
  exact ⟨y, hy, by rw [toU16_eq_compareOf, hsame.trunc_eq, percentProduct]⟩

section
variable {s : State} {pin : BitVec 5} {p : Pin} (hfloat : 2 ≤ s.cfg.floatFormat.expWidth) (hp : pinOf s.cfg pin = some p)
include hfloat hp

theorem exec_pwmSetp {raw : Half} (h : percentProduct s.cfg s.arg0 = some raw) :
    exec (.pwmSetp pin) s = .next (succeeded (s.setCmpreg p raw)) := by
  obtain ⟨y, hy, hcompare⟩ := scalePercent_compare hfloat s.arg0
  rw [← complete_ok_eq_succeeded]
  simp only [exec, execPwmSetp, hp, State.percent, hy, hcompare, h]

theorem exec_pwmSetp_drawn (h : percentProduct s.cfg s.arg0 = none) :
    exec (.pwmSetp pin) s = .next (succeeded (s.takeDraw.setCmpreg p (Config.freeCompare s.draws))) := by
  obtain ⟨y, hy, hcompare⟩ := scalePercent_compare hfloat s.arg0
  rw [← complete_ok_eq_succeeded]
  simp only [exec, execPwmSetp, hp, State.percent, hy, hcompare, h]

end

/-! ### The default format and `PWM_TOP` -/

theorem ofNat_top : ofNat .binary32 0x8000 = fin false (2 ^ 15 * unit .binary32) := by
  rw [ofNat_eq_grid (by decide)]
  rfl

theorem compareOf_signed (neg : Bool) (t : Nat) : compareOf (some (signed neg t)) =
    if 65535 < t ∨ (neg = true ∧ 0 < t) then none else some (BitVec.ofNat 16 t) := by
  have hrange : (0 ≤ signed neg t ∧ signed neg t ≤ 65535) ↔ ¬(65535 < t ∨ (neg = true ∧ 0 < t)) := by
    cases neg
    · simp only [signed_false, Bool.false_eq_true, false_and, or_false]
      omega
    · simp only [signed_true, true_and]
      omega
  by_cases h : 65535 < t ∨ (neg = true ∧ 0 < t)
  · rw [if_pos h, compareOf, if_neg fun hin => hrange.1 hin h]
  · have hsigned : signed neg t = t :=
      signed_of_neg_zero fun hneg => Nat.eq_zero_of_not_pos fun ht => h (.inr ⟨hneg, ht⟩)
    rw [if_neg h, compareOf, if_pos (hrange.2 h), hsigned, Int.toNat_natCast]

/-- A finite binary32 number times `0x8000`, truncated, if it is a `u16`: the product is exact up to the overflow
threshold, which is no `u16` any more. -/
theorem compareOf_mul_top (neg : Bool) {k : Nat} (e : Nat) (hk : k < 2 ^ 24) :
    compareOf (((fin neg (k * 2 ^ e)).mul .binary32 (.ofNat .binary32 0x8000)).trunc .binary32) =
      if 65535 < k * 2 ^ (e + 1) / 2 ^ 135 ∨ (neg = true ∧ 0 < k * 2 ^ (e + 1) / 2 ^ 135) then none
      else some (BitVec.ofNat 16 (k * 2 ^ (e + 1) / 2 ^ 135)) := by
  have hmul : (fin neg (k * 2 ^ e)).mul .binary32 (.ofNat .binary32 0x8000) =
      Flt.round .binary32 neg (k * 2 ^ (e + 15) * unit .binary32) (unit .binary32) := by
    have hnum (u : Nat) : k * 2 ^ e * (2 ^ 15 * u) = k * 2 ^ (e + 15) * u := by ring
    rw [ofNat_top, mul_fin, Bool.xor_false, hnum]
  have ht : k * 2 ^ (e + 15) / unit .binary32 = k * 2 ^ (e + 1) / 2 ^ 135 := by
    have hnum : k * 2 ^ (e + 15) = k * 2 ^ (e + 1) * 2 ^ 14 := by ring
    have hden : unit .binary32 = 2 ^ 135 * 2 ^ 14 := rfl
    rw [hnum, hden, Nat.mul_div_mul_right _ _ (Nat.two_pow_pos 14)]
  rw [hmul, ← ht, ← compareOf_signed]
  rcases Nat.lt_or_ge (k * 2 ^ (e + 15)) (overflow .binary32) with hlt | hge
  · have hvalue : IsValue .binary32 (k * 2 ^ (e + 15)) := isValue_of_lt hk hlt
    rw [hvalue.round_mul neg (unit_pos _), trunc_fin]
  · have hround : Flt.round .binary32 neg (k * 2 ^ (e + 15) * unit .binary32) (unit .binary32) = inf neg := by
      rw [Flt.round, Nat.mul_div_cancel _ (unit_pos _), if_pos hge]
      rfl
    have hlarge : 2 ^ 128 ≤ k * 2 ^ (e + 15) / unit .binary32 := by
      rw [Nat.le_div_iff_mul_le (unit_pos _), Nat.mul_comm]
      exact hge
    rw [hround, compareOf_signed, if_pos (.inl (by omega))]
    rfl

/-- The infinities and NaN give no compare value. -/
theorem compareOf_mul_top_special (neg : Bool) (m : Nat) :
    compareOf (((fieldsValue .binary32 neg 255 m).mul .binary32 (.ofNat .binary32 0x8000)).trunc .binary32) = none := by
  have hvalue : fieldsValue .binary32 neg 255 m = if m = 0 then inf neg else nan := rfl
  have hinf : (inf neg).mul .binary32 (.ofNat .binary32 0x8000) = inf neg := by
    rw [ofNat_top, mul_inf_fin _ _ _ (Nat.mul_pos (Nat.two_pow_pos 15) (unit_pos _)).ne', Bool.xor_false]
  rw [hvalue]
  split
  · rw [hinf]
    rfl
  · rfl

/-- The value of the fields of a finite binary32 number, and twice that value as `percentCompare` writes it. -/
theorem fieldsValue_binary32 (neg : Bool) {e m : Nat} (he : e ≠ 255) (hm : m < 2 ^ 23) : ∃ k e', k < 2 ^ 24 ∧
    fieldsValue .binary32 neg e m = fin neg (k * 2 ^ e') ∧
    (if e = 0 then 2 * m else (2 ^ 23 + m) * 2 ^ e) = k * 2 ^ (e' + 1) := by
  have hspecial : ¬ e = 2 ^ FloatFormat.binary32.expWidth - 1 := he
  rw [fieldsValue, if_neg hspecial]
  cases e with
  | zero => exact ⟨m, 0, by omega, by rw [if_pos rfl, Nat.pow_zero, Nat.mul_one], Nat.mul_comm _ _⟩
  | succ e => exact ⟨2 ^ 23 + m, e, by omega, if_neg (Nat.succ_ne_zero e), if_neg (Nat.succ_ne_zero e)⟩

/-- R93's fields give the product exactly (R126 (c)). -/
theorem percentCompare_eq {c : Config} (hformat : c.floatFormat = .binary32) (htop : c.pwmTop = 0x8000#16) (b : Word) :
    percentCompare b = percentProduct c b := by
  have he : (b.extractLsb' 23 8).toNat = b.toNat / 2 ^ 23 % 2 ^ 8 := by
    rw [BitVec.extractLsb'_toNat, Nat.shiftRight_eq_div_pow]
  have hm : (b.extractLsb' 0 23).toNat = b.toNat % 2 ^ 23 := BitVec.extractLsb'_toNat ..
  have hmlt := (b.extractLsb' 0 23).isLt
  have hproduct : percentProduct c b = compareOf (((fieldsValue .binary32 (b.getLsbD 31) (b.extractLsb' 23 8).toNat
      (b.extractLsb' 0 23).toNat).mul .binary32 (.ofNat .binary32 0x8000)).trunc .binary32) := by
    rw [percentProduct, hformat, htop, ofBits_eq_fieldsValue, he, hm]
    rfl
  rw [hproduct, percentCompare]
  generalize (b.extractLsb' 23 8).toNat = e
  generalize (b.extractLsb' 0 23).toNat = m at hmlt
  by_cases hspecial : e = 255
  · subst hspecial
    rw [if_pos (.inl rfl), compareOf_mul_top_special]
  · obtain ⟨k, e', hk, hvalue, hdouble⟩ := fieldsValue_binary32 (b.getLsbD 31) hspecial hmlt
    rw [hvalue, compareOf_mul_top _ _ hk, hdouble]
    simp only [hspecial, false_or]

/-- Settles O24: the scaling comes to one product, whose truncation is written if it is a `u16`; with the defaults that is
`percentCompare`. -/
theorem pwmSetpWritesTheTruncatedPercentage : Obligations.PwmSetpWritesTheTruncatedPercentage := by
  unfold Obligations.PwmSetpWritesTheTruncatedPercentage
  refine ⟨fun pin s => ⟨fun h => exec_badPin (by simpa [Instr.wellFormed] using h) rfl, fun p hpin hp c hc => ?_⟩,
    ⟨rfl, rfl, rfl, rfl, rfl⟩, fun c hc => ⟨fun neg e m he hm => ofBits_fields hc.float_width neg he hm,
      fieldsValue_bias hc.float_exponent⟩⟩
  have hpin' : pinOf s.cfg pin = some p := pinOf_eq_some.2 ⟨hpin.symm, hp⟩
  obtain ⟨hfloat, hproduct⟩ : 2 ≤ s.cfg.floatFormat.expWidth ∧ c = percentProduct s.cfg s.arg0 := by
    rcases hc with ⟨hformat, htop, rfl⟩ | ⟨hlegal, rfl⟩
    · exact ⟨by rw [hformat]; decide, percentCompare_eq hformat htop s.arg0⟩
    · exact ⟨hlegal.float_exponent, rfl⟩
  refine ⟨fun raw hraw => ?_, fun hnone => ?_⟩
  · exact ⟨_, exec_pwmSetp hfloat hpin' (hproduct.symm.trans hraw), rfl, setCmpreg_onlyCompare s p raw,
      setCmpreg_sameEnableAndTop s p raw⟩
  · exact ⟨_, _, exec_pwmSetp_drawn hfloat hpin' (hproduct.symm.trans hnone), rfl,
      setCmpreg_onlyCompare s.takeDraw p _, setCmpreg_sameEnableAndTop s.takeDraw p _⟩

end Sys2Proof.Machine
end

/-! # The SPI unit: its commands, its shifters and its invariant (43_spi_clock.md)

A shifter has one equation per step of R155. The invariant of a port is kept by each write there is of a port, and the
room the FIFOs have (`State.SeqInv`) by everything that lengthens none of them (`State.SeqInv.mono`), so what is left of
a step is the send loop: it pushes where there is room and then waits. -/

section
namespace Sys2Proof.Machine

/-! ### The solver (R143 to R146, R160) -/

/-- R143: the last value the first scan tries is 254, so it finds nothing exactly from 65536 times the baud rate on. -/
theorem solvePrescale_eq_none_iff (clk baud : Nat) : solvePrescale clk baud = none ↔ 65536 * baud ≤ clk := by
  constructor
  · intro h
    have hlast := scanPrescale_none h 126 (by decide)
    omega
  · intro h
    cases hq : solvePrescale clk baud with
    | none => rfl
    | some q =>
      obtain ⟨-, hmax, -⟩ := solvePrescale_range hq
      obtain ⟨-, -, -, haccept, -⟩ := scanPrescale_some hq
      have hle : (q + 2) * 256 * baud ≤ 65536 * baud := Nat.mul_le_mul_right _ (by omega)
      omega

theorem packDivider_eq_ofNat {q d : Nat} (hq : q ≤ 255) (hd : d ≤ 255) :
    packDivider q d = BitVec.ofNat 32 (q * 256 + d) := by
  apply BitVec.eq_of_toNat_eq
  rw [toNat_packDivider hq hd, BitVec.toNat_ofNat]
  omega

theorem exec_spiSolve_unreachable {s : State} (h : solvePrescale s.arg0.toNat s.arg1.toNat = none) :
    exec .spiSolve s = .next (failed s .unreachableBaudRate) := by
  rw [← complete_eq_failed s (by decide)]
  simp only [exec, execSpiSolve, h]

theorem exec_spiSolve_found {s : State} {q : Nat} (h : solvePrescale s.arg0.toNat s.arg1.toNat = some q) :
    exec .spiSolve s =
      .next (succeeded (s.setRet0 (packDivider q (solvePostdiv s.arg0.toNat s.arg1.toNat q)))) := by
  rw [← complete_ok_eq_succeeded]
  simp only [exec, execSpiSolve, h]

/-- Settles O30: the two scans answer the first value they accept, in their order, and reject all those before it. -/
theorem solveFindsTheLeastPrescaleAndGreatestPostdiv : Obligations.SolveFindsTheLeastPrescaleAndGreatestPostdiv := by
  unfold Obligations.SolveFindsTheLeastPrescaleAndGreatestPostdiv
  intro s
  refine ⟨fun h => exec_spiSolve_unreachable ((solvePrescale_eq_none_iff _ _).2 h), fun h => ?_⟩
  cases hq : solvePrescale s.arg0.toNat s.arg1.toNat with
  | none => exact absurd ((solvePrescale_eq_none_iff _ _).1 hq) (Nat.not_le_of_lt h)
  | some q =>
    obtain ⟨hmin, hmax, heven⟩ := solvePrescale_range hq
    obtain ⟨-, -, -, haccept, hreject⟩ := scanPrescale_some hq
    obtain ⟨hd, hdaccept, hdreject⟩ := scanPostdiv_spec s.arg0.toNat s.arg1.toNat q 255
    refine ⟨q, solvePostdiv s.arg0.toNat s.arg1.toNat q, ?_, heven, hmin, hmax, hd, haccept,
      fun q' he h2 hlt => hreject q' h2 hlt he, hdaccept, fun hlt => hdreject _ (Nat.lt_succ_self _) hlt, by omega⟩
    rw [exec_spiSolve_found hq, packDivider_eq_ofNat (by omega) (solvePostdiv_le _ _ q)]
    rfl

/-! ### SPI.APPLY and SPI.SEND in their own step (R148, R151) -/

theorem selOf_of_val_eq {c : Config} {sel : BitVec 4} {i : SpiIx} (hsel : i.val = sel.toNat) (hi : i.val < c.nSpi) :
    selOf c sel = some i :=
  selOf_eq_some.2 ⟨hsel.symm, hi⟩

/-- Settles O31: the selector is looked up before the divider is checked, and the one write is of the port found. -/
theorem applyWritesTheDivider : Obligations.ApplyWritesTheDivider := by
  unfold Obligations.ApplyWritesTheDivider
  intro sel prescale postdiv s
  refine ⟨fun h => ?_, fun i hsel hi => ⟨fun hbad => ?_, fun hmin heven => ?_⟩⟩
  · rw [← complete_eq_failed s (by decide)]
    simp only [exec, execSpiApply, selOf_eq_none.2 h]
  · have hq : prescaleOk prescale = false := by
      simp only [prescaleOk, Bool.and_eq_false_iff, decide_eq_false_iff_not]
      omega
    rw [← complete_eq_failed s (by decide)]
    simp [exec, execSpiApply, selOf_of_val_eq hsel hi, hq]
  · have hq : prescaleOk prescale = true := by simp [prescaleOk, hmin, heven]
    refine ⟨succeeded (s.setPort i { s.port i with cpsdvsr := prescale, scr := postdiv }), ?_, rfl,
      State.port_setPort_same _ _ _, fun j hj => State.port_setPort_ne _ _ hj⟩
    rw [← complete_ok_eq_succeeded]
    simp only [exec, execSpiApply, selOf_of_val_eq hsel hi, hq, if_true]

section
variable {dss sel : BitVec 4} {count : Half} {s : State}

theorem exec_spiSend_badFrameSize (h : dss.toNat < 3) :
    exec (.spiSend dss sel count) s = .next (failed s .badFrameSize) := by
  have hd : frameSizeOk dss = false := decide_eq_false (Nat.not_le_of_lt h)
  rw [← complete_eq_failed s (by decide)]
  simp [exec, execSpiSend, hd]

theorem frameSizeOk_of_le (h : 3 ≤ dss.toNat) : frameSizeOk dss = true := decide_eq_true h

theorem exec_spiSend_badSelector (hdss : 3 ≤ dss.toNat) (h : s.cfg.nSpi ≤ sel.toNat) :
    exec (.spiSend dss sel count) s = .next (failed s .badSelector) := by
  rw [← complete_eq_failed s (by decide)]
  simp only [exec, execSpiSend, frameSizeOk_of_le hdss, selOf_eq_none.2 h, if_true]

variable {i : SpiIx} (hsel : i.val = sel.toNat) (hi : i.val < s.cfg.nSpi) (hdss : 3 ≤ dss.toNat)
include hsel hi hdss

theorem exec_spiSend_bufferSize (h : s.cfg.bufCap < count.toNat) :
    exec (.spiSend dss sel count) s = .next (failed s .bufferSize) := by
  rw [← complete_eq_failed s (by decide)]
  simp only [exec, execSpiSend, frameSizeOk_of_le hdss, selOf_of_val_eq hsel hi, h, if_true]

/-- A legal SPI.SEND of no word completes. -/
theorem exec_spiSend_nothing (hcount : count.toNat = 0) :
    exec (.spiSend dss sel count) s = .next (succeeded (s.setPort i ((s.port i).configure dss))) := by
  rw [← complete_ok_eq_succeeded]
  simp [exec, execSpiSend, frameSizeOk_of_le hdss, selOf_of_val_eq hsel hi, hcount]

/-- A legal SPI.SEND of some word enters the loop. -/
theorem exec_spiSend_loop (hcap : count.toNat ≤ s.cfg.bufCap) (hcount : 0 < count.toNat) :
    exec (.spiSend dss sel count) s =
      .next ((s.setPort i ((s.port i).configure dss)).setSeq (.sending i count.toNat 0 .push)) := by
  simp only [exec, execSpiSend, frameSizeOk_of_le hdss, selOf_of_val_eq hsel hi, Nat.not_lt_of_le hcap,
    Nat.ne_of_gt hcount, if_true, if_false]

end

/-- Settles O32, in the order of the checks of R205. -/
theorem sendConfiguresThePortAndEntersTheLoop : Obligations.SendConfiguresThePortAndEntersTheLoop := by
  unfold Obligations.SendConfiguresThePortAndEntersTheLoop
  intro dss sel count s
  refine ⟨exec_spiSend_badFrameSize, exec_spiSend_badSelector,
    fun i hsel hi hdss => ⟨exec_spiSend_bufferSize hsel hi hdss, fun hcap => ?_⟩⟩
  have hother (j : SpiIx) (hj : j ≠ i) := State.port_setPort_ne s ((s.port i).configure dss) hj
  rcases Nat.eq_zero_or_pos count.toNat with hcount | hcount
  · exact ⟨_, exec_spiSend_nothing hsel hi hdss hcount, fun _ => rfl, fun hpos => absurd hcount hpos.ne',
      State.port_setPort_same s i _, hother⟩
  · exact ⟨_, exec_spiSend_loop hsel hi hdss hcap hcount, fun h0 => absurd h0 hcount.ne', fun _ => rfl,
      State.port_setPort_same s i _, hother⟩

/-! ### The steps of a shifter (R155, R156) -/

section
variable {p : SpiPort}

theorem SpiPort.clocked_iff : p.clocked = true ↔ p.sse = true ∧ p.mstr = true ∧ 2 ≤ p.cpsdvsr.toNat := by
  simp only [SpiPort.clocked, Bool.and_eq_true, decide_eq_true_eq, and_assoc]

theorem SpiPort.clocked_eq_false_of_cpsdvsr (h : p.cpsdvsr = 0#8) : p.clocked = false := by
  rw [Bool.eq_false_iff, ne_eq, SpiPort.clocked_iff, h]
  exact fun hc => absurd hc.2.2 (by decide)

theorem SpiPort.shifterStep_load (hc : p.clocked = true) (hsh : p.sh = .empty) {w : Half} {rest : List Half}
    (hfifo : p.fifo = w :: rest) :
    p.shifterStep = { p with fifo := rest, sh := .holding w p.dss.toNat 0 } := by
  simp only [SpiPort.shifterStep, hc, hsh, SpiPort.load, SpiPort.fifoPop, hfifo, if_true]

theorem SpiPort.shifterStep_idle (hsh : p.sh = .empty) (hfifo : p.fifo = []) : p.shifterStep = p := by
  simp [SpiPort.shifterStep, hsh, SpiPort.load, SpiPort.fifoPop, hfifo]

theorem SpiPort.shifterStep_shift (hc : p.clocked = true) {w : Half} {n sent : Nat} (hsh : p.sh = .holding w n sent)
    (hsent : sent < n) :
    p.shifterStep = { p with sdo := w.getLsbD (n - 1 - sent), sh := .holding w n (sent + 1) } := by
  simp only [SpiPort.shifterStep, hc, hsh, SpiPort.shift, hsent, if_true]

theorem SpiPort.shifterStep_finish (hc : p.clocked = true) {w : Half} {n : Nat} (hsh : p.sh = .holding w n n) :
    p.shifterStep =
      { p with
        txlog := p.txlog ++ [⟨n, lowBits n w⟩], sh := .empty, sdo := p.sdo && decide (0 < p.fifo.length) } := by
  simp only [SpiPort.shifterStep, hc, hsh, SpiPort.shift, Nat.lt_irrefl, if_true, if_false]
  rfl

/-- A shifter writes its own FIFO, shifter, line and log only. -/
theorem SpiPort.shifterStep_frame (p : SpiPort) :
    p.shifterStep = { p with
      fifo := p.shifterStep.fifo, sh := p.shifterStep.sh, sdo := p.shifterStep.sdo, txlog := p.shifterStep.txlog } := by
  rcases p.shifterStep_cases with h | ⟨-, _, _, -, -, h⟩ | ⟨-, _, _, _, -, -, h⟩ | ⟨-, _, _, -, h⟩ <;> rw [h]

end

/-- Settles O34, by the equations of a shifter's steps. -/
theorem shifterLoadsShiftsAndLogs : Obligations.ShifterLoadsShiftsAndLogs := by
  unfold Obligations.ShifterLoadsShiftsAndLogs
  intro s i
  refine ⟨s.setPort i (s.port i).shifterStep, rfl, rfl, fun j hj => State.port_setPort_ne _ _ hj, ?_⟩
  rw [State.port_setPort_same]
  refine ⟨SpiPort.shifterStep_frame _, fun hoff => SpiPort.shifterStep_stopped ?_, fun hsse hmstr hdiv => ?_⟩
  · rw [Bool.eq_false_iff, ne_eq, SpiPort.clocked_iff]
    rintro ⟨hsse, hmstr, hdiv⟩
    simp [hsse, hmstr, Nat.not_lt_of_le hdiv] at hoff
  · have hc := SpiPort.clocked_iff.2 ⟨hsse, hmstr, hdiv⟩
    refine ⟨fun w rest hsh hfifo => SpiPort.shifterStep_load hc hsh hfifo, SpiPort.shifterStep_idle,
      fun w n sent hsh hlt => SpiPort.shifterStep_shift hc hsh hlt, fun w n hsh => ?_⟩
    rw [SpiPort.shifterStep_finish hc hsh]
    exact ⟨rfl, rfl, rfl, fun hfifo => by simp [hfifo]⟩

/-! ### Writes of a port keep its invariant -/

section
variable {depth : Nat} {p : SpiPort} (h : p.Inv depth)
include h

theorem SpiPort.Inv.setDivider {prescale : Byte} (postdiv : Byte) (hmin : 2 ≤ prescale.toNat)
    (heven : prescale.toNat % 2 = 0) : SpiPort.Inv depth { p with cpsdvsr := prescale, scr := postdiv } :=
  { h with
    divider := .inr ⟨hmin, heven⟩
    stopped := fun h0 => absurd hmin (by simp only at h0; simp [h0]) }

theorem SpiPort.Inv.configure {dss : BitVec 4} (hdss : 3 ≤ dss.toNat) : (p.configure dss).Inv depth :=
  { h with configured := .inl ⟨rfl, rfl, hdss⟩ }

/-- A port that is enabled was configured by SPI.SEND (R151). -/
theorem SpiPort.Inv.configured_of_sse (hsse : p.sse = true) : p.mstr = true ∧ p.sse = true ∧ 3 ≤ p.dss.toNat :=
  h.configured.resolve_right fun hunused => Bool.false_ne_true (hunused.2.1.symm.trans hsse)

theorem SpiPort.Inv.push (w : Half) (hroom : p.fifo.length < depth) (hsse : p.sse = true) :
    SpiPort.Inv depth { p with fifo := p.fifo ++ [w] } :=
  { h with
    fifo_le := by simpa using hroom
    configured := .inl (h.configured_of_sse hsse)
    idle_low := fun _ hnil => by simp at hnil }

theorem SpiPort.Inv.shifterStep : p.shifterStep.Inv depth := by
  have running (hc : p.clocked = true) : (p.mstr = true ∧ p.sse = true ∧ 3 ≤ p.dss.toNat) ∧ p.cpsdvsr ≠ 0#8 :=
    ⟨h.configured_of_sse (SpiPort.clocked_iff.1 hc).1, fun h0 => by simp [SpiPort.clocked_eq_false_of_cpsdvsr h0] at hc⟩
  rcases p.shifterStep_cases with e | ⟨hc, w, rest, hsh, hfifo, e⟩ | ⟨hc, w, n, sent, hsh, hlt, e⟩ |
    ⟨hc, w, n, hsh, e⟩ <;> rw [e]
  · exact h
  · obtain ⟨hconf, hdiv⟩ := running hc
    have hlen := h.fifo_le
    rw [hfifo, List.length_cons] at hlen
    have hdss := p.dss.isLt
    refine { h with fifo_le := by simp only; omega, configured := .inl hconf, holding := ?_,
                    stopped := fun h0 => absurd h0 hdiv, idle_low := nofun }
    rintro _ _ _ ⟨⟩
    exact ⟨hconf.2.2, by omega, Nat.zero_le _⟩
  · obtain ⟨hconf, hdiv⟩ := running hc
    obtain ⟨hmin, hmax, -⟩ := h.holding w n sent hsh
    refine { h with configured := .inl hconf, holding := ?_, stopped := fun h0 => absurd h0 hdiv, idle_low := nofun }
    rintro _ _ _ ⟨⟩
    exact ⟨hmin, hmax, hlt⟩
  · obtain ⟨hconf, hdiv⟩ := running hc
    obtain ⟨hmin, hmax, -⟩ := h.holding w n n hsh
    refine { h with configured := .inl hconf, holding := nofun, stopped := fun h0 => absurd h0 hdiv,
                    idle_low := fun _ hnil => by simp only at hnil; simp [hnil], logged := fun f hf => ?_ }
    rcases List.mem_append.1 hf with hf | hf
    · exact h.logged f hf
    · obtain rfl := List.mem_singleton.1 hf
      refine ⟨hmin, hmax, ?_⟩
      rw [lowBits, BitVec.toNat_ofNat]
      exact (Nat.mod_le _ _).trans_lt (Nat.mod_lt _ (Nat.two_pow_pos n))

end

theorem SpiPort.inv_atReset (depth : Nat) : SpiPort.atReset.Inv depth where
  fifo_le := Nat.zero_le _
  divider := .inl rfl
  configured := .inr ⟨rfl, rfl, rfl, rfl, rfl, rfl⟩
  holding := nofun
  stopped := fun _ => ⟨rfl, rfl, rfl⟩
  idle_low := fun _ _ => rfl
  logged := nofun

theorem SpiPort.shifterStep_fifo_le (p : SpiPort) : p.shifterStep.fifo.length ≤ p.fifo.length := by
  rcases p.shifterStep_cases with e | ⟨-, w, rest, -, hfifo, e⟩ | ⟨-, _, _, _, -, -, e⟩ | ⟨-, _, _, -, e⟩ <;> rw [e]
  rw [hfifo]
  exact Nat.le_succ _

/-! ### The invariant of the unit -/

/-- What holds of port `i` as written, and of every other port as it was, holds of every port. -/
theorem State.forall_port_setPort {s : State} {i : SpiIx} {p : SpiPort} {P : SpiIx → SpiPort → Prop} (hi : P i p)
    (hne : ∀ j, j ≠ i → P j (s.port j)) (j : SpiIx) : P j ((s.setPort i p).port j) := by
  by_cases hj : j = i
  · subst hj
    rwa [State.port_setPort_same]
  · rw [State.port_setPort_ne _ _ hj]
    exact hne j hj

/-- The room in the FIFOs stays while none gets longer and no port is disabled. -/
theorem State.SeqInv.mono {s t : State} (h : s.SeqInv) (hseq : t.seq = s.seq) (hcfg : t.cfg = s.cfg)
    (hfifo : ∀ j, (t.port j).fifo.length ≤ (s.port j).fifo.length)
    (hsse : ∀ j, (s.port j).sse = true → (t.port j).sse = true) : t.SeqInv := by
  unfold State.SeqInv at h ⊢
  rw [hseq, hcfg]
  cases hs : s.seq with
  | idle =>
    rw [hs] at h
    exact fun j => (hfifo j).trans_lt (h j)
  | sending i n idx ph =>
    rw [hs] at h
    obtain ⟨hi, hpos, hcap, hidx, hpush, hen, hroom⟩ := h
    exact ⟨hi, hpos, hcap, hidx, hpush, hsse i hen, fun j hj => (hfifo j).trans_lt (hroom j hj)⟩

section
variable {s t : State} (h : s.SpiInv)
include h

/-- A write of one port that keeps the port's invariant and does not lengthen its FIFO. -/
theorem State.SpiInv.setPort {i : SpiIx} {p : SpiPort} (hp : p.Inv s.cfg.fifoDepth)
    (hfifo : p.fifo.length ≤ (s.port i).fifo.length) (hsse : (s.port i).sse = true → p.sse = true)
    (habsent : s.cfg.nSpi ≤ i.val → p = s.port i) : (s.setPort i p).SpiInv := by
  obtain ⟨hports, hseq, hreset⟩ := h
  refine ⟨forall_port_setPort (P := fun _ q => q.Inv s.cfg.fifoDepth) hp fun j _ => hports j,
    hseq.mono rfl rfl
      (forall_port_setPort (P := fun j q => q.fifo.length ≤ (s.port j).fifo.length) hfifo fun j _ => le_rfl)
      (forall_port_setPort (P := fun j q => (s.port j).sse = true → q.sse = true) hsse fun j _ => id),
    forall_port_setPort (P := fun j q => s.cfg.nSpi ≤ j.val → q = SpiPort.atReset) (fun hi => ?_) fun j _ => hreset j⟩
  rw [habsent hi, hreset i hi]

theorem State.SpiInv.configure {i : SpiIx} (hi : i.val < s.cfg.nSpi) {dss : BitVec 4} (hdss : 3 ≤ dss.toNat) :
    (s.setPort i ((s.port i).configure dss)).SpiInv :=
  h.setPort ((h.1 i).configure hdss) le_rfl (fun _ => rfl) fun habsent => absurd hi (Nat.not_lt_of_le habsent)

/-- The shifter of a port the block has not stands still, as it does after reset. -/
theorem State.SpiInv.shifterTurn (i : SpiIx) : (s.setPort i (s.port i).shifterStep).SpiInv := by
  refine h.setPort (h.1 i).shifterStep (SpiPort.shifterStep_fifo_le _) (fun hsse => ?_) fun habsent => ?_
  · rwa [SpiPort.shifterStep_frame]
  · rw [h.2.2 i habsent]
    rfl

/-- A command in an idle block: every FIFO has room, so a send may begin. -/
theorem State.SpiInv.exec {c : Instr} (hidle : s.seq = .idle) (he : ExecEffect s c t) : t.SpiInv := by
  cases he with
  | spiApply i hi hmin heven =>
    have hpresent := (selOf_eq_some.1 hi).2
    exact h.setPort ((h.1 i).setDivider _ hmin heven) le_rfl id
      fun habsent => absurd hpresent (Nat.not_lt_of_le habsent)
  | spiSendNothing i hi hdss hcount => exact h.configure (selOf_eq_some.1 hi).2 hdss
  | @spiSend dss _ _ i hi hdss hcount hcap =>
    have hpresent := (selOf_eq_some.1 hi).2
    obtain ⟨hports, hseq, hreset⟩ := h.configure hpresent hdss
    rw [State.SeqInv, State.setPort_seq, hidle] at hseq
    have hsse := congrArg SpiPort.sse (State.port_setPort_same s i ((s.port i).configure dss))
    exact ⟨hports, ⟨hpresent, hcount, hcap, Nat.zero_le _, fun _ => hcount, hsse, fun j _ => hseq j⟩, hreset⟩
  | _ => exact h

theorem State.SpiInv.hostTurn (ht : hostTurn s = .next t) : t.SpiInv := by
  by_cases hi : s.seq = .idle
  swap
  · rw [hostTurn_held hi] at ht
    cases ht
    exact h
  cases hh : s.host with
  | nil =>
    rw [hostTurn_nil hh] at ht
    cases ht
    exact h
  | cons a rest =>
    rw [hostTurn_cons hi hh] at ht
    rcases issue_cases a { s with host := rest } with ⟨err, e⟩ | ⟨off, size, r, v, -, -, e⟩ |
      ⟨off, size, r, v, s', -, -, hw, e⟩ | ⟨off, size, w, why, -, -, e⟩ | ⟨off, size, w, i, -, -, -, e⟩ <;>
      rw [e] at ht
    · cases ht; exact h
    · cases ht; exact h
    · cases ht
      rcases writeReg_cases hw with rfl | rfl | ⟨_, -, rfl⟩ | ⟨_, -, rfl⟩ <;> exact h
    · cases ht; exact h
    · exact State.SpiInv.exec (s := State.setReply { s with host := rest } .pending) h hi (exec_effect ht)

/-- The send loop: a push fills at most the FIFO of the send, which only the wait lets be full. -/
theorem State.SpiInv.sequencerTurn (ht : sequencerTurn s = .next t) : t.SpiInv := by
  obtain ⟨hports, hseq, hreset⟩ := h
  rcases sequencerTurn_cases ht with rfl | ⟨i, n, idx, w, hs, hlt, -, hroom, rfl⟩ | ⟨i, n, idx, hs, hroom, hlt, rfl⟩ |
    ⟨i, n, idx, hs, hroom, -, rfl⟩
  · exact ⟨hports, hseq, hreset⟩
  all_goals
    unfold State.SeqInv at hseq
    rw [hs] at hseq
    obtain ⟨hi, hpos, hcap, hidx, -, hsse, hothers⟩ := hseq
  · refine ⟨forall_port_setPort (P := fun _ q => q.Inv s.cfg.fifoDepth) ((hports i).push w hroom hsse)
        fun j _ => hports j,
      ⟨hi, hpos, hcap, hlt, nofun, ?_, fun j hj => ?_⟩,
      forall_port_setPort (P := fun j q => s.cfg.nSpi ≤ j.val → q = SpiPort.atReset)
        (fun habsent => absurd hi (Nat.not_lt_of_le habsent)) fun j _ => hreset j⟩
    · exact (congrArg SpiPort.sse (State.port_setPort_same s i _)).trans hsse
    · have hne : j ≠ i := hj.resolve_right nofun
      exact (congrArg (List.length ∘ SpiPort.fifo) (State.port_setPort_ne s _ hne)).trans_lt (hothers j (.inl hne))
  · refine ⟨hports, ⟨hi, hpos, hcap, hidx, fun _ => hlt, hsse, fun j _ => ?_⟩, hreset⟩
    by_cases hj : j = i
    · subst hj; exact hroom
    · exact hothers j (.inl hj)
  · refine ⟨hports, fun j => ?_, hreset⟩
    by_cases hj : j = i
    · subst hj; exact hroom
    · exact hothers j (.inl hj)

end

theorem State.spiInv_atReset {c : Config} (hc : c.Legal) (e : Nat) : (State.atReset c e).SpiInv := by
  refine ⟨fun i => ?_, fun j => ?_, fun i _ => State.port_atReset c e i⟩
  · rw [State.port_atReset]
    exact SpiPort.inv_atReset _
  · rw [State.port_atReset]
    exact hc.fifo

theorem State.SpiInv.turn {s t : State} (hc : s.cfg.Legal) (h : s.SpiInv) {trn : Turn} (ht : turnOf trn s = .next t) :
    t.SpiInv := by
  cases trn with
  | host => exact h.hostTurn ht
  | sequencer => exact h.sequencerTurn ht
  | shifter i => cases ht; exact h.shifterTurn i
  | counter c => cases ht; exact h
  | reset => cases ht; exact State.spiInv_atReset hc (s.epoch + 1)

/-! ### No push meets a full FIFO (R152) -/

/-- The one fault of a command is a colour that nothing has written (R193). -/
theorem exec_ne_fifoPushFull (i : Instr) (s : State) : exec i s ≠ .fault .fifoPushFull := by
  intro h
  cases i with
  | pwmStart pin init =>
    rcases execPwmStart_cases pin init s with ⟨-, e⟩ | ⟨p, -, -, e⟩ <;> (rw [exec, e] at h; cases h)
  | pwmSet pin raw => rcases execPwmSet_cases pin raw s with ⟨-, e⟩ | ⟨p, -, -, e⟩ <;> (rw [exec, e] at h; cases h)
  | pwmSetp pin =>
    rcases execPwmSetp_cases pin s with ⟨-, e⟩ | ⟨p, -, -, f, -, ⟨raw, -, e⟩ | ⟨-, e⟩⟩ <;> (rw [exec, e] at h; cases h)
  | spiSolve => rcases execSpiSolve_cases s with ⟨-, e⟩ | ⟨q, -, e⟩ <;> (rw [exec, e] at h; cases h)
  | spiApply sel prescale postdiv =>
    rcases execSpiApply_cases sel prescale postdiv s with ⟨k, -, e⟩ | ⟨i, -, -, -, e⟩ <;> (rw [exec, e] at h; cases h)
  | spiSend dss sel count =>
    rcases execSpiSend_cases dss sel count s with ⟨k, -, e⟩ | ⟨i, -, -, -, ⟨-, e⟩ | ⟨-, e⟩⟩ <;>
      (rw [exec, e] at h; cases h)
  | gpioSet pin mode =>
    rcases execGpioSet_cases pin mode s with ⟨k, -, e⟩ | ⟨p, v, -, -, e⟩ <;> (rw [exec, e] at h; cases h)
  | ledEncode count =>
    rcases execLedEncode_cases count s with e | ⟨-, -, -, ⟨k, -, e⟩ | ⟨colours, -, e⟩⟩ <;> (rw [exec, e] at h; cases h)

theorem hostTurn_ne_fifoPushFull (s : State) : hostTurn s ≠ .fault .fifoPushFull := by
  unfold hostTurn
  cases hostMove s with
  | done t => exact nofun
  | run i t => exact exec_ne_fifoPushFull i t

theorem State.SeqInv.sequencerTurn_ne_fifoPushFull {s : State} (h : s.SeqInv) :
    Machine.sequencerTurn s ≠ .fault .fifoPushFull := by
  unfold State.SeqInv at h
  cases hs : s.seq with
  | idle => simp [Machine.sequencerTurn, hs]
  | sending i n idx ph =>
    rw [hs] at h
    obtain ⟨-, -, -, -, hpush, -, hroom⟩ := h
    cases ph with
    | push =>
      rw [sequencerTurn_push hs]
      cases hw : s.buf.get idx with
      | none => rw [sendPush_unwritten i (hpush rfl) hw]; nofun
      | some w => rw [sendPush_written (hpush rfl) hw (hroom i (.inr rfl))]; nofun
    | wait =>
      rw [sequencerTurn_wait hs]
      unfold sendWait
      repeat' split
      all_goals nofun

theorem State.SpiInv.turn_ne_fifoPushFull {s : State} (h : s.SpiInv) (trn : Turn) :
    turnOf trn s ≠ .fault .fifoPushFull := by
  cases trn with
  | host => exact hostTurn_ne_fifoPushFull s
  | sequencer => exact h.2.1.sequencerTurn_ne_fifoPushFull
  | shifter i => exact nofun
  | counter c => exact nofun
  | reset => exact nofun

/-- Settles O36, turn by turn: only a push lengthens a FIFO, that of the send and where it has room, and only a wait
follows it. -/
theorem stepKeepsSpiInv : Obligations.StepKeepsSpiInv := by
  unfold Obligations.StepKeepsSpiInv
  intro s hc h
  cases hturns : s.turns with
  | nil =>
    rw [step_nil hturns]
    exact ⟨fun t ht => by cases ht; exact h, nofun⟩
  | cons trn rest =>
    rw [step_cons hturns]
    exact ⟨fun t ht => State.SpiInv.turn (s := { s with turns := rest }) hc h ht,
      State.SpiInv.turn_ne_fifoPushFull (s := { s with turns := rest }) h trn⟩

end Sys2Proof.Machine
end

/-! # Runs of turns

What a turn does depends on no later turn (`turnOf_withTurns`), so a run goes on from the state its first turn answers
(`runTurns_cons`). Two inductions over runs are packaged here: what every turn keeps holds at the end
(`runTurns_keeps`), and a run in which a helpful turn comes round often enough reaches its goal
(`exists_prefix_of_rounds`). -/

section
namespace Sys2Proof.Machine

/-! ### The schedule is read by no turn (R73) -/

/-- `s` with another schedule. -/
def State.withTurns (s : State) (ts : List Turn) : State := { s with turns := ts }

/-- An outcome with another schedule in its state. -/
def outcomeWithTurns (ts : List Turn) : Result → Result
  | .next s => .next (s.withTurns ts)
  | .fault f => .fault f
  | .refused r => .refused r

theorem sequencerTurn_idle {s : State} (h : s.seq = .idle) : sequencerTurn s = .next s := by
  simp only [sequencerTurn, h]

section
variable (s : State) (ts : List Turn)

theorem exec_withTurns (i : Instr) : exec i (s.withTurns ts) = outcomeWithTurns ts (exec i s) := by
  cases i with
  | pwmStart pin init =>
    simp only [exec, execPwmStart, State.withTurns]
    cases pinOf s.cfg pin <;> rfl
  | pwmSet pin raw =>
    simp only [exec, execPwmSet, State.withTurns]
    cases pinOf s.cfg pin <;> rfl
  | pwmSetp pin =>
    simp only [exec, execPwmSetp, State.withTurns, State.percent]
    cases pinOf s.cfg pin with
    | none => rfl
    | some p =>
      obtain ⟨f, hf⟩ := scalePercent_ok s.cfg (Flt.ofBits s.cfg.floatFormat s.arg0)
      simp only [hf]
      cases toU16 s.cfg f <;> rfl
  | spiSolve =>
    simp only [exec, execSpiSolve, State.withTurns]
    cases solvePrescale s.arg0.toNat s.arg1.toNat <;> rfl
  | spiApply sel prescale postdiv =>
    simp only [exec, execSpiApply, State.withTurns]
    cases selOf s.cfg sel with
    | none => rfl
    | some i => cases prescaleOk prescale <;> rfl
  | spiSend dss sel count =>
    simp only [exec, execSpiSend, State.withTurns]
    cases frameSizeOk dss with
    | false => rfl
    | true =>
      cases selOf s.cfg sel with
      | none => rfl
      | some i =>
        simp only [if_true, apply_ite (outcomeWithTurns ts)]
        rfl
  | gpioSet pin mode =>
    simp only [exec, execGpioSet, State.withTurns]
    cases pinOf s.cfg pin with
    | none => rfl
    | some p => cases pinval mode <;> rfl
  | ledEncode count =>
    simp only [exec, execLedEncode, State.withTurns]
    cases s.col.readRange 0 count.toNat <;> (simp only [apply_ite (outcomeWithTurns ts)]; rfl)

theorem issue_withTurns (a : Access) :
    (issue a (s.withTurns ts)).outcome = outcomeWithTurns ts (issue a s).outcome := by
  cases a with
  | read off size =>
    simp only [issue, State.withTurns]
    cases decodeAddress s.cfg off size with
    | error e => rfl
    | ok r => cases r <;> rfl
  | write off size v =>
    simp only [issue, issueCommand, State.withTurns]
    cases decodeAddress s.cfg off size with
    | error e => rfl
    | ok r =>
      cases r with
      | cmd =>
        cases decode v with
        | command i => exact exec_withTurns (s.setReply .pending) ts i
        | illegal why => rfl
      | _ => rfl

theorem hostTurn_withTurns : hostTurn (s.withTurns ts) = outcomeWithTurns ts (hostTurn s) := by
  cases hs : s.seq with
  | sending i n idx ph =>
    have hbusy : s.seq ≠ .idle := by rw [hs]; nofun
    rw [hostTurn_held hbusy, hostTurn_held (s := s.withTurns ts) hbusy]
    rfl
  | idle =>
    cases hh : s.host with
    | nil =>
      rw [hostTurn_nil hh, hostTurn_nil (s := s.withTurns ts) hh]
      rfl
    | cons a rest =>
      rw [hostTurn_cons hs hh, hostTurn_cons (s := s.withTurns ts) hs hh]
      exact issue_withTurns { s with host := rest } ts a

theorem sequencerTurn_withTurns : sequencerTurn (s.withTurns ts) = outcomeWithTurns ts (sequencerTurn s) := by
  cases hs : s.seq with
  | idle =>
    rw [sequencerTurn_idle hs, sequencerTurn_idle (s := s.withTurns ts) hs]
    rfl
  | sending i n idx ph =>
    cases ph with
    | push =>
      rw [sequencerTurn_push hs, sequencerTurn_push (s := s.withTurns ts) hs]
      simp only [sendPush, State.withTurns, State.port, apply_ite (outcomeWithTurns ts)]
      cases s.buf.get idx with
      | none => rfl
      | some w =>
        dsimp only
        cases SpiPort.fifoPush s.cfg.fifoDepth s.spi[i.val] w <;> rfl
    | wait =>
      rw [sequencerTurn_wait hs, sequencerTurn_wait (s := s.withTurns ts) hs]
      simp only [sendWait, apply_ite (outcomeWithTurns ts)]
      rfl

theorem turnOf_withTurns (trn : Turn) : turnOf trn (s.withTurns ts) = outcomeWithTurns ts (turnOf trn s) := by
  cases trn with
  | host => exact hostTurn_withTurns s ts
  | sequencer => exact sequencerTurn_withTurns s ts
  | shifter i => rfl
  | counter c => rfl
  | reset => rfl

end

/-! ### Runs -/

section
variable {s t u : State} {trn : Turn} {ts : List Turn}

/-- The first step of a run. -/
theorem step_withTurns_cons (s : State) (trn : Turn) (ts : List Turn) :
    Sys2Proof.core.step (s.withTurns (trn :: ts)) = outcomeWithTurns ts (turnOf trn s) :=
  turnOf_withTurns s ts trn

/-- A run goes on from the state its first turn answers. -/
theorem runTurns_cons (h : turnOf trn s = .next t) : runTurns (trn :: ts) s = runTurns ts t := by
  have hstep := step_withTurns_cons s trn ts
  rw [h] at hstep
  show Host.Core.run Sys2Proof.core (ts.length + 1) (s.withTurns (trn :: ts)) = runTurns ts t
  simp only [Host.Core.run, hstep, outcomeWithTurns]
  rfl

theorem exists_of_runTurns_cons (h : runTurns (trn :: ts) s = .next u) :
    ∃ t, turnOf trn s = .next t ∧ runTurns ts t = .next u := by
  have hstep := step_withTurns_cons s trn ts
  have hrun : Host.Core.run Sys2Proof.core (ts.length + 1) (s.withTurns (trn :: ts)) = .next u := h
  cases ht : turnOf trn s with
  | next t => exact ⟨t, rfl, (runTurns_cons ht).symm.trans h⟩
  | fault f => simp [Host.Core.run, hstep, ht, outcomeWithTurns] at hrun
  | refused r => simp [Host.Core.run, hstep, ht, outcomeWithTurns] at hrun

/-- What every turn of a run keeps holds at its end. -/
theorem runTurns_keeps {P : State → Prop} (hP : ∀ trn ∈ ts, ∀ s t, P s → turnOf trn s = .next t → P t) (hs : P s)
    (h : runTurns ts s = .next t) : ∃ u, P u ∧ t = u.withTurns [] := by
  induction ts generalizing s with
  | nil =>
    cases h
    exact ⟨s, hs, rfl⟩
  | cons trn ts ih =>
    obtain ⟨s', hturn, hrest⟩ := exists_of_runTurns_cons h
    exact ih (fun trn' hmem => hP trn' (List.mem_cons_of_mem _ hmem)) (hP trn List.mem_cons_self s s' hs hturn) hrest

end

/-! ### Progress under fair turns -/

/-- `P s h m` says that in `s` the turn `h` is helpful and that after it at most `m` more helpful turns are missing to
reach `Done`: a helpful turn lowers `m` or is the last one, and no other turn hinders it. -/
def Progresses (P : State → Turn → Nat → Prop) (Done : State → Prop) : Prop :=
  ∀ s h m trn, P s h m → trn ≠ .reset → ∃ t, turnOf trn s = .next t ∧
    (Done t ∨ ∃ h' m', P t h' m' ∧ (m' < m ∨ (trn ≠ h ∧ h' = h ∧ m' = m)))

section
variable {P : State → Turn → Nat → Prop} {Done : State → Prop} (hprogress : Progresses P Done)
include hprogress

/-- A round of turns reaches the goal on the way, or ends with `m` no higher, and lower if it holds the helpful turn. -/
theorem Progresses.round {r : List Turn} (hr : .reset ∉ r) {s : State} {h : Turn} {m : Nat} (hs : P s h m) :
    (∃ r₁ t, r₁ <+: r ∧ Done t ∧ runTurns r₁ s = .next (t.withTurns [])) ∨
    ∃ t h' m', P t h' m' ∧ m' ≤ m ∧ (h ∈ r → m' < m) ∧ ∀ ts, runTurns (r ++ ts) s = runTurns ts t := by
  induction r generalizing s h m with
  | nil => exact .inr ⟨s, h, m, hs, le_rfl, nofun, fun _ => rfl⟩
  | cons trn r ih =>
    rw [List.mem_cons, not_or] at hr
    obtain ⟨t, hturn, hdone | ⟨h', m', ht, hm⟩⟩ := hprogress s h m trn hs (Ne.symm hr.1)
    · exact .inl ⟨[trn], t, ⟨r, rfl⟩, hdone, runTurns_cons hturn⟩
    rcases ih hr.2 ht with ⟨r₁, u, hprefix, hdone, hrun⟩ | ⟨u, h'', m'', hu, hle, hlt, hrun⟩
    · exact .inl ⟨trn :: r₁, u, List.cons_prefix_cons.2 ⟨rfl, hprefix⟩, hdone, (runTurns_cons hturn).trans hrun⟩
    · refine .inr ⟨u, h'', m'', hu, ?_, fun hmem => ?_, fun ts => (runTurns_cons hturn).trans (hrun ts)⟩
      · omega
      · rcases hm with hm | ⟨hne, rfl, rfl⟩
        · omega
        · exact hlt ((List.mem_cons.1 hmem).resolve_left (Ne.symm hne))

/-- Among more than `m` rounds that each hold whatever turn is helpful, there is a point where the goal is reached. -/
theorem Progresses.exists_prefix_of_rounds {rounds : List (List Turn)}
    (hrounds : ∀ r ∈ rounds, .reset ∉ r ∧ ∀ s h m, P s h m → h ∈ r) {s : State} {h : Turn} {m : Nat} (hs : P s h m)
    (hm : m < rounds.length) : ∃ ts t, ts <+: rounds.flatten ∧ Done t ∧ runTurns ts s = .next (t.withTurns []) := by
  induction rounds generalizing s h m with
  | nil => exact absurd hm (Nat.not_lt_zero m)
  | cons r rounds ih =>
    obtain ⟨hreset, hhelp⟩ := hrounds r List.mem_cons_self
    rw [List.flatten_cons]
    rcases hprogress.round hreset hs with ⟨r₁, t, hprefix, hdone, hrun⟩ | ⟨t, h', m', ht, -, hlt, hrun⟩
    · exact ⟨r₁, t, hprefix.trans (List.prefix_append _ _), hdone, hrun⟩
    · have hlower := hlt (hhelp s h m hs)
      rw [List.length_cons] at hm
      obtain ⟨ts, u, hprefix, hdone, hrest⟩ :=
        ih (fun r' hmem => hrounds r' (List.mem_cons_of_mem _ hmem)) ht (by omega)
      exact ⟨r ++ ts, u, (List.prefix_append_right_inj r).2 hprefix, hdone, (hrun ts).trans hrest⟩

end

/-- A list that holds an element `k` times has `k` rounds, each with the element, one after the other. -/
theorem exists_rounds_of_le_count {α : Type} [DecidableEq α] {a : α} {k : Nat} {l : List α} (h : k ≤ l.count a) :
    ∃ rounds : List (List α), rounds.flatten <+: l ∧ rounds.length = k ∧ ∀ r ∈ rounds, a ∈ r := by
  induction k generalizing l with
  | zero => exact ⟨[], List.nil_prefix, rfl, nofun⟩
  | succ k ih =>
    obtain ⟨before, after, rfl, hbefore⟩ := List.eq_append_cons_of_mem (List.count_pos_iff.1 (Nat.zero_lt_of_lt h))
    rw [List.count_append, List.count_eq_zero.2 hbefore, List.count_cons_self] at h
    obtain ⟨rounds, hprefix, hlen, hmem⟩ := ih (l := after) (by omega)
    refine ⟨(before ++ [a]) :: rounds, ?_, congrArg (· + 1) hlen, List.forall_mem_cons.2 ⟨by simp, hmem⟩⟩
    simpa using hprefix

end Sys2Proof.Machine
end

/-! # The frames of a send (R152, R153, R155, R161)

What a port has sent and still has to send is one list of frames: its log, the frame in its shifter, its queued words
and the words the sequencer has not pushed. The shifter moves frames along within the port (`shifterStep_frames`), the
sequencer moves the first unpushed word to the end of the queue (`unpushedWords_eq_cons`), and no other turn moves
any. -/

section
namespace Sys2Proof.Machine

/-- The frames of a port alone: logged, held, queued. -/
def SpiPort.frames (p : SpiPort) : List Frame := p.txlog ++ heldFrames p.sh ++ p.fifo.map (wordFrame p.dss)

theorem SpiPort.shifterStep_frames (p : SpiPort) : p.shifterStep.frames = p.frames := by
  rcases p.shifterStep_cases with e | ⟨-, w, rest, hsh, hfifo, e⟩ | ⟨-, w, n, sent, hsh, -, e⟩ | ⟨-, w, n, hsh, e⟩ <;>
    rw [e]
  · simp [frames, hsh, hfifo, heldFrames, wordFrame]
  · simp [frames, hsh, heldFrames]
  · simp [frames, hsh, heldFrames, lowBits]

theorem SpiPort.frames_push (p : SpiPort) (w : Half) :
    SpiPort.frames { p with fifo := p.fifo ++ [w] } = p.frames ++ [wordFrame p.dss w] := by
  simp [frames]

section
variable {s t : State} {i : SpiIx}

theorem allFrames_eq (s : State) (i : SpiIx) :
    allFrames s i = (s.port i).frames ++ (unpushedWords s i).map (wordFrame (s.port i).dss) := by
  simp [allFrames, SpiPort.frames]

theorem unpushedWords_idle (h : s.seq = .idle) : unpushedWords s i = [] := by
  simp only [unpushedWords, h]

theorem unpushedWords_sending {n idx : Nat} {ph : Phase} (h : s.seq = .sending i n idx ph) :
    unpushedWords s i = (List.range (n - idx)).map fun k => (s.buf.get (idx + k)).getD 0#16 := by
  simp only [unpushedWords, h, if_true]

theorem unpushedWords_other {j : SpiIx} {n idx : Nat} {ph : Phase} (h : s.seq = .sending j n idx ph) (hj : i ≠ j) :
    unpushedWords s i = [] := by
  simp only [unpushedWords, h, Ne.symm hj, if_false]

/-- The first unpushed word is the one the sequencer pushes next. -/
theorem unpushedWords_eq_cons {n idx : Nat} {ph ph' : Phase} {w : Half} (h : s.seq = .sending i n idx ph)
    (hidx : idx < n) (hw : s.buf.get idx = some w) :
    unpushedWords s i = w :: unpushedWords (s.setSeq (.sending i n (idx + 1) ph')) i := by
  obtain ⟨left, rfl⟩ := Nat.exists_eq_add_of_lt hidx
  have hleft : idx + left + 1 - idx = left + 1 := by omega
  have hleft' : idx + left + 1 - (idx + 1) = left := by omega
  rw [unpushedWords_sending h, unpushedWords_sending (State.setSeq_seq s _), hleft, hleft', List.range_succ_eq_map,
    List.map_cons, List.map_map, Nat.add_zero, hw]
  refine congrArg (w :: ·) (List.map_congr_left fun k _ => ?_)
  show (s.buf.get (idx + (k + 1))).getD 0#16 = (s.buf.get (idx + 1 + k)).getD 0#16
  rw [Nat.add_right_comm, Nat.add_assoc]

theorem allFrames_congr (hport : t.port i = s.port i) (hunpushed : unpushedWords t i = unpushedWords s i) :
    allFrames t i = allFrames s i := by
  rw [allFrames_eq, allFrames_eq, hport, hunpushed]

theorem sequencerTurn_allFrames (h : sequencerTurn s = .next t) (i : SpiIx) : allFrames t i = allFrames s i := by
  rcases sequencerTurn_cases h with rfl | ⟨j, n, idx, w, hs, hidx, hw, -, rfl⟩ | ⟨j, n, idx, hs, -, -, rfl⟩ |
    ⟨j, n, idx, hs, -, hidx, rfl⟩
  · rfl
  · by_cases hij : i = j
    · subst hij
      have hport := State.port_setPort_same s i { s.port i with fifo := (s.port i).fifo ++ [w] }
      rw [allFrames_eq s, unpushedWords_eq_cons (ph' := .wait) hs hidx hw, allFrames_eq,
        State.port_congr (State.setSeq_spi _ _) i, hport, SpiPort.frames_push, List.append_assoc]
      rfl
    · refine allFrames_congr (State.port_setPort_ne s _ hij) ?_
      rw [unpushedWords_other rfl hij, unpushedWords_other hs hij]
  · by_cases hij : i = j
    · subst hij
      exact allFrames_congr rfl (by rw [unpushedWords_sending rfl, unpushedWords_sending hs]; rfl)
    · exact allFrames_congr rfl (by rw [unpushedWords_other rfl hij, unpushedWords_other hs hij])
  · refine allFrames_congr rfl ?_
    rw [unpushedWords_idle rfl]
    by_cases hij : i = j
    · subst hij
      rw [unpushedWords_sending hs, Nat.sub_eq_zero_of_le hidx]
      rfl
    · rw [unpushedWords_other hs hij]

theorem shifterTurn_allFrames (s : State) (j i : SpiIx) :
    allFrames (s.setPort j (s.port j).shifterStep) i = allFrames s i := by
  by_cases hij : i = j
  · subst hij
    have hdss : (s.port i).shifterStep.dss = (s.port i).dss := by rw [SpiPort.shifterStep_frame]
    rw [allFrames_eq, allFrames_eq, State.port_setPort_same, SpiPort.shifterStep_frames, hdss]
    rfl
  · exact allFrames_congr (State.port_setPort_ne s _ hij) rfl

/-- No turn of the agents moves a frame; nor does the host while it is held. -/
theorem turnOf_allFrames {trn : Turn} (htrn : trn ≠ .reset) (hheld : trn = .host → s.seq ≠ .idle)
    (h : turnOf trn s = .next t) (i : SpiIx) : allFrames t i = allFrames s i := by
  cases trn with
  | host =>
    cases (hostTurn_held (hheld rfl)).symm.trans h
    rfl
  | sequencer => exact sequencerTurn_allFrames h i
  | shifter j =>
    cases h
    exact shifterTurn_allFrames s j i
  | counter c =>
    cases h
    rfl
  | reset => exact absurd rfl htrn

/-- Settles O37, turn by turn. -/
theorem stepConservesFrames : Obligations.StepConservesFrames := by
  unfold Obligations.StepConservesFrames
  exact fun s t trn i htrn hheld h => turnOf_allFrames htrn hheld h i

/-! ### A whole send on a drained port (R161) -/

/-- The accesses to come change in the host's own turns only. -/
theorem turnOf_host {trn : Turn} (hheld : trn = .host → s.seq ≠ .idle) (h : turnOf trn s = .next t) :
    t.host = s.host := by
  cases trn with
  | host =>
    cases (hostTurn_held (hheld rfl)).symm.trans h
    rfl
  | sequencer =>
    rcases sequencerTurn_cases h with rfl | ⟨_, _, _, _, -, -, -, -, rfl⟩ | ⟨_, _, _, -, -, -, rfl⟩ |
      ⟨_, _, _, -, -, -, rfl⟩ <;> rfl
  | shifter j => cases h; rfl
  | counter c => cases h; rfl
  | reset => cases h; rfl

/-- A host that only reads changes nothing but its accesses to come and the bus's answer. -/
theorem hostTurn_of_reads (hreads : ∀ a ∈ s.host, a.isRead = true) (h : hostTurn s = .next t) :
    ∃ rest r, t = { s with host := rest, reply := r } ∧ rest ⊆ s.host := by
  by_cases hi : s.seq = .idle
  swap
  · cases (hostTurn_held hi).symm.trans h
    exact ⟨s.host, s.reply, rfl, List.Subset.refl _⟩
  cases hh : s.host with
  | nil =>
    cases (hostTurn_nil hh).symm.trans h
    exact ⟨s.host, s.reply, rfl, hh ▸ List.Subset.refl _⟩
  | cons a rest =>
    rw [hostTurn_cons hi hh] at h
    cases a with
    | read off size =>
      obtain ⟨r, hr⟩ := issue_read_reply off size { s with host := rest }
      rw [hr] at h
      cases h
      exact ⟨rest, r, rfl, List.subset_cons_self _ _⟩
    | write off size v =>
      have hwrite : Access.isRead (.write off size v) = true := hreads _ (hh ▸ List.mem_cons_self)
      exact absurd hwrite Bool.false_ne_true

/-- The frames of port `i` are those of `fs`, and the host only reads. -/
def State.FramesAre (s : State) (i : SpiIx) (fs : List Frame) : Prop :=
  allFrames s i = fs ∧ ∀ a ∈ s.host, a.isRead = true

theorem State.FramesAre.turn {fs : List Frame} (hs : s.FramesAre i fs) {trn : Turn} (htrn : trn ≠ .reset)
    (h : turnOf trn s = .next t) : t.FramesAre i fs := by
  obtain ⟨hframes, hreads⟩ := hs
  by_cases hhost : trn = .host
  · subst hhost
    obtain ⟨rest, r, rfl, hsub⟩ := hostTurn_of_reads hreads h
    exact ⟨hframes, fun a ha => hreads a (hsub ha)⟩
  · have hheld : trn = .host → s.seq ≠ .idle := fun e => absurd e hhost
    exact ⟨(turnOf_allFrames htrn hheld h i).trans hframes, by rwa [turnOf_host hheld h]⟩

/-- Once the sequencer is idle and the line too, all frames are logged. -/
theorem allFrames_of_drained (hidle : s.seq = .idle) (hbsy : (s.port i).bsy = false) :
    allFrames s i = (s.port i).txlog := by
  obtain ⟨hfifo, hsh⟩ := SpiPort.bsy_eq_false.1 hbsy
  simp [allFrames_eq, SpiPort.frames, unpushedWords_idle hidle, hfifo, hsh, heldFrames]

/-- The frames of a port on which SPI.SEND has just begun a send of `n` words, at frame size `dss`. -/
theorem allFrames_begun {dss : BitVec 4} {n : Nat} (hport : t.port i = (s.port i).configure dss) (hbuf : t.buf = s.buf)
    (hfifo : (s.port i).fifo = []) (hsh : (s.port i).sh = .empty)
    (hseq : t.seq = .sending i n 0 .push ∨ (n = 0 ∧ t.seq = .idle)) :
    allFrames t i =
      (s.port i).txlog ++ (List.range n).map fun k => wordFrame dss ((s.buf.get k).getD 0#16) := by
  have hunpushed : unpushedWords t i = (List.range n).map fun k => (s.buf.get k).getD 0#16 := by
    rcases hseq with hseq | ⟨rfl, hseq⟩
    · simp [unpushedWords_sending hseq, hbuf]
    · exact unpushedWords_idle hseq
  simp [allFrames_eq, hport, hunpushed, SpiPort.configure, SpiPort.frames, hfifo, hsh, heldFrames]

end

/-- Settles O38: SPI.SEND lines its frames up behind the log, and no turn moves them; when all is drained they are in
the log. -/
theorem sendDeliversItsWordsInOrder : Obligations.SendDeliversItsWordsInOrder := by
  unfold Obligations.SendDeliversItsWordsInOrder
  intro dss sel count s t₀ t ts i hsel hi hidle hreads hdss hcap hfifo hsh hexec hreset hrun hdone hbsy
  have hbegun : t₀.FramesAre i
      ((s.port i).txlog ++ (List.range count.toNat).map fun k => wordFrame dss ((s.buf.get k).getD 0#16)) := by
    have hport := State.port_setPort_same s i ((s.port i).configure dss)
    rcases Nat.eq_zero_or_pos count.toNat with hcount | hcount
    · cases (exec_spiSend_nothing hsel hi hdss hcount).symm.trans hexec
      exact ⟨allFrames_begun hport rfl hfifo hsh (.inr ⟨hcount, hidle⟩), hreads⟩
    · cases (exec_spiSend_loop hsel hi hdss hcap hcount).symm.trans hexec
      exact ⟨allFrames_begun hport rfl hfifo hsh (.inl rfl), hreads⟩
  obtain ⟨u, ⟨hframes, -⟩, rfl⟩ := runTurns_keeps (P := fun u => u.FramesAre i _)
    (fun trn hmem _ _ hs => hs.turn fun e => hreset (e ▸ hmem)) hbegun hrun
  exact (allFrames_of_drained hdone hbsy).symm.trans hframes

end Sys2Proof.Machine
end

/-! # How a send ends (R158)

In a send every turn but the sequencer's leaves the send where it is, and its port too unless it is that of the port's
shifter (`turnOf_bystander`). Without a clock the port then changes by pushes alone, so whether the send returns is a
matter of counting words. With a clock a full FIFO has room again once the held frame is sent, within 17 steps of the
shifter. -/

section
namespace Sys2Proof.Machine

/-! ### The turns within a send -/

/-- `t` differs from `s` in the SPI ports, the PWM channels and the sequencer only, as agents leave it in a send. -/
def SendFrame (s t : State) : Prop := t = { s with spi := t.spi, pwm := t.pwm, seq := t.seq }

theorem SendFrame.trans {s t u : State} (h : SendFrame s t) (h' : SendFrame t u) : SendFrame s u :=
  Eq.trans h' (congrArg (fun v : State => { v with spi := u.spi, pwm := u.pwm, seq := u.seq }) h)

theorem SendFrame.field {s t : State} {α : Type} (h : SendFrame s t) (f : State → α) :
    f t = f { s with spi := t.spi, pwm := t.pwm, seq := t.seq } :=
  congrArg f h

/-- A legal SPI.SEND of some word, as it begins the send. -/
theorem exec_spiSend_begins {dss sel : BitVec 4} {count : Half} {s : State} {i : SpiIx} (hsel : i.val = sel.toNat)
    (hi : i.val < s.cfg.nSpi) (hdss : 3 ≤ dss.toNat) (hcap : count.toNat ≤ s.cfg.bufCap) (hcount : 0 < count.toNat) :
    ∃ t, exec (.spiSend dss sel count) s = .next t ∧ SendFrame s t ∧ t.seq = .sending i count.toNat 0 .push ∧
      t.port i = (s.port i).configure dss :=
  ⟨_, exec_spiSend_loop hsel hi hdss hcap hcount, rfl, rfl, State.port_setPort_same s i _⟩

section
variable {s t : State} {i : SpiIx} {n idx : Nat}

/-- A turn that is not the sequencer's, with the host held. -/
theorem turnOf_bystander (i : SpiIx) {trn : Turn} (hreset : trn ≠ .reset) (hseq : trn ≠ .sequencer)
    (hheld : trn = .host → s.seq ≠ .idle) : ∃ t, turnOf trn s = .next t ∧ SendFrame s t ∧ t.seq = s.seq ∧
      ((trn ≠ .shifter i ∧ t.port i = s.port i) ∨ (trn = .shifter i ∧ t.port i = (s.port i).shifterStep)) := by
  cases trn with
  | host => exact ⟨s, hostTurn_held (hheld rfl), rfl, rfl, .inl ⟨nofun, rfl⟩⟩
  | sequencer => exact absurd rfl hseq
  | shifter j =>
    refine ⟨_, rfl, rfl, rfl, ?_⟩
    by_cases hij : j = i
    · subst hij
      exact .inr ⟨rfl, State.port_setPort_same s j _⟩
    · exact .inl ⟨fun e => hij (Turn.shifter.inj e), State.port_setPort_ne s _ (Ne.symm hij)⟩
  | counter c => exact ⟨_, rfl, rfl, rfl, .inl ⟨nofun, rfl⟩⟩
  | reset => exact absurd rfl hreset

/-- Without a clock the port of the send is left alone by all bystanders. -/
theorem turnOf_bystander_of_stopped {trn : Turn} (hreset : trn ≠ .reset) (hseq : trn ≠ .sequencer)
    (hheld : trn = .host → s.seq ≠ .idle) (hdiv : (s.port i).cpsdvsr = 0#8) :
    ∃ t, turnOf trn s = .next t ∧ SendFrame s t ∧ t.seq = s.seq ∧ t.port i = s.port i := by
  obtain ⟨t, hturn, hframe, hsame, ⟨-, hport⟩ | ⟨-, hport⟩⟩ := turnOf_bystander i hreset hseq hheld
  · exact ⟨t, hturn, hframe, hsame, hport⟩
  · rw [SpiPort.shifterStep_stopped (SpiPort.clocked_eq_false_of_cpsdvsr hdiv)] at hport
    exact ⟨t, hturn, hframe, hsame, hport⟩

theorem ne_idle_of_sending {ph : Phase} (h : s.seq = .sending i n idx ph) : s.seq ≠ .idle := by
  rw [h]
  exact nofun

/-- The push as a turn: one word goes to the end of the FIFO, and the sequencer waits. -/
theorem turnOf_sequencer_push (h : s.seq = .sending i n idx .push) (hidx : idx < n) {w : Half}
    (hw : s.buf.get idx = some w) (hroom : (s.port i).fifo.length < s.cfg.fifoDepth) :
    ∃ t, turnOf .sequencer s = .next t ∧ SendFrame s t ∧ t.seq = .sending i n (idx + 1) .wait ∧
      t.port i = { s.port i with fifo := (s.port i).fifo ++ [w] } :=
  ⟨_, (sequencerTurn_push h).trans (sendPush_written hidx hw hroom), rfl, rfl, State.port_setPort_same s i _⟩

end

/-! ### Too many words without a clock -/

/-- The send that `s` begins on port `i` hangs, or will: it has no clock and pushed `idx` words. -/
structure SendHangs (s : State) (i : SpiIx) (n : Nat) (t : State) : Prop where
  frame : SendFrame s t
  stopped : (t.port i).cpsdvsr = 0#8
  pushed : ∃ idx ph, t.seq = .sending i n idx ph ∧ (t.port i).fifo.length = (s.port i).fifo.length + idx

/-- It goes on hanging: to end, the send would need room in the FIFO with all its words there. -/
theorem SendHangs.turn {s t u : State} {i : SpiIx} {n : Nat} (h : SendHangs s i n t)
    (hfull : s.cfg.fifoDepth ≤ (s.port i).fifo.length + n) {trn : Turn} (hreset : trn ≠ .reset)
    (hturn : turnOf trn t = .next u) : SendHangs s i n u := by
  obtain ⟨hframe, hstopped, idx, ph, hseq, hlen⟩ := h
  have hcfg : t.cfg = s.cfg := hframe.field State.cfg
  by_cases hsequencer : trn = .sequencer
  swap
  · obtain ⟨v, hv, hframe', hsame, hport⟩ :=
      turnOf_bystander_of_stopped hreset hsequencer (fun _ => ne_idle_of_sending hseq) hstopped
    cases hv.symm.trans hturn
    exact ⟨hframe.trans hframe', by rwa [hport], idx, ph, hsame.trans hseq, by rwa [hport]⟩
  · subst hsequencer
    rcases sequencerTurn_cases hturn with rfl | ⟨j, n', idx', w, hs, hlt, -, hroom, rfl⟩ |
      ⟨j, n', idx', hs, hroom, hlt, rfl⟩ | ⟨j, n', idx', hs, hroom, hle, rfl⟩
    · exact ⟨hframe, hstopped, idx, ph, hseq, hlen⟩
    all_goals
      cases hs.symm.trans hseq
      rw [hcfg] at hroom
    · have hport := State.port_setPort_same t i { t.port i with fifo := (t.port i).fifo ++ [w] }
      refine ⟨hframe.trans rfl, (congrArg SpiPort.cpsdvsr hport).trans hstopped, idx + 1, .wait, rfl, ?_⟩
      refine (congrArg (fun p => p.fifo.length) hport).trans ?_
      simp only [List.length_append, List.length_singleton]
      omega
    · exact ⟨hframe.trans rfl, hstopped, idx, .push, rfl, hlen⟩
    · omega

/-- Settles O39: such a send keeps hanging, and while it does no record is written and the host is held. -/
theorem sendWithoutClockHangs : Obligations.SendWithoutClockHangs := by
  unfold Obligations.SendWithoutClockHangs
  intro dss sel count s t₀ t ts i hsel hi hdss hcap hdiv hroom hfull hexec hreset hrun
  have hcount : 0 < count.toNat := by omega
  obtain ⟨u₀, hu₀, hframe, hseq, hport⟩ := exec_spiSend_begins hsel hi hdss hcap hcount
  cases hu₀.symm.trans hexec
  have hbegun : SendHangs s i count.toNat t₀ :=
    ⟨hframe, by rw [hport]; exact hdiv, 0, .push, hseq, by rw [hport]; rfl⟩
  obtain ⟨u, ⟨hframe, -, idx, ph, hseq, -⟩, rfl⟩ := runTurns_keeps (P := SendHangs s i count.toNat)
    (fun trn hmem _ _ h => h.turn hfull fun e => hreset (e ▸ hmem)) hbegun hrun
  exact ⟨ne_idle_of_sending hseq, hframe.field State.result, hframe.field State.statusFault,
    hframe.field State.firstErr, hframe.field State.host⟩

/-! ### Few enough words without a clock -/

/-- How many turns of the sequencer a send still needs after the next one, with `left` words to push. -/
def turnsLeft (left : Nat) : Phase → Nat
  | .push => 2 * left - 1
  | .wait => 2 * left

/-- A send of `words` on port `i` has pushed the first `idx` of them behind what port `p` had queued. -/
structure SendFits (s : State) (i : SpiIx) (p : SpiPort) (words : List Half) (t : State) (idx : Nat) (ph : Phase) :
    Prop where
  frame : SendFrame s t
  seq : t.seq = .sending i words.length idx ph
  idx_le : idx ≤ words.length
  idx_lt : ph = .push → idx < words.length
  port : t.port i = { p with fifo := p.fifo ++ words.take idx }

/-- The send has returned. -/
structure SendReturned (s : State) (i : SpiIx) (p : SpiPort) (t : State) : Prop where
  seq : t.seq = .idle
  result : t.result = .ok
  host : t.host = s.host
  port : t.port i = p

section
variable {s : State} {i : SpiIx} {p : SpiPort} {words : List Half}

theorem SendFits.sequencerTurn (hbuf : ∀ k (hk : k < words.length), s.buf.get k = some words[k])
    (hroom : p.fifo.length + words.length < s.cfg.fifoDepth) {t : State} {idx : Nat} {ph : Phase}
    (h : SendFits s i p words t idx ph) : ∃ u, turnOf .sequencer t = .next u ∧
      (SendReturned s i { p with fifo := p.fifo ++ words } u ∨
       ∃ idx' ph', SendFits s i p words u idx' ph' ∧
        turnsLeft (words.length - idx') ph' < turnsLeft (words.length - idx) ph) := by
  obtain ⟨hframe, hseq, hle, hlt, hport⟩ := h
  have hcfg : t.cfg = s.cfg := hframe.field State.cfg
  have hlen : (t.port i).fifo.length < t.cfg.fifoDepth := by
    rw [hcfg, hport, List.length_append, List.length_take]
    omega
  cases ph with
  | push =>
    have hidx := hlt rfl
    have hw : t.buf.get idx = some words[idx] := (hframe.field (·.buf.get idx)).trans (hbuf idx hidx)
    obtain ⟨u, hturn, hframe', hseq', hport'⟩ := turnOf_sequencer_push hseq hidx hw hlen
    refine ⟨u, hturn, .inr ⟨idx + 1, .wait, ⟨hframe.trans hframe', hseq', hidx, nofun, ?_⟩, ?_⟩⟩
    · rw [hport', hport, List.append_assoc, List.take_append_getElem hidx]
    · simp only [turnsLeft]
      omega
  | wait =>
    rcases Nat.lt_or_ge idx words.length with hidx | hidx
    · refine ⟨_, (sequencerTurn_wait hseq).trans (sendWait_more hlen hidx),
        .inr ⟨idx, .push, ⟨hframe.trans rfl, rfl, hle, fun _ => hidx, hport⟩, ?_⟩⟩
      simp only [turnsLeft]
      omega
    · refine ⟨_, (sequencerTurn_wait hseq).trans (sendWait_last hlen hidx),
        .inl ⟨rfl, rfl, hframe.field State.host, ?_⟩⟩
      rw [List.take_of_length_le hidx] at hport
      exact hport

/-- Each turn of the sequencer brings the send on, and no other turn hinders it. -/
theorem SendFits.progresses (hbuf : ∀ k (hk : k < words.length), s.buf.get k = some words[k])
    (hroom : p.fifo.length + words.length < s.cfg.fifoDepth) (hdiv : p.cpsdvsr = 0#8) :
    Progresses
      (fun t h m => h = .sequencer ∧ ∃ idx ph, SendFits s i p words t idx ph ∧ m = turnsLeft (words.length - idx) ph)
      (SendReturned s i { p with fifo := p.fifo ++ words }) := by
  rintro t _ _ trn ⟨rfl, idx, ph, h, rfl⟩ hreset
  by_cases hsequencer : trn = .sequencer
  · subst hsequencer
    obtain ⟨u, hturn, hdone | ⟨idx', ph', h', hlower⟩⟩ := h.sequencerTurn hbuf hroom
    · exact ⟨u, hturn, .inl hdone⟩
    · exact ⟨u, hturn, .inr ⟨_, _, ⟨rfl, idx', ph', h', rfl⟩, .inl hlower⟩⟩
  · obtain ⟨hframe, hseq, hle, hlt, hport⟩ := h
    obtain ⟨u, hturn, hframe', hsame, hport'⟩ := turnOf_bystander_of_stopped (i := i) hreset hsequencer
      (fun _ => ne_idle_of_sending hseq) (by rw [hport]; exact hdiv)
    have hfits : SendFits s i p words u idx ph :=
      ⟨hframe.trans hframe', hsame.trans hseq, hle, hlt, hport'.trans hport⟩
    exact ⟨u, hturn, .inr ⟨_, _, ⟨rfl, idx, ph, hfits, rfl⟩, .inr ⟨hsequencer, rfl, rfl⟩⟩⟩

end

/-- A send that fits returns under every schedule with two turns of the sequencer a word. -/
theorem exists_prefix_sendReturned {s t : State} {i : SpiIx} {words : List Half} {ts : List Turn}
    (hframe : SendFrame s t) (hseq : t.seq = .sending i words.length 0 .push) (hpos : 0 < words.length)
    (hbuf : ∀ k (hk : k < words.length), s.buf.get k = some words[k]) (hdiv : (t.port i).cpsdvsr = 0#8)
    (hroom : (t.port i).fifo.length + words.length < s.cfg.fifoDepth) (hreset : .reset ∉ ts)
    (hturns : 2 * words.length ≤ ts.count .sequencer) :
    ∃ ts₁ u, ts₁ <+: ts ∧ SendReturned s i { t.port i with fifo := (t.port i).fifo ++ words } u ∧
      runTurns ts₁ t = .next (u.withTurns []) := by
  obtain ⟨rounds, hprefix, hlen, hmem⟩ := exists_rounds_of_le_count hturns
  have hfits : SendFits s i (t.port i) words t 0 .push :=
    ⟨hframe, hseq, Nat.zero_le _, fun _ => hpos, by rw [List.take_zero, List.append_nil]⟩
  obtain ⟨ts₁, u, hprefix₁, hdone, hrun⟩ :=
    (SendFits.progresses hbuf hroom hdiv).exists_prefix_of_rounds (rounds := rounds)
      (fun r hr => ⟨fun hmem => hreset (hprefix.subset (List.mem_flatten_of_mem hr hmem)),
        fun _ _ _ ⟨hh, _⟩ => hh ▸ hmem r hr⟩)
      ⟨rfl, 0, .push, hfits, rfl⟩ (by simp only [turnsLeft]; omega)
  exact ⟨ts₁, u, hprefix₁.trans hprefix, hdone, hrun⟩

/-- While the sequencer is idle and the host has no turn, a stopped port stays as it is. -/
theorem turnOf_of_stopped {s t : State} {i : SpiIx} {trn : Turn} (hreset : trn ≠ .reset) (hhost : trn ≠ .host)
    (hdiv : (s.port i).cpsdvsr = 0#8) (hidle : s.seq = .idle) (h : turnOf trn s = .next t) :
    t.port i = s.port i ∧ t.seq = .idle := by
  by_cases hsequencer : trn = .sequencer
  · subst hsequencer
    cases (sequencerTurn_idle hidle).symm.trans h
    exact ⟨rfl, hidle⟩
  · obtain ⟨u, hu, -, hsame, hport⟩ :=
      turnOf_bystander_of_stopped hreset hsequencer (fun e => absurd e hhost) hdiv
    cases hu.symm.trans h
    exact ⟨hport, hsame.trans hidle⟩

/-- Settles O40: the sequencer finds room for every word, and afterwards nobody touches the queue. -/
theorem sendWithoutClockThatFitsReturns : Obligations.SendWithoutClockThatFitsReturns := by
  unfold Obligations.SendWithoutClockThatFitsReturns
  refine ⟨fun dss sel count s ts i words hsel hi hidle hdss hcap hdiv hlen hbuf hroom hreset hturns => ?_,
    fun s t ts i hdiv hidle hreset hhost hrun => ?_⟩
  · rw [← hlen] at hroom hturns
    rcases Nat.eq_zero_or_pos count.toNat with hcount | hcount
    · obtain rfl : words = [] := List.length_eq_zero_iff.1 (hlen.trans hcount)
      have hport := State.port_setPort_same s i ((s.port i).configure dss)
      refine ⟨_, [], _, exec_spiSend_nothing hsel hi hdss hcount, List.nil_prefix, rfl, hidle, rfl, rfl, ?_, ?_, ?_⟩
      · exact (congrArg SpiPort.fifo hport).trans (List.append_nil _).symm
      · exact (congrArg SpiPort.sh hport).trans rfl
      · exact (congrArg SpiPort.txlog hport).trans rfl
    · obtain ⟨t₀, hexec, hframe, hseq, hport⟩ := exec_spiSend_begins hsel hi hdss hcap hcount
      obtain ⟨ts₁, u, hprefix, ⟨hidle', hresult, hhost, hu⟩, hrun⟩ :=
        exists_prefix_sendReturned (ts := ts) hframe (hlen.symm ▸ hseq) (hlen.symm ▸ hcount) hbuf
          (by rw [hport]; exact hdiv) (by rw [hport]; exact hroom) hreset hturns
      rw [hport] at hu
      exact ⟨t₀, ts₁, _, hexec, hprefix, hrun, hidle', hresult, hhost, congrArg SpiPort.fifo hu,
        (congrArg SpiPort.sh hu).trans rfl, (congrArg SpiPort.txlog hu).trans rfl⟩
  · obtain ⟨u, ⟨hport, -⟩, rfl⟩ := runTurns_keeps (P := fun u => u.port i = s.port i ∧ u.seq = .idle)
      (fun trn hmem u v ⟨hport, hidle⟩ hturn => by
        obtain ⟨hport', hidle'⟩ := turnOf_of_stopped (i := i) (fun e => hreset (e ▸ hmem)) (fun e => hhost (e ▸ hmem))
          (by rw [hport]; exact hdiv) hidle hturn
        exact ⟨hport'.trans hport, hidle'⟩) ⟨rfl, hidle⟩ hrun
    exact hport

/-! ### With a clock, under fair turns -/

/-- How many steps a clocked shifter takes until it has loaded the next word, if one is queued. -/
def stepsToLoad : Shifter → Nat
  | .empty => 1
  | .holding _ n sent => n - sent + 2

/-- What brings a send on port `i` on, with `left` words to push: the turn, and a bound on how many such turns are
still to come after it. A full FIFO waits for the shifter, at most 17 steps a word. -/
inductive SendNeeds (i : SpiIx) (depth left : Nat) (p : SpiPort) : Phase → Turn → Nat → Prop where
  | push : SendNeeds i depth left p .push .sequencer (20 * left)
  | room (h : p.fifo.length < depth) : SendNeeds i depth left p .wait .sequencer (20 * left + 1)
  | full (h : depth ≤ p.fifo.length) : SendNeeds i depth left p .wait (.shifter i) (20 * left + 1 + stepsToLoad p.sh)

theorem stepsToLoad_le {depth : Nat} {p : SpiPort} (h : p.Inv depth) : stepsToLoad p.sh ≤ 17 := by
  cases hsh : p.sh with
  | empty => simp only [stepsToLoad]; omega
  | holding w n sent =>
    have := h.holding w n sent hsh
    simp only [stepsToLoad]
    omega

/-- What a send needs is at most 18 turns more than 20 for each word left: those of a wait for room. -/
theorem SendNeeds.exists_of_inv {depth : Nat} {p : SpiPort} (hp : p.Inv depth) (i : SpiIx) (left : Nat) (ph : Phase) :
    ∃ h m, SendNeeds i depth left p ph h m ∧ m ≤ 20 * left + 18 := by
  have hsteps := stepsToLoad_le hp
  cases ph with
  | push => exact ⟨_, _, .push, by omega⟩
  | wait =>
    rcases Nat.lt_or_ge p.fifo.length depth with hroom | hfull
    · exact ⟨_, _, .room hroom, by omega⟩
    · exact ⟨_, _, .full hfull, by omega⟩

section
variable {i : SpiIx} {depth left : Nat} {p : SpiPort} {ph : Phase} {h : Turn} {m : Nat}

theorem SendNeeds.helpful (hp : SendNeeds i depth left p ph h m) : h = .sequencer ∨ h = .shifter i := by
  cases hp with
  | push => exact .inl rfl
  | room => exact .inl rfl
  | full => exact .inr rfl

/-- The shifter's step: it helps a full FIFO, and is no hindrance otherwise. -/
theorem SendNeeds.shifterStep (hinv : p.Inv depth) (hdepth : 0 < depth) (hc : p.clocked = true)
    (hp : SendNeeds i depth left p ph h m) : ∃ h' m', SendNeeds i depth left p.shifterStep ph h' m' ∧
      (m' < m ∨ (.shifter i ≠ h ∧ h' = h ∧ m' = m)) := by
  cases hp with
  | push => exact ⟨_, _, .push, .inr ⟨nofun, rfl, rfl⟩⟩
  | room hroom => exact ⟨_, _, .room (p.shifterStep_fifo_le.trans_lt hroom), .inr ⟨nofun, rfl, rfl⟩⟩
  | full hfull =>
    cases hsh : p.sh with
    | empty =>
      cases hfifo : p.fifo with
      | nil =>
        rw [hfifo] at hfull
        exact absurd hfull (Nat.not_le_of_lt hdepth)
      | cons w rest =>
        have hle := hinv.fifo_le
        rw [hfifo, List.length_cons] at hle
        rw [SpiPort.shifterStep_load hc hsh hfifo]
        exact ⟨_, _, .room hle, .inl (Nat.lt_succ_self _)⟩
    | holding w n sent =>
      rcases (hinv.holding w n sent hsh).2.2.lt_or_eq with hlt | rfl
      · rw [SpiPort.shifterStep_shift hc hsh hlt]
        refine ⟨_, _, .full hfull, .inl ?_⟩
        simp only [stepsToLoad]
        omega
      · rw [SpiPort.shifterStep_finish hc hsh]
        refine ⟨_, _, .full hfull, .inl ?_⟩
        simp only [stepsToLoad]
        omega

end

/-- The send that `s` was in goes on, on a clocked port `i`. -/
structure SendGoesOn (s : State) (i : SpiIx) (n : Nat) (t : State) (idx : Nat) (ph : Phase) : Prop where
  frame : SendFrame s t
  inv : t.SpiInv
  seq : t.seq = .sending i n idx ph
  prescale : 2 ≤ (t.port i).cpsdvsr.toNat
  written : ∀ j, idx ≤ j → j < n → s.buf.get j ≠ none

section
variable {s t : State} {i : SpiIx} {n idx : Nat} {ph : Phase} (h : SendGoesOn s i n t idx ph)
include h

theorem SendGoesOn.clocked : (t.port i).clocked = true := by
  have hseq := h.inv.2.1
  rw [State.SeqInv, h.seq] at hseq
  obtain ⟨-, -, -, -, -, hsse, -⟩ := hseq
  obtain ⟨hmstr, -, -⟩ := (h.inv.1 i).configured_of_sse hsse
  exact SpiPort.clocked_iff.2 ⟨hsse, hmstr, h.prescale⟩

theorem SendGoesOn.push_ready (hph : ph = .push) : idx < n ∧ (t.port i).fifo.length < t.cfg.fifoDepth := by
  have hseq := h.inv.2.1
  rw [State.SeqInv, h.seq] at hseq
  obtain ⟨-, -, -, -, hpush, -, hroom⟩ := hseq
  exact ⟨hpush hph, hroom i (.inr hph)⟩

/-- The port a send goes on with, after a turn that keeps its prescale. -/
theorem SendGoesOn.next (hc : s.cfg.Legal) {trn : Turn} {u : State} {idx' : Nat} {ph' : Phase}
    (hturn : turnOf trn t = .next u) (hframe : SendFrame t u) (hseq : u.seq = .sending i n idx' ph') (hle : idx ≤ idx')
    (hdiv : (u.port i).cpsdvsr = (t.port i).cpsdvsr) : SendGoesOn s i n u idx' ph' where
  frame := h.frame.trans hframe
  inv := h.inv.turn (by rw [h.frame.field State.cfg]; exact hc) hturn
  seq := hseq
  prescale := by rw [hdiv]; exact h.prescale
  written := fun j hj => h.written j (hle.trans hj)

end

/-- A send that goes on needs the turn `h` next, and at most `m` more to return. -/
def SendAwaits (s : State) (i : SpiIx) (n : Nat) (t : State) (h : Turn) (m : Nat) : Prop :=
  ∃ idx ph, SendGoesOn s i n t idx ph ∧ SendNeeds i s.cfg.fifoDepth (n - idx) (t.port i) ph h m

/-- The send has completed with 0, and the host has issued nothing since. -/
def SendCompleted (s t : State) : Prop := t.seq = .idle ∧ t.result = .ok ∧ t.host = s.host

/-- The sequencer's turn brings on a send whose FIFO has room, to the next word or to its end; else it passes. -/
theorem SendGoesOn.sequencerTurn {s t : State} {i : SpiIx} {n idx : Nat} {ph : Phase} (ht : SendGoesOn s i n t idx ph)
    (hc : s.cfg.Legal) {h : Turn} {m : Nat} (hneeds : SendNeeds i s.cfg.fifoDepth (n - idx) (t.port i) ph h m) :
    ∃ u, turnOf .sequencer t = .next u ∧ (SendCompleted s u ∨
      ∃ h' m', SendAwaits s i n u h' m' ∧ (m' < m ∨ (.sequencer ≠ h ∧ h' = h ∧ m' = m))) := by
  have hcfg : t.cfg = s.cfg := ht.frame.field State.cfg
  cases hneeds with
  | push =>
    obtain ⟨hidx, hroom⟩ := ht.push_ready rfl
    obtain ⟨w, hw⟩ := Option.ne_none_iff_exists'.1 (ht.written idx le_rfl hidx)
    obtain ⟨u, hturn, hframe, hseq, hport⟩ :=
      turnOf_sequencer_push ht.seq hidx ((ht.frame.field (·.buf.get idx)).trans hw) hroom
    have hu := ht.next hc hturn hframe hseq (Nat.le_succ idx) (by rw [hport])
    have hinv := hu.inv.1 i
    rw [hu.frame.field State.cfg] at hinv
    obtain ⟨h', m', hneeds', hm⟩ := SendNeeds.exists_of_inv hinv i (n - (idx + 1)) .wait
    exact ⟨u, hturn, .inr ⟨h', m', ⟨_, _, hu, hneeds'⟩, .inl (by omega)⟩⟩
  | room hroom =>
    rw [← hcfg] at hroom
    rcases Nat.lt_or_ge idx n with hidx | hidx
    · have hturn := (sequencerTurn_wait ht.seq).trans (sendWait_more hroom hidx)
      have hu := ht.next hc (trn := .sequencer) hturn rfl rfl le_rfl rfl
      exact ⟨_, hturn, .inr ⟨_, _, ⟨idx, .push, hu, .push⟩, .inl (Nat.lt_succ_self _)⟩⟩
    · have hturn := (sequencerTurn_wait ht.seq).trans (sendWait_last hroom hidx)
      exact ⟨_, hturn, .inl ⟨rfl, rfl, ht.frame.field State.host⟩⟩
  | full hfull =>
    have hturn := (sequencerTurn_wait ht.seq).trans (sendWait_full n idx (hcfg ▸ hfull))
    exact ⟨t, hturn, .inr ⟨_, _, ⟨idx, .wait, ht, .full hfull⟩, .inr ⟨nofun, rfl, rfl⟩⟩⟩

/-- Whatever turn a send needs next brings it on, and no other hinders it. -/
theorem SendGoesOn.progresses {s : State} (hc : s.cfg.Legal) (i : SpiIx) (n : Nat) :
    Progresses (SendAwaits s i n) (SendCompleted s) := by
  rintro t h m trn ⟨idx, ph, ht, hneeds⟩ hreset
  have hcfg : t.cfg = s.cfg := ht.frame.field State.cfg
  by_cases hsequencer : trn = .sequencer
  · subst hsequencer
    exact ht.sequencerTurn hc hneeds
  · obtain ⟨u, hturn, hframe, hseq, ⟨hne, hport⟩ | ⟨rfl, hport⟩⟩ :=
      turnOf_bystander i hreset hsequencer fun _ => ne_idle_of_sending ht.seq
    · have hu := ht.next hc hturn hframe (hseq.trans ht.seq) le_rfl (by rw [hport])
      refine ⟨u, hturn, .inr ⟨h, m, ⟨idx, ph, hu, by rwa [hport]⟩, .inr ⟨?_, rfl, rfl⟩⟩⟩
      rcases hneeds.helpful with rfl | rfl
      · exact hsequencer
      · exact hne
    · have hu := ht.next hc hturn hframe (hseq.trans ht.seq) le_rfl (by rw [hport, SpiPort.shifterStep_frame])
      obtain ⟨h', m', hneeds', hm⟩ := hneeds.shifterStep (hcfg ▸ ht.inv.1 i) hc.fifo ht.clocked
      exact ⟨u, hturn, .inr ⟨h', m', ⟨idx, ph, hu, by rwa [hport]⟩, hm⟩⟩

/-- Settles O41: each round holds the turn the send needs, and the bound on the needed turns is below that on rounds. -/
theorem sendCompletesUnderFairTurns : Obligations.SendCompletesUnderFairTurns := by
  unfold Obligations.SendCompletesUnderFairTurns
  intro s i n idx ph rounds hc hinv hseq hdiv hwritten hrounds hlen
  obtain ⟨h, m, hneeds, hm⟩ := SendNeeds.exists_of_inv (hinv.1 i) i (n - idx) ph
  have hbegun : SendAwaits s i n s h m := ⟨idx, ph, ⟨rfl, hinv, hseq, hdiv, hwritten⟩, hneeds⟩
  obtain ⟨ts, t, hprefix, ⟨hidle, hresult, hhost⟩, hrun⟩ :=
    (SendGoesOn.progresses hc i n).exists_prefix_of_rounds
      (fun r hr => ⟨(hrounds r hr).2.2, fun t h m ⟨_, _, _, hneeds⟩ => by
        obtain ⟨hsequencer, hshifter, -⟩ := hrounds r hr
        rcases hneeds.helpful with rfl | rfl
        · exact hsequencer
        · exact hshifter⟩)
      hbegun (by omega)
  exact ⟨ts, _, hprefix, hrun, hidle, hresult, hhost⟩

end Sys2Proof.Machine
end

/-! # GPIO.SET (44_gpio_function.md)

The command has three answers, by the pin it names and the value `pinval` gives its mode. Which of them it gives
depends on the parameters of the instance alone, so a second execution gives the same one. -/

section
namespace Sys2Proof.Machine

/-! ### The three answers (R171, R173, R205) -/

theorem exec_gpioSet_badPin {s : State} {pin : BitVec 5} {mode : BitVec 2} (hp : pinOf s.cfg pin = none) :
    exec (.gpioSet pin mode) s = .next (failed s .badPin) := by
  rw [← complete_eq_failed s (by decide)]
  simp only [exec, execGpioSet, hp]

theorem exec_gpioSet_illegalMode {s : State} {pin : BitVec 5} {mode : BitVec 2} {p : Pin} (hp : pinOf s.cfg pin = some p)
    (hv : pinval mode = none) : exec (.gpioSet pin mode) s = .next (failed s .illegalCommand) := by
  rw [← complete_eq_failed s (by decide)]
  simp only [exec, execGpioSet, hp, hv]

theorem exec_gpioSet {s : State} {pin : BitVec 5} {mode : BitVec 2} {p : Pin} {v : PinCtrl}
    (hp : pinOf s.cfg pin = some p) (hv : pinval mode = some v) :
    exec (.gpioSet pin mode) s = .next (succeeded (s.setPinCtrl p v)) := by
  rw [← complete_ok_eq_succeeded]
  simp only [exec, execGpioSet, hp, hv]

/-! ### The values of the modes, as words and as outputs (R172, R174) -/

theorem pinval_eq_none_iff : ∀ mode : BitVec 2, pinval mode = none ↔ mode = 3#2 := by decide

theorem word_pinOut_of_low {s : State} {p : Pin} (h : s.pinCtrl p = ⟨.io, .enable, .low⟩) :
    (s.pinCtrl p).word = 0x231#32 ∧ s.pinOut p = some .low := by
  rw [State.pinOut, h]
  exact ⟨by decide, rfl⟩

theorem word_pinOut_of_high {s : State} {p : Pin} (h : s.pinCtrl p = ⟨.io, .enable, .high⟩) :
    (s.pinCtrl p).word = 0x331#32 ∧ s.pinOut p = some .high := by
  rw [State.pinOut, h]
  exact ⟨by decide, rfl⟩

theorem word_pinOut_of_pwm {s : State} {p : Pin} (h : s.pinCtrl p = ⟨.pwm, .func, .func⟩) :
    (s.pinCtrl p).word = 0x002#32 ∧
      s.pinOut p = some (.pwm ((s.chan (s.cfg.bind p).1).out (s.cfg.bind p).2)) := by
  rw [State.pinOut, h]
  exact ⟨by decide, rfl⟩

/-- Settles O43: the pin is looked up before the mode, and the one write is of the register of the pin found, which then
holds the value of the mode. -/
theorem gpioSetWritesTheWholePinRegister : Obligations.GpioSetWritesTheWholePinRegister := by
  unfold Obligations.GpioSetWritesTheWholePinRegister
  refine fun pin mode s => ⟨fun h => exec_gpioSet_badPin (pinOf_of_le h), fun p hpin hlt => ?_⟩
  have hp : pinOf s.cfg pin = some p := pinOf_eq_some.2 ⟨hpin.symm, hlt⟩
  refine ⟨fun h3 => exec_gpioSet_illegalMode hp ((pinval_eq_none_iff mode).2 h3), fun h3 => ?_⟩
  obtain ⟨v, hv⟩ := Option.ne_none_iff_exists'.1 (mt (pinval_eq_none_iff mode).1 h3)
  have hheld : (succeeded (s.setPinCtrl p v)).pinCtrl p = v := State.pinCtrl_setPinCtrl_same s p v
  refine ⟨_, exec_gpioSet hp hv, rfl, fun q hq => ?_, ?_, ?_, ?_⟩
  · exact State.pinCtrl_setPinCtrl_ne s v fun hqp => hq (hqp ▸ hpin)
  · rintro rfl
    cases hv
    exact word_pinOut_of_low hheld
  · rintro rfl
    cases hv
    exact word_pinOut_of_high hheld
  · rintro rfl
    cases hv
    exact word_pinOut_of_pwm hheld

/-- Settles O44: the second execution gives the answer of the first, and writing the same value again changes nothing. -/
theorem gpioSetIsIdempotent : Obligations.GpioSetIsIdempotent := by
  unfold Obligations.GpioSetIsIdempotent
  intro pin mode s t h
  cases hp : pinOf s.cfg pin with
  | none =>
    rw [exec_gpioSet_badPin hp] at h
    cases h
    exact ⟨_, exec_gpioSet_badPin hp, rfl⟩
  | some p =>
    cases hv : pinval mode with
    | none =>
      rw [exec_gpioSet_illegalMode hp hv] at h
      cases h
      exact ⟨_, exec_gpioSet_illegalMode hp hv, rfl⟩
    | some v =>
      rw [exec_gpioSet hp hv] at h
      cases h
      exact ⟨_, exec_gpioSet hp hv, Vector.set_set v p.isLt⟩

end Sys2Proof.Machine
end

/-! # LED.ENCODE (45_led_encoder.md)

The command has three answers: `BufferSize`, the fault of a colour never written, and the bitstream. Where the bitstream
holds which symbol is said of the list `encodeFrame` first, by position; the writes of `Buffer.putAll` carry it over to
`BUF`. -/

section
namespace Sys2Proof.Machine

/-! ### Ranges of a buffer (R40) -/

/-- A range is read in index order: what stops the reading is its first unwritten entry. -/
theorem Buffer.readRange_eq_error {w k n m : Nat} {b : Buffer w} (hk : k ≤ m) (hm : m < k + n) (hnone : b.get m = none)
    (hwritten : ∀ j, k ≤ j → j < m → b.get j ≠ none) : b.readRange k n = .error m := by
  cases hr : b.readRange k n with
  | ok vs =>
    obtain ⟨hlen, hget⟩ := Buffer.readRange_ok hr
    have := hget (m - k) (by omega)
    rw [Nat.add_sub_cancel' hk, hnone] at this
    cases this
  | error m' =>
    obtain ⟨hk', -, hnone', hwritten'⟩ := Buffer.readRange_error hr
    rcases Nat.lt_trichotomy m m' with hlt | rfl | hlt
    · exact absurd hnone (hwritten' m hk hlt)
    · rfl
    · exact absurd hnone' (hwritten m' hk' hlt)

theorem Buffer.readRange_eq_ok {w n : Nat} {b : Buffer w} {f : Nat → BitVec w} (h : ∀ j, j < n → b.get j = some (f j)) :
    b.readRange 0 n = .ok ((List.range n).map f) := by
  obtain ⟨vs, hvs⟩ := Buffer.readRange_total (b := b) (k := 0) (n := n) fun j _ hj => by
    rw [h j (by omega)]
    exact Option.some_ne_none _
  obtain ⟨hlen, hget⟩ := Buffer.readRange_ok hvs
  have heq : vs = (List.range n).map f := by
    refine List.ext_getElem (by simpa using hlen) fun j hj _ => Option.some.inj ?_
    rw [← hget j hj, Nat.zero_add, h j (by omega)]
    simp
  rw [hvs, heq]

theorem Buffer.get_putAll_of_getElem? {w n : Nat} {vs : List (BitVec w)} {v : BitVec w} (b : Buffer w)
    (h : vs[n]? = some v) : (b.putAll 0 vs).get n = some v := by
  obtain ⟨hn, rfl⟩ := List.getElem?_eq_some_iff.1 h
  simpa using Buffer.get_putAll vs b 0 n hn

/-! ### The symbols of a frame by position (R182, R184, R185) -/

/-- R182: the bit sent at position `b` is one of the green byte, then of the red, then of the blue. -/
theorem getLsbD_bitOrder (x : Colour) {b : Nat} (hb : b < 24) : (bitOrder x).getLsbD (23 - b) = colourBit x b := by
  simp only [bitOrder, Colour.green, Colour.red, Colour.blue, BitVec.getLsbD_append, BitVec.getLsbD_extractLsb',
    colourBit]
  rcases Nat.lt_or_ge b 8 with hgreen | hgreen
  · simp (disch := omega) only [if_pos, if_neg, decide_eq_true, Bool.true_and]
    exact congrArg x.getLsbD (by omega)
  rcases Nat.lt_or_ge b 16 with hred | hred
  · simp (disch := omega) only [if_pos, if_neg, decide_eq_true, Bool.true_and]
    exact congrArg x.getLsbD (by omega)
  · simp (disch := omega) only [if_pos, if_neg, decide_eq_true, Bool.true_and, Nat.zero_add]

theorem getElem?_expand24 (c : Config) (x : Colour) {b : Nat} (hb : b < 24) :
    (expand24 c x)[b]? = some (sym c (colourBit x b)) := by
  simp [expand24, hb, getLsbD_bitOrder]

theorem length_expand24 (c : Config) (x : Colour) : (expand24 c x).length = 24 := by simp [expand24]

/-- R185, R190: each colour of the frame takes 24 symbols, so that of position `led` begins at `24 * led`. -/
theorem getElem?_flatten_expand24 (c : Config) {colours : List Colour} {led b : Nat} {x : Colour}
    (hx : colours[led]? = some x) (hb : b < 24) :
    (colours.map (expand24 c)).flatten[24 * led + b]? = some (sym c (colourBit x b)) := by
  induction colours generalizing led with
  | nil => cases hx
  | cons y ys ih =>
    rw [List.map_cons, List.flatten_cons]
    cases led with
    | zero =>
      cases hx
      rw [List.getElem?_append_left (by rw [length_expand24]; omega), Nat.mul_zero, Nat.zero_add,
        getElem?_expand24 c x hb]
    | succ led =>
      rw [List.getElem?_append_right (by rw [length_expand24]; omega), length_expand24,
        show 24 * (led + 1) + b - 24 = 24 * led + b by omega]
      exact ih hx

theorem getElem?_encodeFrame (c : Config) {colours : List Colour} {led b : Nat} {x : Colour}
    (hx : colours[led]? = some x) (hb : b < 24) :
    (encodeFrame c colours)[2 + 24 * led + b]? = some (sym c (colourBit x b)) := by
  rw [Nat.add_assoc, Nat.add_comm 2]
  exact getElem?_flatten_expand24 c hx hb

/-! ### The three answers (R183, R187, R193) -/

section
variable {count : Half} {s : State}

theorem exec_ledEncode_bufferSize (h : s.cfg.colCap < count.toNat ∨ s.arg0.toNat ≠ encodedLength count.toNat ∨
    s.cfg.bufCap < encodedLength count.toNat) : exec (.ledEncode count) s = .next (failed s .bufferSize) := by
  rw [← complete_eq_failed s (by decide)]
  rcases execLedEncode_cases count s with e | ⟨hcol, harg, hbuf, -⟩
  · exact e
  · omega

variable (hcol : count.toNat ≤ s.cfg.colCap) (hbuf : encodedLength count.toNat ≤ s.cfg.bufCap)
  (harg : s.arg0.toNat = encodedLength count.toNat)
include hcol hbuf harg

theorem exec_ledEncode_unwritten {k : Nat} (h : s.col.readRange 0 count.toNat = .error k) :
    exec (.ledEncode count) s = .fault (.unwrittenColour k) := by
  simp only [exec, execLedEncode, Nat.not_lt.2 hcol, Nat.not_lt.2 hbuf, harg, h, ne_eq, not_true_eq_false, if_false]

theorem exec_ledEncode_written {colours : List Colour} (h : s.col.readRange 0 count.toNat = .ok colours) :
    exec (.ledEncode count) s = .next (succeeded ((s.setBuf (s.buf.putAll 0 (encodeFrame s.cfg colours))).setEncLen
      (BitVec.ofNat 16 (encodedLength count.toNat)))) := by
  rw [← complete_ok_eq_succeeded]
  simp only [exec, execLedEncode, Nat.not_lt.2 hcol, Nat.not_lt.2 hbuf, harg, h, ne_eq, not_true_eq_false, if_false]

end

/-- Settles O46: the colours are read in index order, and the entries of `BUF` written are those of the frame's list. -/
theorem encodeWritesTheBitstream : Obligations.EncodeWritesTheBitstream := by
  unfold Obligations.EncodeWritesTheBitstream
  intro count s colour hcol hbuf harg hwritten
  refine ⟨_, exec_ledEncode_written hcol hbuf harg (Buffer.readRange_eq_ok hwritten), rfl,
    Buffer.get_putAll_of_getElem? _ rfl, Buffer.get_putAll_of_getElem? _ rfl, fun led b hled hb => ?_, fun j hj => ?_⟩
  · exact Buffer.get_putAll_of_getElem? _ (getElem?_encodeFrame s.cfg (by simp [hled]) hb)
  · refine Buffer.get_putAll_outside _ _ _ _ (.inr ?_)
    rwa [length_encodeFrame, List.length_map, List.length_range, Nat.zero_add]

/-- Settles O47: `BufferSize` is the answer as soon as one of the three checks does not hold. -/
theorem encodeRejectsAMismatchedLength : Obligations.EncodeRejectsAMismatchedLength := by
  unfold Obligations.EncodeRejectsAMismatchedLength
  exact fun _ _ => exec_ledEncode_bufferSize

/-- Settles O48: the colours are read in index order, so the first unwritten one is where the reading stops. -/
theorem encodeFaultsOnAnUnwrittenColour : Obligations.EncodeFaultsOnAnUnwrittenColour := by
  unfold Obligations.EncodeFaultsOnAnUnwrittenColour
  intro count s k hcol hbuf harg hk hwritten hnone
  exact exec_ledEncode_unwritten hcol hbuf harg
    (Buffer.readRange_eq_error (Nat.zero_le k) (by omega) hnone fun j _ => hwritten j)

end Sys2Proof.Machine
end

/-! # The record of a failure, and the hang (60_exceptions.md)

A command shows in the record in one of three ways: it fails and is nothing but the record, it succeeds and leaves
`STATUS` alone, or it begins a send and writes no record yet (`ExecEffect.record`). No other agent but a reset writes
`STATUS`. In a hang the sequencer waits for room that only its port's shifter could make, and that shifter stands. -/

section
namespace Sys2Proof.Machine

/-! ### What a command records (R203, R204) -/

/-- Both fields of `STATUS` are the same in `t` as in `s`. -/
def SameStatus (s t : State) : Prop := t.statusFault = s.statusFault ∧ t.firstErr = s.firstErr

theorem SameStatus.complete_ok {s t : State} (h : SameStatus s t) : SameStatus s (t.complete .ok) := by
  rw [State.complete_ok]
  exact h

/-- How the execution of `i` in `s` shows in the record of `t`. -/
inductive RecordEffect (i : Instr) (s t : State) : Prop where
  | failed (k : ResultCode) (hk : k ∈ possibleCodes i) (ht : t = failed s k)
  | succeeded (hresult : t.result = .ok) (hstatus : SameStatus s t)
  | begun (hseq : t.seq ≠ .idle) (hstatus : SameStatus s t)

/-- R202 lists failures only. -/
theorem ne_ok_of_mem_possibleCodes {i : Instr} {k : ResultCode} (h : k ∈ possibleCodes i) : k ≠ .ok := by
  rintro rfl
  cases i <;> simp [possibleCodes] at h

theorem ExecEffect.record {i : Instr} {s t : State} (he : ExecEffect s i t) : RecordEffect i s t := by
  cases he with
  | failed hk => exact .failed _ hk (complete_eq_failed s (ne_ok_of_mem_possibleCodes hk))
  | spiSend => exact .begun nofun ⟨rfl, rfl⟩
  | _ => exact .succeeded rfl (SameStatus.complete_ok ⟨rfl, rfl⟩)

/-- Settles O15: of the ways a command can show in the record, only a failure leaves a non-zero code. -/
theorem failingCommandChangesOnlyTheRecord : Obligations.FailingCommandChangesOnlyTheRecord := by
  unfold Obligations.FailingCommandChangesOnlyTheRecord
  intro i s t _ h hidle hfailed
  cases (exec_effect h).record with
  | failed k _ ht => subst ht; rfl
  | succeeded hresult _ => exact absurd hresult hfailed
  | begun hseq _ => exact absurd hidle hseq

/-- Settles O18: a failure has one of the command's codes, and a command that completes otherwise succeeds. -/
theorem commandCompletesOnlyWithItsCodes : Obligations.CommandCompletesOnlyWithItsCodes := by
  unfold Obligations.CommandCompletesOnlyWithItsCodes
  intro i s t _ h hidle
  cases (exec_effect h).record with
  | failed k hk ht => subst ht; exact .inr hk
  | succeeded hresult _ => exact .inl hresult
  | begun hseq _ => exact absurd hidle hseq

/-- The send loop writes no `STATUS`: it ends in code 0 (R152). -/
theorem sequencerTurn_sameStatus {s t : State} (h : sequencerTurn s = .next t) : SameStatus s t := by
  rcases sequencerTurn_cases h with rfl | ⟨_, _, _, _, -, -, -, -, rfl⟩ | ⟨_, _, _, -, -, -, rfl⟩ |
    ⟨_, _, _, -, -, -, rfl⟩
  · exact ⟨rfl, rfl⟩
  · exact ⟨rfl, rfl⟩
  · exact ⟨rfl, rfl⟩
  · exact SameStatus.complete_ok ⟨rfl, rfl⟩

theorem sequencerTurn_result_of_ends {s t : State} (hbusy : s.seq ≠ .idle) (h : sequencerTurn s = .next t)
    (hidle : t.seq = .idle) : t.result = .ok := by
  rcases sequencerTurn_cases h with rfl | ⟨_, _, _, _, -, -, -, -, rfl⟩ | ⟨_, _, _, -, -, -, rfl⟩ |
    ⟨_, _, _, -, -, -, rfl⟩
  · exact absurd hidle hbusy
  · cases hidle
  · cases hidle
  · rfl

/-- The host's write of a word that decodes to no command (R85, R86). -/
theorem step_offer_illegal {s : State} {w : Word} {why : IllegalWord} (hi : s.seq = .idle)
    (hw : decode w = .illegal why) : step (offer (.write 0x0000 4 w) s) = .next (failed s .illegalCommand) := by
  rw [step_offer_done hi (issue_illegal hw), complete_eq_failed s (by decide)]

/-- Settles O16: a failure writes the record of R203, and a success, at once or at the end of a send, keeps `STATUS`. -/
theorem completionRecordsTheCode : Obligations.CompletionRecordsTheCode := by
  unfold Obligations.CompletionRecordsTheCode
  refine ⟨fun i s t _ h hidle => ⟨t.result, rfl, ?_⟩, fun s t hbusy h hidle => ?_, fun s w hi hw => ?_⟩
  · cases (exec_effect h).record with
    | failed k hk ht =>
      subst ht
      refine ⟨fun _ => ⟨?_, rfl⟩, fun hok => absurd hok (ne_ok_of_mem_possibleCodes hk)⟩
      cases hf : s.statusFault <;> simp [failed, hf]
    | succeeded hresult hstatus => exact ⟨fun hne => absurd hresult hne, fun _ => hstatus.symm⟩
    | begun hseq _ => exact absurd hidle hseq
  · obtain ⟨hfault, hfirst⟩ := sequencerTurn_sameStatus h
    exact ⟨sequencerTurn_result_of_ends hbusy h hidle, hfirst, hfault⟩
  · cases hd : decode w with
    | command i => exact absurd hd (hw i)
    | illegal why => exact step_offer_illegal hi hd

/-! ### The sticky bit (R209) -/

/-- A `FAULT` set in `s` is set in `t`, with the same `FIRSTERR`. -/
def KeepsFault (s t : State) : Prop := s.statusFault = true → t.statusFault = true ∧ t.firstErr = s.firstErr

section
variable {s t : State}

theorem SameStatus.keepsFault (h : SameStatus s t) : KeepsFault s t := fun hs => ⟨h.1.trans hs, h.2⟩

theorem keepsFault_failed (s : State) (k : ResultCode) : KeepsFault s (failed s k) :=
  fun hs => ⟨rfl, if_pos hs⟩

theorem ExecEffect.keepsFault {i : Instr} (he : ExecEffect s i t) : KeepsFault s t := by
  cases he.record with
  | failed k _ ht => subst ht; exact keepsFault_failed s k
  | succeeded _ hstatus => exact hstatus.keepsFault
  | begun _ hstatus => exact hstatus.keepsFault

/-- The host writes no record itself (R21). -/
theorem writeReg_sameStatus {v : Word} {r : Reg} (h : writeReg s v r = some t) : SameStatus s t := by
  rcases writeReg_cases h with rfl | rfl | ⟨_, -, rfl⟩ | ⟨_, -, rfl⟩ <;> exact ⟨rfl, rfl⟩

theorem issue_keepsFault {a : Access} (h : (issue a s).outcome = .next t) : KeepsFault s t := by
  rcases issue_cases a s with ⟨err, e⟩ | ⟨off, size, r, v, -, -, e⟩ | ⟨off, size, r, v, s', -, -, hw, e⟩ |
    ⟨off, size, w, why, -, -, e⟩ | ⟨off, size, w, i, -, -, -, e⟩ <;> rw [e] at h
  · cases h; exact SameStatus.keepsFault ⟨rfl, rfl⟩
  · cases h; exact SameStatus.keepsFault ⟨rfl, rfl⟩
  · have hsame := writeReg_sameStatus hw
    cases h
    exact hsame.keepsFault
  · cases h
    rw [complete_eq_failed s (by decide)]
    exact keepsFault_failed s _
  · exact (exec_effect h).keepsFault

theorem hostTurn_keepsFault (h : hostTurn s = .next t) : KeepsFault s t := by
  by_cases hi : s.seq = .idle
  swap
  · cases (hostTurn_held hi).symm.trans h
    exact SameStatus.keepsFault ⟨rfl, rfl⟩
  cases hh : s.host with
  | nil =>
    cases (hostTurn_nil hh).symm.trans h
    exact SameStatus.keepsFault ⟨rfl, rfl⟩
  | cons a rest => exact issue_keepsFault (s := { s with host := rest }) ((hostTurn_cons hi hh).symm.trans h)

end

/-- Settles O17, agent by agent: `STATUS` is written by completing commands only, and they keep a set `FAULT`. -/
theorem faultBitIsSticky : Obligations.FaultBitIsSticky := by
  unfold Obligations.FaultBitIsSticky
  intro s t trn hreset h
  rw [step_give] at h
  cases trn with
  | host => exact hostTurn_keepsFault h
  | sequencer => exact (sequencerTurn_sameStatus h).keepsFault
  | shifter i => cases h; exact SameStatus.keepsFault ⟨rfl, rfl⟩
  | counter c => cases h; exact SameStatus.keepsFault ⟨rfl, rfl⟩
  | reset => exact absurd rfl hreset

/-! ### The hang (R158, R210) -/

/-- A turn in a hang leaves the send and its port as they are. -/
theorem turnOf_of_hung {s : State} {i : SpiIx} {n idx : Nat} {trn : Turn} (hreset : trn ≠ .reset)
    (hseq : s.seq = .sending i n idx .wait) (hfull : (s.port i).tnf s.cfg.fifoDepth = false)
    (hstopped : (s.port i).clocked = false) :
    ∃ t, turnOf trn s = .next t ∧ SendFrame s t ∧ t.seq = s.seq ∧ t.port i = s.port i := by
  by_cases hsequencer : trn = .sequencer
  · subst hsequencer
    have hle : s.cfg.fifoDepth ≤ (s.port i).fifo.length :=
      Nat.le_of_not_lt fun hroom => Bool.false_ne_true (hfull.symm.trans (SpiPort.tnf_iff.2 hroom))
    exact ⟨s, (sequencerTurn_wait hseq).trans (sendWait_full n idx hle), rfl, rfl, rfl⟩
  · obtain ⟨t, hturn, hframe, hsame, ⟨-, hport⟩ | ⟨-, hport⟩⟩ :=
      turnOf_bystander i hreset hsequencer fun _ => ne_idle_of_sending hseq
    · exact ⟨t, hturn, hframe, hsame, hport⟩
    · exact ⟨t, hturn, hframe, hsame, hport.trans (SpiPort.shifterStep_stopped hstopped)⟩

/-- Settles O42: in a hang no turn moves the send or its port, so the hang goes on, and no agent writes the record. -/
theorem onlyResetEndsAHang : Obligations.OnlyResetEndsAHang := by
  unfold Obligations.OnlyResetEndsAHang
  rintro s ⟨i, n, idx, hseq, hfull, hstopped⟩
  refine ⟨fun trn hreset => ?_, _, step_give .reset s, rfl⟩
  obtain ⟨t, hturn, hframe, hsame, hport⟩ := turnOf_of_hung hreset hseq hfull hstopped
  have hcfg : t.cfg = s.cfg := hframe.field State.cfg
  have hung : t.Hung := ⟨i, n, idx, hsame.trans hseq, by rw [hport, hcfg]; exact hfull, by rw [hport]; exact hstopped⟩
  exact ⟨t, (step_give trn s).trans hturn, hung, hframe.field State.result, hframe.field State.statusFault,
    hframe.field State.firstErr, hframe.field State.host, hframe.field State.reply⟩

end Sys2Proof.Machine
end

/-! # Reset, and the block that does nothing after it (70_reset_and_hazards.md)

`isResetBlock_atReset` is the table of R231, of every instance with room in its FIFOs; every reset turn comes to it. What
keeps the block still after a reset is less than the table: each agent has its own reason to let its turn pass. -/

section
namespace Sys2Proof.Machine

/-! ### Agents without work (R233) -/

theorem shifterTurn_empty {s : State} {i : SpiIx} (hsh : (s.port i).sh = .empty) (hfifo : (s.port i).fifo = []) :
    shifterTurn i s = .next s := by
  rw [shifterTurn, SpiPort.shifterStep_idle hsh hfifo, State.setPort_port]

theorem counterTurn_disabled {s : State} {c : Chan} (h : (s.chan c).en = false) : counterTurn c s = .next s := by
  rw [counterTurn, Channel.tick_of_disabled h, State.setChan_chan]

/-- Settles O55: each agent of an idle block lets its turn pass, and the table of R231 holds what that takes. -/
theorem blockIsIdleAfterReset : Obligations.BlockIsIdleAfterReset := by
  unfold Obligations.BlockIsIdleAfterReset
  refine ⟨fun s hidle hdisabled hports => ⟨?_, fun i => ?_, fun c => ?_, fun hhost => ?_⟩, fun s hreset => ?_⟩
  · exact (step_give .sequencer s).trans (sequencerTurn_idle hidle)
  · obtain ⟨hfifo, hsh⟩ := hports i
    exact (step_give (.shifter i) s).trans (shifterTurn_empty hsh hfifo)
  · exact (step_give (.counter c) s).trans (counterTurn_disabled (hdisabled c))
  · exact (step_give .host s).trans (hostTurn_nil hhost)
  · obtain ⟨-, -, -, -, -, -, -, hchans, hpins, hports, -, -, hidle⟩ := hreset
    refine ⟨hidle, fun c => (hchans c).1, fun i => ?_, fun p => (hpins p).2⟩
    obtain ⟨-, -, hfifo, -, hsh, -, -⟩ := hports i
    exact ⟨hfifo, hsh⟩

/-! ### The table of reset values (R231) -/

/-- R36: with nothing queued and nothing in the shifter `SPI_SR` is `TNF` alone. -/
theorem SpiPort.srWord_of_empty {p : SpiPort} {depth : Nat} (hfifo : p.fifo = []) (hsh : p.sh = .empty)
    (hroom : 0 < depth) : p.srWord depth = 1#32 := by
  have hbsy : p.bsy = false := SpiPort.bsy_eq_false.2 ⟨hfifo, hsh⟩
  have htnf : p.tnf depth = true := SpiPort.tnf_iff.2 (by rwa [hfifo])
  rw [SpiPort.srWord, hbsy, htnf]
  rfl

theorem word_pinOut_atReset (c : Config) (e : Nat) (p : Pin) :
    ((State.atReset c e).pinCtrl p).word = 0#32 ∧ (State.atReset c e).pinOut p = some .z := by
  have hword : ((State.atReset c e).pinCtrl p).word = 0#32 := by rw [State.pinCtrl_atReset]; rfl
  obtain ⟨o, hout, hz⟩ := pinOut_of_legal ((State.pinsLegal_atReset c e).1 p)
  exact ⟨hword, hz.2 hword ▸ hout⟩

/-- R231. The depth is needed for `TNF`: a FIFO without room is full from the start. -/
theorem isResetBlock_atReset {c : Config} (hroom : 1 ≤ c.fifoDepth) (e : Nat) : IsResetBlock (State.atReset c e) := by
  refine ⟨rfl, rfl, rfl, rfl, rfl, rfl, rfl, fun x => ?_, word_pinOut_atReset c e, fun i => ?_, rfl, rfl, rfl⟩
  · rw [State.chan_atReset]
    exact ⟨rfl, rfl, rfl, rfl, rfl⟩
  · rw [State.port_atReset]
    exact ⟨rfl, rfl, rfl, SpiPort.srWord_of_empty rfl rfl hroom, rfl, rfl, rfl⟩

/-- Settles O52: `State.reset` is the reset state of the default instance, whose FIFOs have 8 words. -/
theorem resetStateIsTheTableOfReset : Obligations.ResetStateIsTheTableOfReset := by
  unfold Obligations.ResetStateIsTheTableOfReset
  have hroom : 1 ≤ Config.default.fifoDepth := by decide
  exact isResetBlock_atReset hroom 0

/-- The table says nothing of what a reset turn keeps. -/
theorem IsResetBlock.keeping {t : State} (h : IsResetBlock t) (host : List Access) (turns : List Turn) (draws : Nat) :
    IsResetBlock { t with host := host, turns := turns, draws := draws } := h

/-- Settles O53: a reset turn leaves the block in the reset state of its instance, with the host's accesses and the
schedule kept. -/
theorem resetTurnBringsTheTableOfReset : Obligations.ResetTurnBringsTheTableOfReset := by
  unfold Obligations.ResetTurnBringsTheTableOfReset
  intro s hc
  have htable := isResetBlock_atReset hc.fifo (s.epoch + 1)
  exact ⟨_, step_give .reset s, htable.keeping s.host s.turns s.draws, rfl, rfl, rfl⟩

/-! ### The invariants after reset -/

theorem State.buffersInv_atReset (c : Config) (e : Nat) : (State.atReset c e).BuffersInv :=
  ⟨Buffer.inv_nil _, Buffer.inv_nil _⟩

theorem State.resultsInv_atReset (c : Config) (e : Nat) : (State.atReset c e).ResultsInv := ⟨.inl rfl, .inl rfl⟩

/-- Settles O54, one invariant at a time: only that of the SPI unit needs R9, for room in the FIFOs. -/
theorem invariantsHoldAfterReset : Obligations.InvariantsHoldAfterReset := by
  unfold Obligations.InvariantsHoldAfterReset
  intro c hc epoch
  exact ⟨State.pinsLegal_atReset c epoch, State.recordInv_atReset c epoch, State.pwmInv_atReset c epoch,
    State.buffersInv_atReset c epoch, State.spiInv_atReset hc epoch, State.resultsInv_atReset c epoch⟩

end Sys2Proof.Machine
end
